-- ==== Sys2Proof/Word.lean ====
section
/-! DEFINITION. The words of the XEX storage core (00_scope.md R11, 10_state.md): bytes, 32-bit host words,
16-byte blocks and the 32-byte key blob. A byte array of fixed length is held as its little-endian integer
(R11's `le128`, `le32`): byte `i` of the array is bits `8*i+7 .. 8*i`. -/

namespace Sys2Proof

/-- One byte of a byte array or of the raw store. -/
abbrev Byte := BitVec 8

/-- One 32-bit host word, storage address or raw status word. -/
abbrev Word := BitVec 32

/-- A 16-byte array (R11's Block), held as `le128` of its bytes. -/
abbrev Block := BitVec 128

/-- The 32-byte key blob (R34), held as the little-endian integer of its bytes. -/
abbrev KeyBlob := BitVec 256

end Sys2Proof
end

