-- ==== Sys2Proof/Config.lean ====
section
/-! DEFINITION. What an implementation fixes (00_scope.md R9), the free values the spec leaves open, and the plain
data in which the outside world (the host and the raw store) speaks to the core. -/

namespace Sys2Proof

/-- `seq` of every block the translator visits (R9 `XLATE_SEQ`, R165). -/
def Config.xlateSeq : Nat := 1

/-- Size of the host register window in bytes (R9 `HOST_SPACE`, R60). -/
def Config.hostSpace : Nat := 0x200

/-- Which block cipher primitive the core is built over (R12). The primitive is a parameter of the model; a state
names it, so that a statement over all states holds for every primitive and a run over a concrete one evaluates. -/
inductive Cipher where
  /-- The OPEN parameter `BC`: the opaque family `Config.blockCipher`, of which only R12's law is known. -/
  | parameter
  /-- The reference instance AES-128 (R12; its definition is PRESUMED, log entry 3). -/
  | aes128
  /-- The instance TOY of 95_test_vectors.md section 0. -/
  | toy
  deriving DecidableEq, Repr

/-- The parameters an implementation fixes for its whole life (R9, R10, R45). No step changes them. -/
structure Params where
  /-- `STORE_MAX`: size of the raw store in bytes (OPEN, D13). -/
  storeMax : Nat
  /-- `RAW_OK`: the raw store's success sentinel (OPEN, D16). -/
  rawOk : Word
  /-- `BC`: the block cipher primitive (OPEN, D24). -/
  cipher : Cipher
  /-- Does the implementation keep expanded keys across commands (R45, D25: it is free to). -/
  cachesKeySchedule : Bool
  deriving DecidableEq, Repr

/-- The raw store's answer to one request (R68): a status, and for a write that fails the 16 bytes it leaves, one free
byte each. -/
structure RawAnswer where
  status : Word
  residue : Block
  deriving DecidableEq, Repr, Inhabited

/-- The block iterator `st.b`, `st.last`, `st.off`, `st.j` (10_state.md R43). -/
structure Iterator where
  /-- The current block address. -/
  b : Word
  /-- The last block address. -/
  last : Word
  /-- The intra-block offset at which the current block's overlay or copy starts. -/
  off : BitVec 4
  /-- How many caller bytes have been transferred. -/
  j : BitVec 9
  deriving DecidableEq, Repr, Inhabited

/-- The expanded keys a cache holds (R45), named by the raw keys they were expanded from: R12 folds key expansion into
the primitive. -/
structure KeySchedule where
  ke : Block
  kt : Block
  deriving DecidableEq, Repr

/-- What the outside world does next, oldest first in State's queue (R7, R102, R231: host accesses fall between core
steps, in an order the spec does not fix). -/
inductive Event where
  /-- A host write of `w` at byte offset `off`, `width` bytes wide. -/
  | write (off width : Nat) (w : Word)
  /-- A host read at byte offset `off`, `width` bytes wide. -/
  | read (off width : Nat)
  /-- The core runs until the command in progress completes. -/
  | turn
  /-- The core takes ONE core step (R102): up to and including its next raw-store access. -/
  | access
  /-- Reset (R260); `inFlight` says that the raw write that is due next was issued and had not answered (R261). -/
  | reset (inFlight : Bool)
  deriving DecidableEq, Repr

/-- One answered request on the raw-store port (R66). -/
structure RawAccess where
  isWrite : Bool
  block : Word
  status : Word
  deriving DecidableEq, Repr

/-- Size of the raw store in blocks, before the bound of R9 is applied (OPEN, D13). -/
opaque Config.storeBlocks : Nat

/-- `STORE_MAX` (R9): some multiple of 16 that is at most 2^32. -/
def Config.storeMax : Nat := 16 * (Config.storeBlocks % (2 ^ 28 + 1))

/-- `RAW_OK` (R9, R10): one fixed status, of which nothing is known. -/
opaque Config.rawOk : Word

/-- Whether the implementation caches key schedules (R45, D25). -/
opaque Config.cachesKeySchedule : Bool

/-- The primitive `BC` (R12): for each key a permutation of the blocks. R147 derives from R12's one law that
`BC_ENC(K, .)` is a bijection with inverse `BC_DEC(K, .)`, so a permutation is the law and nothing else. -/
opaque Config.blockCipher : Block → Equiv.Perm Block

/-- Free value: the raw store's answer to a request no script answers (R68). -/
opaque Config.freeAnswer : Nat → RawAnswer

/-- Free value: a word the spec leaves unspecified (a host read of a result buffer while busy, R65; the error code of
an out-of-range request, R69). -/
opaque Config.freeWord : Nat → Word

/-- Free value: the iterator after a completion or a reset (R43). -/
opaque Config.freeIterator : Nat → Iterator

/-- The parameters of the machine the spec describes: every OPEN one stays open. -/
def Config.params : Params :=
  { storeMax := Config.storeMax
    rawOk := Config.rawOk
    cipher := .parameter
    cachesKeySchedule := Config.cachesKeySchedule }

end Sys2Proof
end

