-- ==== Sys2Proof/Syntax.lean ====
section
/-! DEFINITION. The nine commands of the core (30_encoding.md R92). A command word carries no operand (R91), so no
constructor has a field: every operand stands in a register of State. -/

namespace Sys2Proof

/-- The legal commands, one constructor per row of spec/opcode_table.json. -/
inductive Instr where
  /-- `GF_DBL` (R124): one doubling in GF(2^128). -/
  | gfDbl
  /-- `XEX_ENC` (R146): encrypt one block. -/
  | xexEnc
  /-- `XEX_DEC` (R147): decrypt one block. -/
  | xexDec
  /-- `SET_KEY` (R200): install the master key. -/
  | setKey
  /-- `GET_KEY` (R202): copy the master key out. -/
  | getKey
  /-- `CLEAR_KEY` (R204): zeroize the master key and the blob register. -/
  | clearKey
  /-- `KEY_NZ` (R206): is any key byte nonzero. -/
  | keyNz
  /-- `ENC_WRITE` (R170): encrypted byte-granular write. -/
  | encWrite
  /-- `ENC_READ` (R172): encrypted byte-granular read. -/
  | encRead
  deriving DecidableEq, Repr

end Sys2Proof
end

