-- ==== Sys2Proof/WellFormed.lean ====
section
/-! DEFINITION. Which terms the interfaces admit: commands (30_encoding.md R91), host accesses (20_memory.md R60) and
parameters (00_scope.md R9). -/

namespace Sys2Proof

/-- A command has no field that could be ill-formed (R91): every constructor is a legal command. -/
def Instr.wf : Instr → Bool
  | .gfDbl | .xexEnc | .xexDec => true
  | .setKey | .getKey | .clearKey | .keyNz => true
  | .encWrite | .encRead => true

/-- R60: an access is one aligned 32-bit word inside the register window. -/
def Event.accessOk (off width : Nat) : Bool :=
  width == 4 && off % 4 == 0 && decide (off < Config.hostSpace)

/-- An event is well-formed when its host access, if it is one, is inside the interface (R60). -/
def Event.wf : Event → Bool
  | .write off width _ => Event.accessOk off width
  | .read off width => Event.accessOk off width
  | .turn => true
  | .access => true
  | .reset _ => true

/-- R9: `STORE_MAX` is a multiple of 16, at most 2^32. -/
def Params.wf (p : Params) : Bool :=
  p.storeMax % 16 == 0 && decide (p.storeMax ≤ 2 ^ 32)

end Sys2Proof
end

