-- ==== Sys2Proof/Decode.lean ====
section
/-! DEFINITION. Decoding of a command word (30_encoding.md R90, R92, R96, R97), and the encoder from the same table. -/

namespace Sys2Proof

/-- Why a command word is illegal (R96). -/
inductive IllegalWord where
  /-- `RSVD`, bits 31..4, is not 0. -/
  | reservedBits
  /-- `OPC`, bits 3..0, is 0x0 or 0xA .. 0xF. -/
  | reservedOpcode
  deriving DecidableEq, Repr

/-- What a command word means (R97). -/
inductive Decoded where
  | command (i : Instr)
  | illegal (why : IllegalWord)
  deriving DecidableEq, Repr

/-- The field `OPC` of a command word (R90). -/
def opcField (w : Word) : BitVec 4 := w.extractLsb' 0 4

/-- The field `RSVD` of a command word (R90). -/
def rsvdField (w : Word) : BitVec 28 := w.extractLsb' 4 28

/-- The opcode map (R92): `none` for the reserved opcodes. -/
def opcodeMap (opc : Nat) : Option Instr :=
  match opc with
  | 0x1 => some .gfDbl
  | 0x2 => some .xexEnc
  | 0x3 => some .xexDec
  | 0x4 => some .setKey
  | 0x5 => some .getKey
  | 0x6 => some .clearKey
  | 0x7 => some .keyNz
  | 0x8 => some .encWrite
  | 0x9 => some .encRead
  | _ => none

/-- `decode` of R97, total on all 32-bit words. -/
def decode (w : Word) : Decoded :=
  if rsvdField w = 0 then
    match opcodeMap (opcField w).toNat with
    | some i => .command i
    | none => .illegal .reservedOpcode
  else .illegal .reservedBits

/-- The opcode of a command (R92). -/
def opcode : Instr → BitVec 4
  | .gfDbl => 0x1
  | .xexEnc => 0x2
  | .xexDec => 0x3
  | .setKey => 0x4
  | .getKey => 0x5
  | .clearKey => 0x6
  | .keyNz => 0x7
  | .encWrite => 0x8
  | .encRead => 0x9

/-- The command word of a command: `zext_32(OPC)` (R92). -/
def encode (i : Instr) : Word := (opcode i).zeroExtend 32

/-- The instruction read from `nbits` bits `w`, numbered as spec/opcode_table.json numbers them: a command is one
32-bit word (R90), whose bit 0 is the table's bit 0; bits above `nbits` are 0. -/
def decodeTableWord (nbits w : Nat) : Option Instr :=
  if nbits ≤ 32 then
    match decode (BitVec.ofNat 32 (w % 2 ^ nbits)) with
    | .command i => some i
    | .illegal _ => none
  else none

end Sys2Proof
end

