-- ==== Sys2Proof/Machine/Bytes.lean ====
section
/-! DEFINITION. Byte arrays and their packing into words (00_scope.md R11, 20_memory.md R62, R71, R72): all
little-endian, byte 0 least significant. -/

namespace Sys2Proof.Machine

/-- The array of the `n` bytes `f 0 .. f (n-1)`. -/
def ofBytes : (n : Nat) → (Nat → Byte) → BitVec (8 * n)
  | 0, _ => 0
  | n + 1, f => (f n ++ ofBytes n f).cast (by omega)

/-- Byte `i` of an array, `B[i]` (R11). -/
def byteAt {w : Nat} (x : BitVec w) (i : Nat) : Byte := x.extractLsb' (8 * i) 8

/-- Word `k` of an array (R62): `le32(X[4k .. 4k+4))`. -/
def wordAt {w : Nat} (x : BitVec w) (k : Nat) : Word := x.extractLsb' (32 * k) 32

/-- The 16-byte array of the bytes `f i` (R11's Block). -/
def blockOf (f : Nat → Byte) : Block := ofBytes 16 f

/-- The 32-byte array of the bytes `f i` (R34). -/
def blobOf (f : Nat → Byte) : KeyBlob := ofBytes 32 f

/-- The word of the 4 bytes `f i`, `le32` (R11). -/
def wordOf (f : Nat → Byte) : Word := ofBytes 4 f

/-- `B[i] <- v` in a Block. -/
def setByte (x : Block) (i : Nat) (v : Byte) : Block := blockOf fun k => if k = i then v else byteAt x k

/-- A host write of word `k` of a 16-byte register (R62): `X[4k .. 4k+4) <- bytes4(w)`. -/
def setWord (x : Block) (k : Nat) (w : Word) : Block :=
  blockOf fun i => if i / 4 = k then byteAt w (i % 4) else byteAt x i

/-- A host write of word `k` of the 32-byte key blob (R62). -/
def setBlobWord (x : KeyBlob) (k : Nat) (w : Word) : KeyBlob :=
  blobOf fun i => if i / 4 = k then byteAt w (i % 4) else byteAt x i

/-- The bytes of a Block in reverse order (95_test_vectors.md section 0, `rev`). -/
def revBytes (x : Block) : Block := blockOf fun i => byteAt x (15 - i)

/-- `bytes4(b) ++ zeros(12)` (R164): the tweak value of the block at address `b`. -/
def tweakOf (b : Word) : Block := blockOf fun i => if i < 4 then byteAt b i else 0

/-- Byte `j` of the caller's buffer (R35). -/
def bufByte (v : Vector Byte 256) (j : Nat) : Byte := v.getD j 0

/-- `DATABUF[j] <- x` (R35). -/
def bufSetByte (v : Vector Byte 256) (j : Nat) (x : Byte) : Vector Byte 256 := v.setIfInBounds j x

/-- Word `k` of the caller's buffer (R35, R62). -/
def bufWord (v : Vector Byte 256) (k : Nat) : Word := wordOf fun i => bufByte v (4 * k + i)

/-- A host write of word `k` of the caller's buffer (R35, R62). -/
def bufSetWord (v : Vector Byte 256) (k : Nat) (w : Word) : Vector Byte 256 :=
  bufSetByte (bufSetByte (bufSetByte (bufSetByte v (4 * k) (byteAt w 0)) (4 * k + 1) (byteAt w 1))
    (4 * k + 2) (byteAt w 2)) (4 * k + 3) (byteAt w 3)

end Sys2Proof.Machine
end

