-- ==== Sys2Proof/Machine/State.lean ====
section
/-! DEFINITION. The state of the machine (10_state.md), the reasons a step can stop, and the state after reset
(10_state.md R50, 70_reset_and_hazards.md R260). -/

namespace Sys2Proof.Machine

/-- Why the machine stops with a fault: never. R220: the core has no traps; every error is the completion status of
the command that met it, and the machine goes on. Nobody raises a fault; that none exists is safe. -/
inductive Fault where
  deriving DecidableEq, Repr

/-- Why a step has no meaning. -/
inductive Refusal where
  /-- Raised by an arm of `exec` for a command without a meaning; no arm does. Safe: the machine stops. -/
  | notModelled (mnemonic : String)
  /-- Raised by `step` for a host access that is not one aligned 32-bit word below 0x200 (20_memory.md R60: "A model
  refuses it, and gives it no meaning"; U20). Safe: the machine stops. -/
  | accessOutsideInterface (off width : Nat)
  deriving DecidableEq, Repr

/-- The error classes of `STATUS.ECLASS` (60_exceptions.md R221); the codes 6 to 15 are never produced. -/
inductive ErrClass where
  | none
  | illegalCmd
  | zeroLen
  | range
  | rawRead
  | rawWrite
  deriving DecidableEq, Repr

/-- The stored fields of `STATUS` (R25). `BUSY` is `phase` (R26) and the reserved bits read 0 (R63), so neither is
stored a second time. -/
structure Status where
  done : Bool
  err : Bool
  knz : Bool
  ign : Bool
  eclass : ErrClass
  deriving DecidableEq, Repr

/-- The core's command state `st.phase` (R40). -/
inductive Phase where
  | idle
  | busy
  deriving DecidableEq, Repr

/-- Which core step a command in progress takes next (R102's split points): state the spec implies. `start` is a
command that has not yet accessed the raw store, or no command at all. -/
inductive Stage where
  | start
  | read
  | write
  deriving DecidableEq, Repr

/-- Raw store contents `SM` (20_memory.md R68): the listed bytes, addresses strictly rising, none 0. -/
abbrev Memory := List Host.Cell

/-- The machine: core, raw store, and the outside world's pending events as plain data. -/
structure State where
  /-- `st.Ke` (R20). -/
  ke : Block
  /-- `st.Kt` (R20). -/
  kt : Block
  /-- `STATUS`, less `BUSY` (R25). -/
  status : Status
  /-- `RAWSTAT` (R27). -/
  rawstat : Word
  /-- `ADDR` (R28). -/
  addr : Word
  /-- `LEN`, field [7:0] (R29). -/
  len : Byte
  /-- `SEQ` (R30). -/
  seq : Word
  /-- `TWEAK` (R31). -/
  tweak : Block
  /-- `DIN` (R32). -/
  din : Block
  /-- `DOUT` (R33). -/
  dout : Block
  /-- `KEYIO` (R34). -/
  keyio : KeyBlob
  /-- `DATABUF` (R35). -/
  databuf : Vector Byte 256
  /-- `st.phase` (R40). -/
  phase : Phase
  /-- `st.op` (R41). -/
  op : Word
  /-- `st.b`, `st.last`, `st.off`, `st.j` (R43). -/
  iter : Iterator
  /-- Where in its sequence of raw accesses the command in progress stands (R102). -/
  stage : Stage
  /-- `st.C` (R44). -/
  scrC : Block
  /-- `st.S` (R44). -/
  scrS : Block
  /-- `st.ks` (R45): the cached key schedules, if valid. -/
  ks : Option KeySchedule
  /-- `SM` (R68): the raw store's contents. -/
  sm : Memory
  /-- The implementation's parameters (R9); no step changes them. -/
  params : Params
  /-- The raw store's scripted answers, oldest first; when none is left the answers are free values (R68). -/
  answers : List RawAnswer
  /-- What the outside world does next, oldest first (R7). -/
  events : List Event
  /-- The model's own counter of free values drawn. -/
  draws : Nat
  /-- The traffic on the raw-store port so far, oldest first (R66, R79). -/
  rawLog : List RawAccess
  /-- The words host reads have returned so far, oldest first (R65). -/
  hostReads : List Word
  deriving DecidableEq, Repr

/-- The core after reset over the parameters `p` (R50): every register 0, the key zero, idle. The raw store is not
touched by reset; here it lists nothing (log entry 2). The iterator's values are unspecified by R50 (log entry 1). -/
def State.resetOf (p : Params) : State :=
  { ke := 0
    kt := 0
    status := { done := false, err := false, knz := false, ign := false, eclass := .none }
    rawstat := 0
    addr := 0
    len := 0
    seq := 0
    tweak := 0
    din := 0
    dout := 0
    keyio := 0
    databuf := Vector.replicate 256 0
    phase := .idle
    op := 0
    iter := { b := 0, last := 0, off := 0, j := 0 }
    stage := .start
    scrC := 0
    scrS := 0
    ks := none
    sm := []
    params := p
    answers := []
    events := []
    draws := 0
    rawLog := []
    hostReads := [] }

/-- The machine right after reset (R50, R260), every OPEN parameter open. -/
def State.reset : State := State.resetOf Config.params

end Sys2Proof.Machine
end

