-- ==== Sys2Proof/Machine/Flags.lean ====
section
/-! DEFINITION. The `STATUS` register: its word (10_state.md R25, R26), the write-one-to-clear bits, what acceptance and
completion do to it (30_encoding.md R100, R103, 60_exceptions.md R221, R223), and the key-nonzero test (43_key_state.md
R206). -/

namespace Sys2Proof.Machine

/-- The code of an error class in `STATUS[11:8]` (R221). -/
def ErrClass.code : ErrClass → BitVec 4
  | .none => 0
  | .illegalCmd => 1
  | .zeroLen => 2
  | .range => 3
  | .rawRead => 4
  | .rawWrite => 5

/-- `STATUS` as the host reads it (R25): BUSY, DONE, ERR, KNZ, IGN in bits 0..4 and ECLASS in bits 11..8; the reserved
bits read 0. `BUSY` is 1 exactly while `st.phase = BUSY` (R26). -/
def State.statusWord (s : State) : Word :=
  (0 : BitVec 20) ++ s.status.eclass.code ++ (0 : BitVec 3) ++ BitVec.ofBool s.status.ign ++
    BitVec.ofBool s.status.knz ++ BitVec.ofBool s.status.err ++ BitVec.ofBool s.status.done ++
    BitVec.ofBool (s.phase = .busy)

/-- A host write of `w` to `STATUS` (R25): DONE, ERR and IGN are cleared by a 1; no other bit is written. -/
def Status.writeOneToClear (st : Status) (w : Word) : Status :=
  { st with
    done := st.done && !w.getLsbD 1
    err := st.err && !w.getLsbD 2
    ign := st.ign && !w.getLsbD 4 }

/-- What acceptance does to `STATUS` (R100): KNZ and IGN stay. -/
def Status.accepted (st : Status) : Status :=
  { st with done := false, err := false, eclass := .none }

/-- What a successful completion does to `STATUS` (R103). -/
def Status.completed (st : Status) : Status :=
  { st with eclass := .none, err := false, done := true }

/-- What an error completion of class `c` does to `STATUS` (R223). -/
def Status.failed (st : Status) (c : ErrClass) : Status :=
  { st with eclass := c, err := true, done := true }

/-- The OR of the `n` low bytes of a block into `acc` (R206's loop). -/
def orBytes (x : Block) : Nat → Byte → Byte
  | 0, acc => acc
  | n + 1, acc => orBytes x n acc ||| byteAt x n

/-- The key-nonzero test (R206): every byte of both keys is combined, then tested once (R207). -/
def keyNonzero (ke kt : Block) : Bool :=
  orBytes kt 16 (orBytes ke 16 0) != 0

end Sys2Proof.Machine
end

