-- ==== Sys2Proof/Machine/Operands.lean ====
section
/-! DEFINITION. How operands are assembled from the registers (30_encoding.md R95, 42_translator.md R160). -/

namespace Sys2Proof.Machine

/-- `address = reg[ADDR]`, an unsigned 32-bit value (R95). -/
def State.address (s : State) : Nat := s.addr.toNat

/-- `length = zext_9(reg[LEN][7:0])`, from 0 to 255 (R95). -/
def State.length (s : State) : Nat := s.len.toNat

/-- `seq = reg[SEQ]`, unsigned (R95). -/
def State.tweakIndex (s : State) : Nat := s.seq.toNat

/-- The first half of the key blob, `KEYIO[0 .. 16)` (R34, R200). -/
def encryptHalf (blob : KeyBlob) : Block := blob.extractLsb' 0 128

/-- The second half of the key blob, `KEYIO[16 .. 32)` (R34, R200). -/
def tweakHalf (blob : KeyBlob) : Block := blob.extractLsb' 128 128

/-- The blob of two keys: `encrypt_key` in bytes 0..15, `tweak_key` in bytes 16..31 (R34, R202). -/
def blobOfKeys (ke kt : Block) : KeyBlob := kt ++ ke

/-- Caller data byte `j` (R95). -/
def State.callerByte (s : State) (j : Nat) : Byte := bufByte s.databuf j

/-- `first_block = address & 0xFFFFFFF0` (R162). -/
def State.firstBlock (s : State) : Word := s.addr &&& 0xFFFFFFF0

/-- `last_block = (address + length - 1) & 0xFFFFFFF0` (R162); used only when the sum does not wrap (R161). -/
def State.lastBlock (s : State) : Word := BitVec.ofNat 32 (s.address + s.length - 1) &&& 0xFFFFFFF0

/-- `first_offset = address & 0xF` (R162). -/
def State.firstOffset (s : State) : BitVec 4 := s.addr.setWidth 4

end Sys2Proof.Machine
end

