-- ==== Sys2Proof/Machine/Ops.lean ====
section
/-! DEFINITION. The shared operations: raw store contents and the raw-store port (20_memory.md R66 to R71), acceptance
and completion of a command (30_encoding.md R100, R103), the error completion, which is all this core has of exceptions
(60_exceptions.md R220, R223), and the reset event (70_reset_and_hazards.md R260, R261). -/

namespace Sys2Proof.Machine

/-- What a storage byte nothing has written reads as (log entry 2). -/
def unlistedByte : Byte := 0

/-- The byte of the raw store at address `a` (R71). -/
def readByte : Memory → Nat → Byte
  | [], _ => unlistedByte
  | (k, v) :: rest, a => if k = a then v else readByte rest a

/-- `SM[a] <- x`, keeping the canonical form. -/
def writeByte : Memory → Nat → Byte → Memory
  | [], a, x => if x = unlistedByte then [] else [(a, x)]
  | (k, v) :: rest, a, x =>
    if a < k then (if x = unlistedByte then (k, v) :: rest else (a, x) :: (k, v) :: rest)
    else if a = k then (if x = unlistedByte then rest else (a, x) :: rest)
    else (k, v) :: writeByte rest a x

/-- The canonical form, with every address at least `lo`: addresses strictly rising, no entry equal to what an unlisted
address reads as. -/
def Memory.wfFrom : Nat → Memory → Bool
  | _, [] => true
  | lo, (k, v) :: rest => decide (lo ≤ k) && v != unlistedByte && Memory.wfFrom (k + 1) rest

/-- The canonical form of the raw store's contents. -/
def Memory.wf (m : Memory) : Bool := Memory.wfFrom 0 m

/-- Every listed byte lies inside a store of `size` bytes (R55). -/
def Memory.inside (size : Nat) (m : Memory) : Bool := m.all fun c => decide (c.1 < size)

/-- The Block `SM[b .. b+16)` (R71). -/
def readBlock (m : Memory) (b : Nat) : Block := blockOf fun i => readByte m (b + i)

/-- `SM[b .. b+n) <- ` the first `n` bytes of `d`, of those addresses below `size`. -/
def writeBytes (size : Nat) (m : Memory) (b : Nat) (d : Block) : Nat → Memory
  | 0 => m
  | n + 1 =>
    if b + n < size then writeByte (writeBytes size m b d n) (b + n) (byteAt d n)
    else writeBytes size m b d n

/-- `SM[b .. b+16) <- d` in a store of `size` bytes (R68). -/
def writeBlock (size : Nat) (m : Memory) (b : Nat) (d : Block) : Memory := writeBytes size m b d 16

/-- The raw store's next answer: the script's, or a free value when the script is at its end (R68). -/
def State.nextAnswer (s : State) : RawAnswer :=
  match s.answers with
  | a :: _ => a
  | [] => Config.freeAnswer s.draws

/-- The state once that answer is taken. -/
def State.afterAnswer (s : State) : State :=
  { s with answers := s.answers.tail, draws := s.draws + 1 }

/-- R69: does a request for the block at `b` lie beyond the store. -/
def outOfStore (p : Params) (b : Word) : Bool := decide (p.storeMax < b.toNat + 16)

/-- An error status, every one of them possible: a status other than `RAW_OK` picked by the free value `x`. -/
def errorStatus (rawOk x : Word) : Word := rawOk + 1 + x % 0xFFFFFFFF

/-- The status the raw store answers a request at `b` with (R68): any, but some error when the block lies beyond the
store (R69). -/
def State.answerStatus (s : State) (b : Word) : Word :=
  if outOfStore s.params b && s.nextAnswer.status == s.params.rawOk then
    errorStatus s.params.rawOk (Config.freeWord s.draws)
  else s.nextAnswer.status

/-- The status with which the raw store will answer the request the core issues now, and whether it is success (R10: a
status is compared only with `RAW_OK`). -/
def State.answersOk (s : State) (b : Word) : Bool := s.answerStatus b == s.params.rawOk

/-- A request at `b` has been answered: the answer is taken and the access is on the port's log. -/
def State.logged (s : State) (isWrite : Bool) (b : Word) : State :=
  { s.afterAnswer with
    rawLog := s.rawLog ++ [{ isWrite := isWrite, block := b, status := s.answerStatus b }] }

/-- The state after `MemRead(b, 16)` (R66, R76: the store does not change). -/
def memRead (b : Word) (s : State) : State := s.logged false b

/-- The state after `MemWrite(b, 16, d)` (R66, R68): on success the block holds `d`; on failure each of its bytes holds
an unspecified value. -/
def memWrite (b : Word) (d : Block) (s : State) : State :=
  { s.logged true b with
    sm := writeBlock s.params.storeMax s.sm b.toNat (if s.answersOk b then d else s.nextAnswer.residue) }

/-- What every completion does to the core's internal state (R44, R103, R223): scratch wiped, idle; the iterator is left
unspecified (R43, log entry 1). -/
def State.toIdle (s : State) : State :=
  { s with
    scrC := 0
    scrS := 0
    phase := .idle
    stage := .start
    iter := Config.freeIterator s.draws
    draws := s.draws + 1 }

/-- `complete()` (R103). -/
def complete (s : State) : State :=
  { s.toIdle with status := s.status.completed }

/-- `raise CmdError(class, raw)` (R223): the one operation by which a command reports an error (R220). -/
def raiseError (c : ErrClass) (raw : Word) (s : State) : State :=
  { s.toIdle with status := s.status.failed c, rawstat := raw }

/-- Acceptance of command word `w` (R100). -/
def accept (w : Word) (s : State) : State :=
  { s with
    op := w
    phase := .busy
    stage := .start
    status := s.status.accepted
    rawstat := 0 }

/-- An implementation that caches key schedules now holds those of the current key (R45). -/
def keepSchedule (s : State) : State :=
  { s with ks := if s.params.cachesKeySchedule then some { ke := s.ke, kt := s.kt } else s.ks }

/-- `invalidate st.ks` (R201). -/
def dropSchedule (s : State) : State := { s with ks := none }

/-- Is a raw write due next, so that it may be in flight when reset falls (R261). -/
def State.writeDue (s : State) : Bool := decide (s.phase = .busy) && decide (s.stage = .write)

/-- What a reset finds in the raw store (R261): a raw write in flight leaves its 16 bytes unspecified. -/
def State.abandonWrite (inFlight : Bool) (s : State) : State :=
  if inFlight && s.writeDue then
    { s.afterAnswer with
      sm := writeBlock s.params.storeMax s.sm s.iter.b.toNat s.nextAnswer.residue }
  else s

/-- Every piece of core state at its reset value (R50, R260); the raw store, the parameters and the outside world stay.
The iterator is left unspecified (R43, log entry 1). -/
def State.coreReset (s : State) : State :=
  { State.resetOf s.params with
    iter := Config.freeIterator s.draws
    sm := s.sm
    answers := s.answers
    events := s.events
    draws := s.draws + 1
    rawLog := s.rawLog
    hostReads := s.hostReads }

/-- The reset event (R260, R261). -/
def resetEvent (inFlight : Bool) (s : State) : State := (s.abandonWrite inFlight).coreReset

end Sys2Proof.Machine
end

