-- ==== Sys2Proof/Machine/Aes.lean ====
section
/-! DEFINITION. The reference instance of the block cipher primitive, AES-128 (00_scope.md R12,
93_implementation_defined.md G1). PRESUMED: the spec names FIPS-197 and does not define it (log entry 3). A Block's byte `i` is byte `i` of the
standard's input and output arrays (R12: no reordering): row `i % 4`, column `i / 4` of its state. -/

namespace Sys2Proof.Machine

/-- The S-box, 32 bytes a row, byte `x % 32` of row `x / 32` for `x`. -/
def aesSBoxRows : List Nat :=
  [0xc072a49cafa2d4adf04759fa7dc982ca76abd7fe2b670130c56f6bf27b777c63,
   0x75b227ebe28012079a059618c323c7041531d871f1e5a534ccf73f362693fdb7,
   0xcf584c4a39becb6a5bb1fc20ed00d153842fe329b3d63b52a05a6e1b1a2c8309,
   0xd2f3ff1021dab6bcf5389d928f40a351a89f3c507f02f94585334d43fbaaefd0,
   0xdb0b5ede14b8ee4688902a22dc4f816073195d643d7ea7c41744975fec130ccd,
   0x08ae7a65eaf4566ca94ed58d6d37c8e779e4959162acd3c25c2406490a3a32e0,
   0x9e1dc186b95735610ef6034866b53e708a8bbd4b1f74dde8c6b4a61c2e2578ba,
   0x16bb54b00f2d99416842e6bf0d89a18cdf2855cee9871e9b948ed9691198f8e1]

/-- The inverse S-box, laid out as `aesSBoxRows`. -/
def aesInvSBoxRows : List Nat :=
  [0xcbe9dec444438e3487ff2f9b8239e37cfbd7f3819ea340bf38a53630d56a0952,
   0x25d18b6d49a25b76b224d92866a12e084ec3fa420b954cee3d23c2a632947b54,
   0x849d8da75746155edab9edfd5048706c92b6655dcc5ca4d41698688664f6f872,
   0x6b8a130103bdafc1020f3fca8f1e2cd00645b3b80558e4f70ad3bc8c00abd890,
   0x6edf751ce837f9e28535ade72274ac9673e6b4f0cecff297eadc674f4111913a,
   0xf45acd78fec0db9a2079d2c64b3e56fc1bbe18aa0e62b76f89c5291d711af147,
   0xef9cc9939f7ae52d0d4ab519a97f51605fec8027591012b131c7078833a8dd1f,
   0x7d0c2155631469e126d677ba7e042b17619953833cbbebc8b0f52aae4d3be0a0]

/-- The byte for `x` in a table laid out as `aesSBoxRows`. -/
def aesLookup (rows : List Nat) (x : Byte) : Byte :=
  BitVec.ofNat 8 ((rows.getD (x.toNat / 32) 0) >>> (8 * (x.toNat % 32)))

def aesSBox (x : Byte) : Byte := aesLookup aesSBoxRows x

def aesInvSBox (x : Byte) : Byte := aesLookup aesInvSBoxRows x

/-- Multiplication by x in the byte field. -/
def aesXtime (a : Byte) : Byte := (a <<< 1) ^^^ (if a.getLsbD 7 then 0x1b else 0)

/-- Multiplication by a constant of at most four bits in the byte field. -/
def aesMul (c : BitVec 4) (a : Byte) : Byte :=
  (if c.getLsbD 0 then a else 0) ^^^ (if c.getLsbD 1 then aesXtime a else 0) ^^^
    (if c.getLsbD 2 then aesXtime (aesXtime a) else 0) ^^^
    (if c.getLsbD 3 then aesXtime (aesXtime (aesXtime a)) else 0)

def aesSubBytes (s : Block) : Block := blockOf fun i => aesSBox (byteAt s i)

def aesInvSubBytes (s : Block) : Block := blockOf fun i => aesInvSBox (byteAt s i)

/-- Row `r` moves left by `r` columns. -/
def aesShiftRows (s : Block) : Block := blockOf fun i => byteAt s ((i + 4 * (i % 4)) % 16)

def aesInvShiftRows (s : Block) : Block := blockOf fun i => byteAt s ((i + 12 * (i % 4)) % 16)

/-- Each column times the circulant matrix whose first row is `c0 c1 c2 c3`. -/
def aesMix (c0 c1 c2 c3 : BitVec 4) (s : Block) : Block :=
  blockOf fun i =>
    aesMul c0 (byteAt s i) ^^^ aesMul c1 (byteAt s (4 * (i / 4) + (i + 1) % 4)) ^^^
      aesMul c2 (byteAt s (4 * (i / 4) + (i + 2) % 4)) ^^^ aesMul c3 (byteAt s (4 * (i / 4) + (i + 3) % 4))

def aesMixColumns (s : Block) : Block := aesMix 2 3 1 1 s

def aesInvMixColumns (s : Block) : Block := aesMix 14 11 13 9 s

/-- `SubWord` of the key expansion. -/
def aesSubWord (w : Word) : Word := wordOf fun i => aesSBox (byteAt w i)

/-- The round key after `k`, with round constant `rcon`. `RotWord` moves byte 1 to byte 0, a rotation to the right of
the little-endian word. -/
def aesNextKey (rcon : Byte) (k : Block) : Block :=
  let t := aesSubWord ((wordAt k 3).rotateRight 8) ^^^ rcon.zeroExtend 32
  let w0 := wordAt k 0 ^^^ t
  let w1 := wordAt k 1 ^^^ w0
  let w2 := wordAt k 2 ^^^ w1
  let w3 := wordAt k 3 ^^^ w2
  w3 ++ w2 ++ w1 ++ w0

/-- The round keys, one for each round constant. -/
def aesRoundKeys : List Byte → Block → List Block
  | [], _ => []
  | rcon :: rest, k =>
    let k' := aesNextKey rcon k
    k' :: aesRoundKeys rest k'

/-- The ten round constants of AES-128. -/
def aesRcons : List Byte := [0x01, 0x02, 0x04, 0x08, 0x10, 0x20, 0x40, 0x80, 0x1b, 0x36]

/-- The rounds with the given round keys; the last one does not mix columns. -/
def aesRounds : List Block → Block → Block
  | [], s => s
  | [k], s => aesShiftRows (aesSubBytes s) ^^^ k
  | k :: k' :: ks, s => aesRounds (k' :: ks) (aesMixColumns (aesShiftRows (aesSubBytes s)) ^^^ k)

/-- The inverse of `aesRounds`, the rounds undone from the last to the first. -/
def aesInvRounds : List Block → Block → Block
  | [], s => s
  | [k], s => aesInvSubBytes (aesInvShiftRows (s ^^^ k))
  | k :: k' :: ks, s => aesInvSubBytes (aesInvShiftRows (aesInvMixColumns (aesInvRounds (k' :: ks) s ^^^ k)))

/-- AES-128 encryption of block `x` under key `k`. -/
def aesEncrypt (k x : Block) : Block := aesRounds (aesRoundKeys aesRcons k) (x ^^^ k)

/-- AES-128 decryption of block `y` under key `k`. -/
def aesDecrypt (k y : Block) : Block := aesInvRounds (aesRoundKeys aesRcons k) y ^^^ k

end Sys2Proof.Machine
end

