-- ==== Sys2Proof/Machine/Cipher.lean ====
section
/-! DEFINITION. The block cipher primitive `BC` (00_scope.md R12) a state's parameters name. -/

namespace Sys2Proof.Machine

/-- `TOY_ENC(K, X) = rev(X) xor K` (95_test_vectors.md section 0). -/
def toyEncrypt (k x : Block) : Block := revBytes x ^^^ k

/-- `TOY_DEC(K, Y) = rev(Y xor K)` (95_test_vectors.md section 0). -/
def toyDecrypt (k y : Block) : Block := revBytes (y ^^^ k)

/-- `BC_ENC(K, X)` (R12). -/
def bcEnc (c : Cipher) (k x : Block) : Block :=
  match c with
  | .parameter => Config.blockCipher k x
  | .aes128 => aesEncrypt k x
  | .toy => toyEncrypt k x

/-- `BC_DEC(K, Y)` (R12). -/
def bcDec (c : Cipher) (k y : Block) : Block :=
  match c with
  | .parameter => (Config.blockCipher k).symm y
  | .aes128 => aesDecrypt k y
  | .toy => toyDecrypt k y

end Sys2Proof.Machine
end

