-- ==== Sys2Proof/Machine/Gf.lean ====
section
/-! DEFINITION. The GF(2^128) doubler (40_gf_doubler.md R120 to R123, R125). -/

namespace Sys2Proof.Machine

/-- `dbl` (R120): shift left by one and fold the bit shifted off back as 0x87. -/
def dbl (v : Block) : Block := (v <<< 1) ^^^ (if v.getLsbD 127 then 0x87 else 0)

/-- `dbl^k` (R123): `k` successive doublings. -/
def dblPow : Nat → Block → Block
  | 0, v => v
  | k + 1, v => dbl (dblPow k v)

/-- The source's byte-level algorithm (R121), with its branch-free reduction (R122: 0x87 masked by eight copies of the
carry bit). -/
def dblBytes (x : Block) : Block :=
  blockOf fun i =>
    if i = 0 then (byteAt x 0 <<< 1) ^^^ (0x87 &&& BitVec.fill 8 ((byteAt x 15).getLsbD 7))
    else (byteAt x i <<< 1) ||| (BitVec.ofBool ((byteAt x (i - 1)).getLsbD 7)).zeroExtend 8

/-- `halve` (R125 law 4): the inverse of `dbl`. No rule of the core uses it. -/
def halve (r : Block) : Block :=
  ((r ^^^ (if r.getLsbD 0 then 0x87 else 0)) >>> 1) ||| (if r.getLsbD 0 then (1 : Block) <<< 127 else 0)

end Sys2Proof.Machine
end

