-- ==== Sys2Proof/Machine/Xex.lean ====
section
/-! DEFINITION. The XEX functions (41_xex.md R140 to R143, R148). -/

namespace Sys2Proof.Machine

/-- The tweak mask (R140): `dbl^seq( BC_ENC(Kt, n) )`, for any `seq` (R143). -/
def xexMask (c : Cipher) (kt n : Block) (seq : Nat) : Block := dblPow seq (bcEnc c kt n)

/-- `xex_enc` (R141). No misuse is checked (R148). -/
def xexEncrypt (c : Cipher) (ke kt n : Block) (seq : Nat) (p : Block) : Block :=
  bcEnc c ke (p ^^^ xexMask c kt n seq) ^^^ xexMask c kt n seq

/-- `xex_dec` (R142): the primitive's decryption under `Ke`; the mask uses its encryption under `Kt`. -/
def xexDecrypt (c : Cipher) (ke kt n : Block) (seq : Nat) (y : Block) : Block :=
  bcDec c ke (y ^^^ xexMask c kt n seq) ^^^ xexMask c kt n seq

end Sys2Proof.Machine
end

