-- ==== Sys2Proof/Machine/Engine.lean ====
section
/-! DEFINITION. The single-block commands `GF_DBL` (40_gf_doubler.md R124), `XEX_ENC` and `XEX_DEC` (41_xex.md R146,
R147). Each reads its input into scratch before it writes `DOUT` (10_state.md R44, R149). -/

namespace Sys2Proof.Machine

/-- `GF_DBL` (R124). -/
def execGfDbl (s : State) : Host.Outcome State Fault Refusal :=
  let s1 := { s with scrS := s.din }
  let s2 := { s1 with scrC := dbl s1.scrS }
  let s3 := { s2 with dout := s2.scrC }
  .next (complete s3)

/-- `XEX_ENC` (R146). -/
def execXexEnc (s : State) : Host.Outcome State Fault Refusal :=
  let s1 := { keepSchedule s with scrS := s.din }
  let s2 := { s1 with scrC := xexEncrypt s1.params.cipher s1.ke s1.kt s1.tweak s1.tweakIndex s1.scrS }
  let s3 := { s2 with dout := s2.scrC }
  .next (complete s3)

/-- `XEX_DEC` (R147). -/
def execXexDec (s : State) : Host.Outcome State Fault Refusal :=
  let s1 := { keepSchedule s with scrC := s.din }
  let s2 := { s1 with scrS := xexDecrypt s1.params.cipher s1.ke s1.kt s1.tweak s1.tweakIndex s1.scrC }
  let s3 := { s2 with dout := s2.scrS }
  .next (complete s3)

end Sys2Proof.Machine
end

