-- ==== Sys2Proof/Machine/KeyState.lean ====
section
/-! DEFINITION. The key state commands (43_key_state.md R200 to R207). -/

namespace Sys2Proof.Machine

/-- `SET_KEY` (R200). -/
def execSetKey (s : State) : Host.Outcome State Fault Refusal :=
  let s1 := { s with ke := encryptHalf s.keyio }
  let s2 := { s1 with kt := tweakHalf s1.keyio }
  .next (complete (dropSchedule s2))

/-- `GET_KEY` (R202). -/
def execGetKey (s : State) : Host.Outcome State Fault Refusal :=
  .next (complete { s with keyio := blobOfKeys s.ke s.kt })

/-- One pass of `CLEAR_KEY` (R204): both keys and `KEYIO` overwritten with a constant. -/
def clearPass (key : Block) (blob : KeyBlob) (s : State) : State :=
  { s with ke := key, kt := key, keyio := blob }

/-- `CLEAR_KEY` (R204): first ones, then zeros. -/
def execClearKey (s : State) : Host.Outcome State Fault Refusal :=
  let s1 := clearPass (BitVec.allOnes 128) (BitVec.allOnes 256) s
  let s2 := clearPass 0 0 s1
  .next (complete (dropSchedule s2))

/-- `KEY_NZ` (R206): the only command that writes `STATUS.KNZ`. -/
def execKeyNz (s : State) : Host.Outcome State Fault Refusal :=
  .next (complete { s with status := { s.status with knz := keyNonzero s.ke s.kt } })

end Sys2Proof.Machine
end

