-- ==== Sys2Proof/Machine/Translator.lean ====
section
/-! DEFINITION. The encrypted block translator (42_translator.md R160 to R176): `ENC_WRITE` and `ENC_READ`, by core
steps that each end with one raw access (30_encoding.md R102). -/

namespace Sys2Proof.Machine

/-- The checks of R161, in their order, before any raw access; `none` when both pass. -/
def State.rangeError (s : State) : Option ErrClass :=
  if s.length = 0 then some .zeroLen
  else if 2 ^ 32 < s.address + s.length then some .range
  else none

/-- The iterator at the start of a command (R162, R170, R172). -/
def startIterator (s : State) : State :=
  { s with
    iter := { b := s.firstBlock, last := s.lastBlock, off := s.firstOffset, j := 0 }
    stage := .read }

/-- The block is done (R163, R170): offset 0 from now on; the next block, or completion after the last one. -/
def advance (s : State) : State :=
  if s.iter.b = s.iter.last then complete { s with iter := { s.iter with off := 0 } }
  else { s with iter := { s.iter with off := 0, b := s.iter.b + 16 }, stage := .read }

/-- R169's loop, on the scratch `S`: caller bytes from position `j` on over the bytes from index `i` on, at most `n`
times. It answers the scratch and the position after it. -/
def overlay (buf : Vector Byte 256) (len : Nat) : Nat → Block → Nat → Nat → Block × Nat
  | 0, x, _, j => (x, j)
  | n + 1, x, i, j =>
    if i < 16 ∧ j < len then overlay buf len n (setByte x i (bufByte buf j)) (i + 1) (j + 1)
    else (x, j)

/-- R172's loop: scratch bytes from index `i` on to the caller's buffer from position `j` on, at most `n` times. -/
def copyOut (x : Block) (len : Nat) : Nat → Vector Byte 256 → Nat → Nat → Vector Byte 256 × Nat
  | 0, buf, _, j => (buf, j)
  | n + 1, buf, i, j =>
    if i < 16 ∧ j < len then copyOut x len n (bufSetByte buf j (byteAt x i)) (i + 1) (j + 1)
    else (buf, j)

/-- The plaintext of a ciphertext block at `b` (R164, R165, R168): the tweak is the block address, `seq` is 1. -/
def blockDecrypt (s : State) (b : Word) (d : Block) : Block :=
  xexDecrypt s.params.cipher s.ke s.kt (tweakOf b) Config.xlateSeq d

/-- The ciphertext of a plaintext block at `b` (R164, R165, R170). -/
def blockEncrypt (s : State) (b : Word) (p : Block) : Block :=
  xexEncrypt s.params.cipher s.ke s.kt (tweakOf b) Config.xlateSeq p

/-- The block just read is decrypted into scratch (R168). -/
def decryptScratch (d : Block) (s : State) : State :=
  let s1 := { keepSchedule s with scrC := d }
  { s1 with scrS := blockDecrypt s1 s1.iter.b s1.scrC }

/-- `ENC_WRITE` between its read and its write of a block (R169, R170): overlay, re-encrypt; the write is due. -/
def overlayScratch (s : State) : State :=
  let r := overlay s.databuf s.length 16 s.scrS s.iter.off.toNat s.iter.j.toNat
  let s1 := { s with scrS := r.1, iter := { s.iter with j := BitVec.ofNat 9 r.2 } }
  { s1 with scrC := blockEncrypt s1 s1.iter.b s1.scrS, stage := .write }

/-- `ENC_READ` after its read of a block (R172): copy to the caller, next block. -/
def copyScratch (s : State) : State :=
  let r := copyOut s.scrS s.length 16 s.databuf s.iter.off.toNat s.iter.j.toNat
  advance { s with databuf := r.1, iter := { s.iter with j := BitVec.ofNat 9 r.2 } }

/-- The raw read of the current block (R166, R167): an error ends the command; else the block is decrypted and used. -/
def readCurrent (use : State → State) (s : State) : State :=
  let b := s.iter.b
  if s.answersOk b then use (decryptScratch (readBlock s.sm b.toNat) (memRead b s))
  else raiseError .rawRead (s.answerStatus b) (memRead b s)

/-- The raw write of the current block (R170): an error ends the command. -/
def writeCurrent (s : State) : State :=
  let b := s.iter.b
  if s.answersOk b then advance (memWrite b s.scrC s)
  else raiseError .rawWrite (s.answerStatus b) (memWrite b s.scrC s)

/-- The first core step of a translator command: the checks (R161), the iterator (R162), the first raw read. -/
def startTranslation (use : State → State) (s : State) : State :=
  match s.rangeError with
  | some c => raiseError c 0 s
  | none => readCurrent use (startIterator s)

/-- One core step of `ENC_WRITE` (R102, R170). -/
def encWriteStep (s : State) : State :=
  match s.stage with
  | .start => startTranslation overlayScratch s
  | .read => readCurrent overlayScratch s
  | .write => writeCurrent s

/-- One core step of `ENC_READ` (R102, R172); it never writes the raw store, so no write is ever due. -/
def encReadStep (s : State) : State :=
  match s.stage with
  | .start => startTranslation copyScratch s
  | .read => readCurrent copyScratch s
  | .write => readCurrent copyScratch s

/-- At most `n` further core steps, ending when no raw access is pending. -/
def untilDone (f : State → State) : Nat → State → State
  | 0, s => s
  | n + 1, s =>
    match s.stage with
    | .start => s
    | .read => untilDone f n (f s)
    | .write => untilDone f n (f s)

/-- The most raw accesses of one command: two for each of at most 17 blocks (R104, R162). -/
def maxAccesses : Nat := 34

/-- `ENC_WRITE` (R170): its core steps until it completes. -/
def execEncWrite (s : State) : Host.Outcome State Fault Refusal :=
  .next (untilDone encWriteStep maxAccesses (encWriteStep s))

/-- `ENC_READ` (R172): its core steps until it completes. -/
def execEncRead (s : State) : Host.Outcome State Fault Refusal :=
  .next (untilDone encReadStep maxAccesses (encReadStep s))

end Sys2Proof.Machine
end

