-- ==== Sys2Proof/Machine/Dispatch.lean ====
section
/-! DEFINITION. Dispatch of a legal command to its meaning (30_encoding.md R101). -/

namespace Sys2Proof.Machine

/-- The meaning of each command, run to completion. -/
def exec (i : Instr) (s : State) : Host.Outcome State Fault Refusal :=
  match i with
  | .gfDbl => Sys2Proof.Machine.execGfDbl s
  | .xexEnc => Sys2Proof.Machine.execXexEnc s
  | .xexDec => Sys2Proof.Machine.execXexDec s
  | .setKey => Sys2Proof.Machine.execSetKey s
  | .getKey => Sys2Proof.Machine.execGetKey s
  | .clearKey => Sys2Proof.Machine.execClearKey s
  | .keyNz => Sys2Proof.Machine.execKeyNz s
  | .encWrite => Sys2Proof.Machine.execEncWrite s
  | .encRead => Sys2Proof.Machine.execEncRead s

end Sys2Proof.Machine
end

