-- ==== Sys2Proof/Machine/HostPort.lean ====
section
/-! DEFINITION. The host port: the register map (10_state.md R23 to R36) and what host reads and writes do
(20_memory.md R60 to R65, R75, 60_exceptions.md R228). -/

namespace Sys2Proof.Machine

/-- The register a host word stands in (R23); a number is the word's index in a multi-word register. -/
inductive HostReg where
  | cmd
  | status
  | rawstat
  | addr
  | len
  | seq
  | tweak (k : Fin 4)
  | din (k : Fin 4)
  | dout (k : Fin 4)
  | keyio (k : Fin 8)
  | databuf (k : Fin 64)
  | unmapped
  deriving DecidableEq, Repr

/-- The offset bits the core decodes, [8:2] (R61). -/
def wordIndex (off : Nat) : BitVec 7 := (BitVec.ofNat 9 off).extractLsb' 2 7

/-- The register map (R23), by word index: the offset divided by 4. -/
def hostReg (idx : BitVec 7) : HostReg :=
  let n := idx.toNat
  if n = 0 then .cmd
  else if n = 1 then .status
  else if n = 2 then .rawstat
  else if n = 3 then .addr
  else if n = 4 then .len
  else if n = 5 then .seq
  else if n < 8 then .unmapped
  else if n < 12 then .tweak (Fin.ofNat 4 (n - 8))
  else if n < 16 then .din (Fin.ofNat 4 (n - 12))
  else if n < 20 then .dout (Fin.ofNat 4 (n - 16))
  else if n < 24 then .unmapped
  else if n < 32 then .keyio (Fin.ofNat 8 (n - 24))
  else if n < 64 then .unmapped
  else .databuf (Fin.ofNat 64 (n - 64))

/-- The word a register holds, as an idle host read returns it (R24, R62, R63): `CMD` and unmapped offsets read 0, and
so do the reserved bits of `STATUS` and `LEN`. -/
def State.regWord (s : State) : HostReg → Word
  | .cmd => 0
  | .status => s.statusWord
  | .rawstat => s.rawstat
  | .addr => s.addr
  | .len => s.len.zeroExtend 32
  | .seq => s.seq
  | .tweak k => wordAt s.tweak k
  | .din k => wordAt s.din k
  | .dout k => wordAt s.dout k
  | .keyio k => wordAt s.keyio k
  | .databuf k => bufWord s.databuf k
  | .unmapped => 0

/-- The registers whose reads are unspecified while the core is busy (R65, R266). -/
def HostReg.resultBuffer : HostReg → Bool
  | .dout _ => true
  | .keyio _ => true
  | .databuf _ => true
  | .cmd | .status | .rawstat | .addr | .len | .seq => false
  | .tweak _ | .din _ | .unmapped => false

/-- A read of `r` returns a free value now (R65). -/
def State.readIsFree (s : State) (r : HostReg) : Bool := decide (s.phase = .busy) && r.resultBuffer

/-- The value a host read of `r` returns (R65). -/
def State.readValue (s : State) (r : HostReg) : Word :=
  if s.readIsFree r then Config.freeWord s.draws else s.regWord r

/-- A host read of `r` (R65, R75): nothing of the machine changes; the value goes to the host. -/
def hostRead (r : HostReg) (s : State) : State :=
  { s with
    hostReads := s.hostReads ++ [s.readValue r]
    draws := if s.readIsFree r then s.draws + 1 else s.draws }

/-- A host write of `w` to `r` while the core is idle (R23, R63, R75): a write to `CMD` starts a command (R100); writes
to read-only registers and to unmapped offsets have no effect. -/
def State.writeReg (s : State) (w : Word) : HostReg → State
  | .cmd => accept w s
  | .status => { s with status := s.status.writeOneToClear w }
  | .rawstat => s
  | .addr => { s with addr := w }
  | .len => { s with len := w.setWidth 8 }
  | .seq => { s with seq := w }
  | .tweak k => { s with tweak := setWord s.tweak k w }
  | .din k => { s with din := setWord s.din k w }
  | .dout _ => s
  | .keyio k => { s with keyio := setBlobWord s.keyio k w }
  | .databuf k => { s with databuf := bufSetWord s.databuf k w }
  | .unmapped => s

/-- A host write of `w` to `r` (R64, R228): while the core is busy it is ignored and sets `STATUS.IGN`. -/
def hostWrite (r : HostReg) (w : Word) (s : State) : State :=
  match s.phase with
  | .busy => { s with status := { s.status with ign := true } }
  | .idle => s.writeReg w r

end Sys2Proof.Machine
end

