-- ==== Sys2Proof/Machine/CoreStep.lean ====
section
/-! DEFINITION. What the core does when it is its turn (30_encoding.md R101, R102), and one event of the outside world
(00_scope.md R7, 60_exceptions.md R231). -/

namespace Sys2Proof.Machine

/-- An illegal command word (R96, R101): the command completes with `ILLEGAL_CMD` and no other effect. -/
def rejectWord (s : State) : Host.Outcome State Fault Refusal := .next (raiseError .illegalCmd 0 s)

/-- The command in `st.op` is decoded and run to completion (R101). -/
def dispatch (s : State) : Host.Outcome State Fault Refusal :=
  match decode s.op with
  | .command i => exec i s
  | .illegal _ => rejectWord s

/-- One core step of a command (R102): the translator's commands stop after each raw access, the others take one step
(R104). -/
def execOne (i : Instr) (s : State) : Host.Outcome State Fault Refusal :=
  match i with
  | .encWrite => .next (encWriteStep s)
  | .encRead => .next (encReadStep s)
  | .gfDbl => exec .gfDbl s
  | .xexEnc => exec .xexEnc s
  | .xexDec => exec .xexDec s
  | .setKey => exec .setKey s
  | .getKey => exec .getKey s
  | .clearKey => exec .clearKey s
  | .keyNz => exec .keyNz s

/-- One core step of the command in `st.op` (R101, R102). -/
def dispatchOne (s : State) : Host.Outcome State Fault Refusal :=
  match decode s.op with
  | .command i => execOne i s
  | .illegal _ => rejectWord s

/-- The core runs the command in progress to completion; it does nothing while idle (R7, R262). -/
def coreTurn (s : State) : Host.Outcome State Fault Refusal :=
  match s.phase with
  | .idle => .next s
  | .busy => dispatch s

/-- The core takes one core step of the command in progress; it does nothing while idle. -/
def coreAccess (s : State) : Host.Outcome State Fault Refusal :=
  match s.phase with
  | .idle => .next s
  | .busy => dispatchOne s

/-- A host access that R60 admits takes effect; any other is refused. -/
def hostAccess (off width : Nat) (effect : HostReg → State → State) (s : State) : Host.Outcome State Fault Refusal :=
  if Event.accessOk off width then .next (effect (hostReg (wordIndex off)) s)
  else .refused (.accessOutsideInterface off width)

/-- One event of the outside world (R231: events are atomic). -/
def handleEvent (e : Event) (s : State) : Host.Outcome State Fault Refusal :=
  match e with
  | .write off width w => hostAccess off width (fun r => hostWrite r w) s
  | .read off width => hostAccess off width hostRead s
  | .turn => coreTurn s
  | .access => coreAccess s
  | .reset inFlight => .next (resetEvent inFlight s)

/-- The next event if one is pending; else the core's turn. -/
def nextEvent (s : State) : Host.Outcome State Fault Refusal :=
  match s.events with
  | [] => coreTurn s
  | e :: rest => handleEvent e { s with events := rest }

/-- The state in which command word `w` has just been accepted (R100) and it is the core's turn. -/
def acceptedNext (w : Word) (s : State) : State :=
  { accept w s with events := .turn :: s.events }

end Sys2Proof.Machine
end

