-- ==== Sys2Proof/Machine/Step.lean ====
section
/-! DEFINITION. One step of the machine, and the place a command is put for it. The core fetches nothing (10_state.md
R42, 20_memory.md R80): a command comes to it by acceptance of a command word (30_encoding.md R100). -/

namespace Sys2Proof.Machine

/-- One step: the outside world's next event, or the core's turn when none is pending. -/
def step (s : State) : Host.Outcome State Fault Refusal := nextEvent s

/-- `s` with the command word of `nbits` bits `w` just accepted (R100), so that the very next step runs it. -/
def State.withFetchWord (s : State) (nbits w : Nat) : State :=
  acceptedNext (BitVec.ofNat 32 (w % 2 ^ nbits)) s

end Sys2Proof.Machine
end

