-- ==== Sys2Proof/Machine/HostProgram.lean ====
section
/-! DEFINITION. The host-program notation (30_encoding.md R98, R99): each line is one event, each pseudo-operation the
list of events it expands to. -/

namespace Sys2Proof.Machine

/-- `wr OFF, VAL` (R98). -/
def wr (off : Nat) (w : Word) : Event := .write off 4 w

/-- `rd OFF` (R98). -/
def rd (off : Nat) : Event := .read off 4

/-- `cmd MNEMONIC` (R99). -/
def cmd (i : Instr) : List Event := [wr 0x000 (encode i)]

/-- `poll` (R99): `busyReads` reads that find the core busy, then its turn, then the read that finds it idle. How many
reads find it busy is the outside world's choice (R231). -/
def poll (busyReads : Nat) : List Event := List.replicate busyReads (rd 0x004) ++ [.turn, rd 0x004]

/-- `run MNEMONIC` (R99). -/
def run (i : Instr) (busyReads : Nat) : List Event := cmd i ++ poll busyReads

/-- `wrbytes REG, ...` (R99): whole words, little-endian, the bytes past the last one 0. -/
def wrBytes (reg : Nat) (bytes : List Byte) : List Event :=
  (List.range ((bytes.length + 3) / 4)).map fun q =>
    wr (reg + 4 * q) (bytes.getD (4 * q + 3) 0 ++ bytes.getD (4 * q + 2) 0 ++ bytes.getD (4 * q + 1) 0 ++
      bytes.getD (4 * q) 0)

/-- `rdbytes REG, k` (R99): the word reads. -/
def rdBytes (reg k : Nat) : List Event :=
  (List.range ((k + 3) / 4)).map fun q => rd (reg + 4 * q)

end Sys2Proof.Machine
end

