-- ==== Sys2Proof/Safety.lean ====
section
/-! DEFINITION. The terms claims use: what a completed command leaves, what it leaves alone, the translator's effect on
the raw store, and the invariants of the machine. -/

namespace Sys2Proof.Machine

/-- `t` is `s` after a successful completion (30_encoding.md R103), so far as completion itself writes: idle, scratch
wiped, `DONE` set, no error; `IGN` and `RAWSTAT` as before. -/
def CompletedOk (s t : State) : Prop :=
  t.phase = .idle ∧ t.stage = .start ∧ t.scrC = 0 ∧ t.scrS = 0 ∧ t.status.done = true ∧ t.status.err = false ∧
    t.status.eclass = .none ∧ t.status.ign = s.status.ign ∧ t.rawstat = s.rawstat

/-- `t` is `s` after an error completion of class `c` with raw status `raw` (60_exceptions.md R223). -/
def CompletedErr (c : ErrClass) (raw : Word) (s t : State) : Prop :=
  t.phase = .idle ∧ t.stage = .start ∧ t.scrC = 0 ∧ t.scrS = 0 ∧ t.status.done = true ∧ t.status.err = true ∧
    t.status.eclass = c ∧ t.status.ign = s.status.ign ∧ t.rawstat = raw

/-- The registers no command writes (30_encoding.md R94). -/
def OperandsKept (s t : State) : Prop :=
  t.addr = s.addr ∧ t.len = s.len ∧ t.seq = s.seq ∧ t.tweak = s.tweak ∧ t.din = s.din

/-- The key state is unchanged. -/
def KeysKept (s t : State) : Prop := t.ke = s.ke ∧ t.kt = s.kt

/-- The raw store is not accessed: every byte reads as before and the port carries no request. -/
def StoreUntouched (s t : State) : Prop :=
  (∀ a, readByte t.sm a = readByte s.sm a) ∧ t.rawLog = s.rawLog ∧ t.answers = s.answers

/-- What no command touches: the accepted word, the parameters, the host's pending events and the words it has read. -/
def OutsideKept (s t : State) : Prop :=
  t.op = s.op ∧ t.params = s.params ∧ t.events = s.events ∧ t.hostReads = s.hostReads

/-- Address `a` is one of the caller's bytes, `[address, address + length)`. -/
def State.inRange (s : State) (a : Nat) : Prop := s.address ≤ a ∧ a < s.address + s.length

/-- The decrypted content of storage address `a` (20_memory.md R71): byte `a & 0xF` of the decryption of its block. -/
def State.plainByte (s : State) (a : Nat) : Byte :=
  byteAt (blockDecrypt s (BitVec.ofNat 32 (a / 16 * 16)) (readBlock s.sm (a / 16 * 16))) (a % 16)

/-- `xex_enc(Ke, Kt, n_b, 1, S_b)` (42_translator.md R171): block `b`'s ciphertext once the caller's bytes lie over its
old plaintext. -/
def State.rewritten (s : State) (b : Nat) : Block :=
  blockEncrypt s (BitVec.ofNat 32 b) (blockOf fun i =>
    if s.address ≤ b + i ∧ b + i < s.address + s.length then s.callerByte (b + i - s.address)
    else s.plainByte (b + i))

/-- Block address `b` is one the range touches (42_translator.md R162). -/
def State.touches (s : State) (b : Nat) : Prop :=
  b % 16 = 0 ∧ s.address / 16 * 16 ≤ b ∧ b ≤ (s.address + s.length - 1) / 16 * 16

/-- R171: every touched block is rewritten, every byte outside them is as before. -/
def WroteRange (s t : State) : Prop :=
  (∀ b, s.touches b → readBlock t.sm b = s.rewritten b) ∧
    ∀ a, (a < s.address / 16 * 16 ∨ (s.address + s.length - 1) / 16 * 16 + 16 ≤ a) →
      readByte t.sm a = readByte s.sm a

/-- R173: the caller's first `length` bytes are the plaintext of the range, the others as before. -/
def ReadRange (s t : State) : Prop :=
  ∀ j < 256, bufByte t.databuf j = if j < s.length then s.plainByte (s.address + j) else bufByte s.databuf j

/-- How many blocks the range touches (42_translator.md R162). -/
def State.blockCount (s : State) : Nat := (s.address + s.length - 1) / 16 - s.address / 16 + 1

/-- The raw accesses of an `ENC_WRITE` of this range, in the order of 20_memory.md R79: is it a write, and the block. -/
def State.writePlan (s : State) : List (Bool × Nat) :=
  (List.range s.blockCount).flatMap fun k =>
    [(false, s.address / 16 * 16 + 16 * k), (true, s.address / 16 * 16 + 16 * k)]

/-- The raw accesses of an `ENC_READ` of this range, in the order of 20_memory.md R79. -/
def State.readPlan (s : State) : List (Bool × Nat) :=
  (List.range s.blockCount).map fun k => (false, s.address / 16 * 16 + 16 * k)

/-- The accesses on the raw-store port so far: is it a write, and the block. -/
def State.traffic (s : State) : List (Bool × Nat) := s.rawLog.map fun x => (x.isWrite, x.block.toNat)

/-- The range passes the checks of 42_translator.md R161. -/
def State.rangeOk (s : State) : Prop := 0 < s.length ∧ s.address + s.length ≤ 2 ^ 32

/-- The raw store is scripted to answer the next `n` requests with success. -/
def State.scriptedOk (s : State) (n : Nat) : Prop :=
  n ≤ s.answers.length ∧ ∀ x ∈ s.answers.take n, x.status = s.params.rawOk

/-- The state after one core step, staying where the step has no next state. -/
def afterOne (i : Instr) (s : State) : State :=
  match execOne i s with
  | .next t => t
  | .fault _ => s
  | .refused _ => s

/-- The raw store's contents are canonical and lie inside the store, whose size R9 admits. -/
def StoreInv (s : State) : Prop :=
  s.params.wf = true ∧ Memory.wf s.sm = true ∧ Memory.inside s.params.storeMax s.sm = true

/-- The key-schedule cache never holds the schedules of another key (41_xex.md R145). -/
def CacheInv (s : State) : Prop := ∀ k, s.ks = some k → k = { ke := s.ke, kt := s.kt }

/-- How `STATUS`, `RAWSTAT`, scratch and command state hang together (10_state.md R25, R27, R44, 60_exceptions.md
R222). -/
def StatusInv (s : State) : Prop :=
  (s.phase = .busy → s.status.done = false ∧ s.status.err = false ∧ s.status.eclass = .none ∧ s.rawstat = 0) ∧
    (s.status.err = true → s.status.eclass ≠ .none) ∧
    (s.status.eclass ≠ .rawRead → s.status.eclass ≠ .rawWrite → s.rawstat = 0) ∧
    (s.status.eclass = .rawRead ∨ s.status.eclass = .rawWrite → s.rawstat ≠ s.params.rawOk) ∧
    (s.phase = .idle → s.stage = .start ∧ s.scrC = 0 ∧ s.scrS = 0)

/-- Where a translator command in progress stands (10_state.md R43, 42_translator.md R162, R163): it is a translator
command, its range passed the checks, the iterator is on a touched block, and the caller bytes transferred are those
before that block's offset, or before its end once they are overlaid. -/
def IteratorInv (s : State) : Prop :=
  (s.phase = .idle → s.stage = .start) ∧
    (s.stage ≠ .start →
      (s.op = encode .encWrite ∨ s.op = encode .encRead) ∧ s.rangeOk ∧ s.touches s.iter.b.toNat ∧
        s.iter.last = s.lastBlock) ∧
    (s.stage = .read →
      s.iter.b.toNat + s.iter.off.toNat = s.address + s.iter.j.toNat ∧ s.iter.j.toNat < s.length) ∧
    (s.stage = .write → s.op = encode .encWrite ∧
      s.address + s.iter.j.toNat = min (s.iter.b.toNat + 16) (s.address + s.length))

end Sys2Proof.Machine
end

