-- ==== Sys2Proof/Certificates/Slice0/Obligations.lean ====
section
/-! DEFINITION. The statements for the provers. Each docstring names the rule of spec/ it formalises. -/

open Sys2Proof Sys2Proof.Machine

/-! ### Encoding and dispatch -/

/-- 30_encoding.md R92: the opcode map: the nine command words, and the reserved opcodes. -/
def Obligations.CommandWordsDecode : Prop :=
  decode 0x00000001 = .command .gfDbl ∧ decode 0x00000002 = .command .xexEnc ∧
    decode 0x00000003 = .command .xexDec ∧ decode 0x00000004 = .command .setKey ∧
    decode 0x00000005 = .command .getKey ∧ decode 0x00000006 = .command .clearKey ∧
    decode 0x00000007 = .command .keyNz ∧ decode 0x00000008 = .command .encWrite ∧
    decode 0x00000009 = .command .encRead ∧ decode 0x00000000 = .illegal .reservedOpcode ∧
    decode 0x0000000A = .illegal .reservedOpcode ∧ decode 0x0000000B = .illegal .reservedOpcode ∧
    decode 0x0000000C = .illegal .reservedOpcode ∧ decode 0x0000000D = .illegal .reservedOpcode ∧
    decode 0x0000000E = .illegal .reservedOpcode ∧ decode 0x0000000F = .illegal .reservedOpcode

/-- 30_encoding.md R92, R97: a word decodes to a command exactly when it is that command's word. -/
def Obligations.DecodeIsTheInverseOfEncode : Prop :=
  ∀ (w : Word) (i : Instr), decode w = .command i ↔ w = encode i

/-- 30_encoding.md R96: which words are illegal; an illegal word is accepted like any other, and completes with
`ILLEGAL_CMD` and no other effect. -/
def Obligations.IllegalWordsHaveNoOtherEffect : Prop :=
  (∀ w : Word, (∃ why, decode w = .illegal why) ↔
      (w.toNat % 16 = 0 ∨ 10 ≤ w.toNat % 16 ∨ w.toNat / 16 ≠ 0)) ∧
    (∀ (s : State) (w : Word) (rest : List Event), (∃ why, decode w = .illegal why) → s.phase = .idle →
      s.events = .write 0x000 4 w :: rest → ∃ t, step s = .next t ∧ t.phase = .busy ∧ t.op = w ∧ t.events = rest) ∧
    ∀ (s : State) (w : Word) (rest : List Event), (∃ why, decode w = .illegal why) → s.phase = .busy → s.op = w →
      s.events = .turn :: rest →
      ∃ t, step s = .next t ∧ CompletedErr .illegalCmd 0 s t ∧ t.status.knz = s.status.knz ∧
        KeysKept s t ∧ OperandsKept s t ∧ t.dout = s.dout ∧ t.keyio = s.keyio ∧ t.databuf = s.databuf ∧
        t.ks = s.ks ∧ StoreUntouched s t ∧ t.op = s.op ∧ t.params = s.params ∧ t.events = rest ∧
        t.hostReads = s.hostReads

/-- 30_encoding.md R101: when it is the core's turn, a step runs the command `st.op` decodes to, and an illegal word
raises `ILLEGAL_CMD`; at an `access` event it takes one core step of it, R102's split. That it is the core's turn when
no event is pending, and that `turn` and `access` are its events, is the model's choice (log entry 6). -/
def Obligations.StepRunsTheDecodedCommand : Prop :=
  (∀ (s : State) (i : Instr), s.phase = .busy → decode s.op = .command i →
    (s.events = [] → step s = exec i s) ∧
      (∀ rest, s.events = .turn :: rest → step s = exec i { s with events := rest }) ∧
      (∀ rest, s.events = .access :: rest → step s = execOne i { s with events := rest })) ∧
    ∀ (s : State) (why : IllegalWord), s.phase = .busy → decode s.op = .illegal why →
      (s.events = [] → step s = .next (raiseError .illegalCmd 0 s)) ∧
        ∀ e rest, e = .turn ∨ e = .access → s.events = e :: rest →
          step s = .next (raiseError .illegalCmd 0 { s with events := rest })

/-- The model's own step (00_scope.md R7, 60_exceptions.md R231): otherwise a step is the outside world's next event:
a host access, or reset; while idle the core executes nothing (70_reset_and_hazards.md R262): with no event pending
nothing changes, and a `turn` or `access` event (the model's queue, log entry 6) only leaves the queue. -/
def Obligations.StepTakesTheNextEvent : Prop :=
  ∀ (s : State) (rest : List Event),
    (∀ off w, Event.accessOk off 4 = true → s.events = .write off 4 w :: rest →
      step s = .next (hostWrite (hostReg (wordIndex off)) w { s with events := rest })) ∧
    (∀ off, Event.accessOk off 4 = true → s.events = .read off 4 :: rest →
      step s = .next (hostRead (hostReg (wordIndex off)) { s with events := rest })) ∧
    (∀ f, s.events = .reset f :: rest → step s = .next (resetEvent f { s with events := rest })) ∧
    (s.phase = .idle → s.events = [] → step s = .next s) ∧
    (∀ e, s.phase = .idle → e = .turn ∨ e = .access → s.events = e :: rest → step s = .next { s with events := rest })

/-- `withFetchWord` (the model's placing of a command, 30_encoding.md R100, R101): the very next step runs it. -/
def Obligations.PlacedCommandRunsNext : Prop :=
  ∀ (s : State) (i : Instr),
    step (s.withFetchWord 32 (encode i).toNat) = exec i { accept (encode i) s with events := s.events }

/-- 20_memory.md R60: an access that is not one aligned 32-bit word below 0x200 is refused, every other one is not, and
nothing but such an access is ever refused (30_encoding.md R97: every command word has a meaning). -/
def Obligations.OnlyAccessesOutsideTheInterfaceAreRefused : Prop :=
  (∀ (s : State) (rest : List Event) (off width : Nat) (w : Word),
      ¬(width = 4 ∧ off % 4 = 0 ∧ off < 0x200) →
      (s.events = .write off width w :: rest → step s = .refused (.accessOutsideInterface off width)) ∧
      (s.events = .read off width :: rest → step s = .refused (.accessOutsideInterface off width))) ∧
    ∀ (s : State), (∀ r, step s ≠ .refused r) ∨
      ∃ off width rest, ¬(width = 4 ∧ off % 4 = 0 ∧ off < 0x200) ∧
        ((∃ w, s.events = .write off width w :: rest) ∨ s.events = .read off width :: rest)

/-! ### Host port -/

/-- 30_encoding.md R100: acceptance of a command word, and that a write to `CMD` while busy only sets `IGN`. -/
def Obligations.AcceptanceOfACommandWord : Prop :=
  ∀ (s : State) (w : Word) (rest : List Event), s.events = .write 0x000 4 w :: rest →
    (s.phase = .idle → step s = .next { s with
      events := rest, op := w, phase := .busy, stage := .start, rawstat := 0,
      status := { s.status with done := false, err := false, eclass := .none } }) ∧
    (s.phase = .busy → step s = .next { s with events := rest, status := { s.status with ign := true } })

/-- 20_memory.md R64, 60_exceptions.md R228: while busy every host write is ignored and sets `IGN`. -/
def Obligations.BusyHostWritesAreIgnored : Prop :=
  ∀ (s : State) (off : Nat) (w : Word) (rest : List Event), s.phase = .busy → off % 4 = 0 → off < 0x200 →
    s.events = .write off 4 w :: rest →
    step s = .next { s with events := rest, status := { s.status with ign := true } }

/-- 20_memory.md R65: what a host read returns while busy; `RAWSTAT` reads 0 in every state that keeps `StatusInv`. Of
`DOUT`, `KEYIO` and `DATABUF` nothing is said: the value is a free value. No read changes anything but the host's record
of it (and the counter of free values). -/
def Obligations.BusyHostReads : Prop :=
  ∀ (s : State) (off : Nat) (rest : List Event), s.phase = .busy → off % 4 = 0 → off < 0x200 →
    s.events = .read off 4 :: rest →
    ∃ v d, step s = .next { s with events := rest, hostReads := s.hostReads ++ [v], draws := d } ∧
      (off = 0x000 → v = 0) ∧
      (off = 0x004 → v = s.statusWord ∧ v.getLsbD 0 = true) ∧
      (off = 0x008 → v = s.rawstat ∧ (StatusInv s → v = 0)) ∧
      (off = 0x00C → v = s.addr) ∧
      (off = 0x010 → v = s.len.zeroExtend 32) ∧
      (off = 0x014 → v = s.seq) ∧
      (∀ k < 4, off = 0x020 + 4 * k → v = wordAt s.tweak k) ∧
      (∀ k < 4, off = 0x030 + 4 * k → v = wordAt s.din k) ∧
      (off = 0x018 ∨ off = 0x01C ∨ (0x050 ≤ off ∧ off ≤ 0x05C) ∨ (0x080 ≤ off ∧ off ≤ 0x0FC) → v = 0)

/-- 10_state.md R23, R24, 20_memory.md R62, R63: what a host read returns while idle, at every offset of the map. -/
def Obligations.IdleHostReads : Prop :=
  ∀ (s : State) (off : Nat) (rest : List Event), s.phase = .idle → off % 4 = 0 → off < 0x200 →
    s.events = .read off 4 :: rest →
    ∃ v, step s = .next { s with events := rest, hostReads := s.hostReads ++ [v] } ∧
      (off = 0x000 → v = 0) ∧
      (off = 0x004 → v = s.statusWord) ∧
      (off = 0x008 → v = s.rawstat) ∧
      (off = 0x00C → v = s.addr) ∧
      (off = 0x010 → v.toNat = s.len.toNat) ∧
      (off = 0x014 → v = s.seq) ∧
      (∀ k < 4, off = 0x020 + 4 * k → ∀ i < 4, byteAt v i = byteAt s.tweak (4 * k + i)) ∧
      (∀ k < 4, off = 0x030 + 4 * k → ∀ i < 4, byteAt v i = byteAt s.din (4 * k + i)) ∧
      (∀ k < 4, off = 0x040 + 4 * k → ∀ i < 4, byteAt v i = byteAt s.dout (4 * k + i)) ∧
      (∀ k < 8, off = 0x060 + 4 * k → ∀ i < 4, byteAt v i = byteAt s.keyio (4 * k + i)) ∧
      (∀ k < 64, off = 0x100 + 4 * k → ∀ i < 4, byteAt v i = bufByte s.databuf (4 * k + i)) ∧
      (off = 0x018 ∨ off = 0x01C ∨ (0x050 ≤ off ∧ off ≤ 0x05C) ∨ (0x080 ≤ off ∧ off ≤ 0x0FC) → v = 0)

/-- 10_state.md R27 to R35, 20_memory.md R62, R63: what a host write does while idle, at every offset but `CMD` and
`STATUS`: the register's own bytes change and nothing else does; read-only and unmapped offsets ignore it. -/
def Obligations.IdleHostWrites : Prop :=
  ∀ (s : State) (off : Nat) (w : Word) (rest : List Event), s.phase = .idle → off % 4 = 0 → off < 0x200 →
    s.events = .write off 4 w :: rest →
    (off = 0x00C → step s = .next { s with events := rest, addr := w }) ∧
    (off = 0x010 → ∃ v : Byte, v.toNat = w.toNat % 256 ∧ step s = .next { s with events := rest, len := v }) ∧
    (off = 0x014 → step s = .next { s with events := rest, seq := w }) ∧
    (∀ k < 4, off = 0x020 + 4 * k → ∃ v, step s = .next { s with events := rest, tweak := v } ∧
      ∀ i < 16, byteAt v i = if i / 4 = k then byteAt w (i % 4) else byteAt s.tweak i) ∧
    (∀ k < 4, off = 0x030 + 4 * k → ∃ v, step s = .next { s with events := rest, din := v } ∧
      ∀ i < 16, byteAt v i = if i / 4 = k then byteAt w (i % 4) else byteAt s.din i) ∧
    (∀ k < 8, off = 0x060 + 4 * k → ∃ v, step s = .next { s with events := rest, keyio := v } ∧
      ∀ i < 32, byteAt v i = if i / 4 = k then byteAt w (i % 4) else byteAt s.keyio i) ∧
    (∀ k < 64, off = 0x100 + 4 * k → ∃ v, step s = .next { s with events := rest, databuf := v } ∧
      ∀ i < 256, bufByte v i = if i / 4 = k then byteAt w (i % 4) else bufByte s.databuf i) ∧
    (off = 0x008 ∨ off = 0x018 ∨ off = 0x01C ∨ (0x040 ≤ off ∧ off ≤ 0x05C) ∨ (0x080 ≤ off ∧ off ≤ 0x0FC) →
      step s = .next { s with events := rest })

/-- 10_state.md R25: an idle host write of `w` to `STATUS` clears `DONE`, `ERR` and `IGN` where `w` has a 1, and changes
nothing else. -/
def Obligations.StatusBitsAreWriteOneToClear : Prop :=
  ∀ (s : State) (w : Word) (rest : List Event), s.phase = .idle → s.events = .write 0x004 4 w :: rest →
    ∃ st, step s = .next { s with events := rest, status := st } ∧
      ({ s with status := st } : State).statusWord = s.statusWord &&& ~~~(w &&& 0x00000016)

/-- 10_state.md R25, R26: the layout of `STATUS`: `BUSY` is bit 0 and is 1 exactly while the core is busy; the other
fields stand at their bits; the reserved bits read 0. 60_exceptions.md R221: the codes of the error classes. -/
def Obligations.StatusWordLayout : Prop :=
  ∀ s : State, (s.statusWord.getLsbD 0 = true ↔ s.phase = .busy) ∧ s.statusWord.getLsbD 1 = s.status.done ∧
    s.statusWord.getLsbD 2 = s.status.err ∧ s.statusWord.getLsbD 3 = s.status.knz ∧
    s.statusWord.getLsbD 4 = s.status.ign ∧ s.statusWord.toNat / 32 % 8 = 0 ∧
    s.statusWord.toNat / 256 = s.status.eclass.code.toNat ∧
    (s.status.eclass = .none → s.statusWord.toNat / 256 = 0) ∧
    (s.status.eclass = .illegalCmd → s.statusWord.toNat / 256 = 1) ∧
    (s.status.eclass = .zeroLen → s.statusWord.toNat / 256 = 2) ∧
    (s.status.eclass = .range → s.statusWord.toNat / 256 = 3) ∧
    (s.status.eclass = .rawRead → s.statusWord.toNat / 256 = 4) ∧
    (s.status.eclass = .rawWrite → s.statusWord.toNat / 256 = 5)

/-! ### Reset -/

/-- 10_state.md R50: the values the spec gives for reset (the values of parameters and of the raw store are not among
them, and the iterator's are unspecified). -/
def Obligations.ResetValues : Prop :=
  let s := State.reset
  s.ke = 0 ∧ s.kt = 0 ∧ s.phase = .idle ∧ s.op = 0 ∧ s.statusWord = 0 ∧ s.rawstat = 0 ∧ s.addr = 0 ∧ s.len = 0 ∧
    s.seq = 0 ∧ s.tweak = 0 ∧ s.din = 0 ∧ s.dout = 0 ∧ s.keyio = 0 ∧ (∀ j < 256, bufByte s.databuf j = 0) ∧
    s.scrS = 0 ∧ s.scrC = 0 ∧ s.ks = none

/-- 70_reset_and_hazards.md R260, 10_state.md R50: the reset event gives every piece of core state its reset value, in
any state and however busy the core was; it does not touch the raw store (no write being in flight: R261). -/
def Obligations.ResetEventResetsTheCore : Prop :=
  ∀ (s : State) (rest : List Event) (f : Bool), s.events = .reset f :: rest →
    ∃ t, step s = .next t ∧ t.ke = 0 ∧ t.kt = 0 ∧ t.phase = .idle ∧ t.op = 0 ∧ t.statusWord = 0 ∧ t.rawstat = 0 ∧
      t.addr = 0 ∧ t.len = 0 ∧ t.seq = 0 ∧ t.tweak = 0 ∧ t.din = 0 ∧ t.dout = 0 ∧ t.keyio = 0 ∧
      (∀ j < 256, bufByte t.databuf j = 0) ∧ t.scrS = 0 ∧ t.scrC = 0 ∧ t.ks = none ∧
      (f = false → StoreUntouched s t) ∧ t.params = s.params ∧ t.events = rest

/-- 70_reset_and_hazards.md R261: a reset while a raw write is in flight leaves that block's 16 bytes unspecified and
every other byte of the raw store as it was; in every other state a reset leaves the whole store, and so it does in
every state that keeps `IteratorInv` in which the command is not an `ENC_WRITE`. No completion status is left. -/
def Obligations.ResetDuringACommandKeepsTheOtherBlocks : Prop :=
  ∀ (s : State) (rest : List Event) (f : Bool), s.events = .reset f :: rest → Memory.wf s.sm = true →
    ∃ t, step s = .next t ∧ t.phase = .idle ∧ t.statusWord = 0 ∧ t.rawstat = 0 ∧
      (∀ a, (a < s.iter.b.toNat ∨ s.iter.b.toNat + 16 ≤ a) → readByte t.sm a = readByte s.sm a) ∧
      (f = false ∨ s.phase = .idle ∨ s.stage ≠ .write → ∀ a, readByte t.sm a = readByte s.sm a) ∧
      (IteratorInv s → s.op ≠ encode .encWrite → ∀ a, readByte t.sm a = readByte s.sm a)

/-! ### Completion -/

/-- 30_encoding.md R103: `complete()`. -/
def Obligations.SuccessfulCompletion : Prop :=
  ∀ s : State, (complete s).scrC = 0 ∧ (complete s).scrS = 0 ∧ (complete s).status.eclass = .none ∧
    (complete s).status.err = false ∧ (complete s).status.done = true ∧ (complete s).phase = .idle ∧
    (complete s).statusWord.getLsbD 0 = false ∧ (complete s).status.knz = s.status.knz ∧
    (complete s).status.ign = s.status.ign ∧ (complete s).rawstat = s.rawstat ∧ KeysKept s (complete s) ∧
    OperandsKept s (complete s) ∧ (complete s).dout = s.dout ∧ (complete s).keyio = s.keyio ∧
    (complete s).databuf = s.databuf ∧ (complete s).ks = s.ks ∧ StoreUntouched s (complete s) ∧
    OutsideKept s (complete s)

/-- 60_exceptions.md R223: `raise CmdError(class, raw)`, the one way in which this core reports an error (R220). -/
def Obligations.ErrorCompletion : Prop :=
  ∀ (c : ErrClass) (raw : Word) (s t : State), t = raiseError c raw s →
    t.rawstat = raw ∧ t.status.eclass = c ∧ t.status.err = true ∧ t.status.done = true ∧ t.scrC = 0 ∧ t.scrS = 0 ∧
      t.phase = .idle ∧ t.statusWord.getLsbD 0 = false ∧ t.status.knz = s.status.knz ∧ t.status.ign = s.status.ign ∧
      KeysKept s t ∧ OperandsKept s t ∧ t.dout = s.dout ∧ t.keyio = s.keyio ∧ t.databuf = s.databuf ∧ t.ks = s.ks ∧
      StoreUntouched s t ∧ OutsideKept s t

/-! ### GF(2^128) doubler -/

/-- 40_gf_doubler.md R124: `GF_DBL` completes in every state, `DOUT` is `DIN` doubled, with its frame. -/
def Obligations.GfDblDoublesDin : Prop :=
  ∀ s : State, ∃ t, exec .gfDbl s = .next t ∧
    t.dout.toNat = (2 * s.din.toNat % 2 ^ 128) ^^^ (if s.din.toNat < 2 ^ 127 then 0 else 0x87) ∧
    CompletedOk s t ∧ t.status.knz = s.status.knz ∧ KeysKept s t ∧ OperandsKept s t ∧ t.keyio = s.keyio ∧
    t.databuf = s.databuf ∧ t.ks = s.ks ∧ StoreUntouched s t ∧ OutsideKept s t

/-- 40_gf_doubler.md R121, R122: the source's byte-level algorithm, and its branch-free form, are the same
function. -/
def Obligations.ByteAlgorithmDoubles : Prop :=
  ∀ x : Block, (∀ i < 16, byteAt (dbl x) i =
      if i = 0 then (byteAt x 0 <<< 1) ^^^ (if (byteAt x 15).getLsbD 7 then 0x87 else 0)
      else (byteAt x i <<< 1) ||| (if (byteAt x (i - 1)).getLsbD 7 then 1 else 0)) ∧
    dblBytes x = dbl x

/-- 40_gf_doubler.md R125: the five laws of the doubling function. -/
def Obligations.DoublingLaws : Prop :=
  dbl 0 = 0 ∧ (∀ a b : Block, dbl (a ^^^ b) = dbl a ^^^ dbl b) ∧
    (∀ a : Block, (dbl a).getLsbD 0 = a.getLsbD 127) ∧
    (∀ a : Block, halve (dbl a) = a) ∧ (∀ a : Block, dbl (halve a) = a) ∧
    dblPow 128 1 = 0x87 ∧ (dblPow 127 1).toNat = 2 ^ 127

open Polynomial in
/-- 40_gf_doubler.md R120, R123: `dbl^k` is multiplication by `x^k` in GF(2)[x] modulo `x^128 + x^7 + x^2 + x + 1`. -/
def Obligations.DoublingIsFieldMultiplication : Prop :=
  ∀ (k : Nat) (a : Block),
    (X ^ 128 + X ^ 7 + X ^ 2 + X + 1 : (ZMod 2)[X]) ∣
      (∑ i ∈ Finset.range 128, if (dblPow k a).getLsbD i then (X ^ i : (ZMod 2)[X]) else 0) -
        X ^ k * ∑ i ∈ Finset.range 128, if a.getLsbD i then (X ^ i : (ZMod 2)[X]) else 0

/-! ### XEX engine -/

/-- 41_xex.md R146: `XEX_ENC` completes in every state, `DOUT` is the XEX encryption of `DIN`, with its frame. -/
def Obligations.XexEncEncryptsDin : Prop :=
  ∀ s : State, ∃ t, exec .xexEnc s = .next t ∧
    (∀ mask, mask = dbl^[s.seq.toNat] (bcEnc s.params.cipher s.kt s.tweak) →
      t.dout = bcEnc s.params.cipher s.ke (s.din ^^^ mask) ^^^ mask) ∧
    CompletedOk s t ∧ t.status.knz = s.status.knz ∧ KeysKept s t ∧ OperandsKept s t ∧ t.keyio = s.keyio ∧
    t.databuf = s.databuf ∧ StoreUntouched s t ∧ OutsideKept s t

/-- 41_xex.md R147: `XEX_DEC` completes in every state, `DOUT` is the XEX decryption of `DIN`, with its frame; and
`XEX_ENC` of that result, under the same operands and key, gives `DIN` back. -/
def Obligations.XexDecDecryptsDin : Prop :=
  ∀ s : State, ∃ t, exec .xexDec s = .next t ∧
    (∀ mask, mask = dbl^[s.seq.toNat] (bcEnc s.params.cipher s.kt s.tweak) →
      t.dout = bcDec s.params.cipher s.ke (s.din ^^^ mask) ^^^ mask) ∧
    (∀ u, exec .xexEnc { t with din := t.dout } = .next u → u.dout = s.din) ∧
    CompletedOk s t ∧ t.status.knz = s.status.knz ∧ KeysKept s t ∧ OperandsKept s t ∧ t.keyio = s.keyio ∧
    t.databuf = s.databuf ∧ StoreUntouched s t ∧ OutsideKept s t

/-- 41_xex.md R144: decryption undoes encryption, for every primitive, key, tweak, index and block. -/
def Obligations.XexRoundTrip : Prop :=
  ∀ (c : Cipher) (ke kt n : Block) (seq : Nat) (p : Block),
    xexDecrypt c ke kt n seq (xexEncrypt c ke kt n seq p) = p

/-- 41_xex.md R145: no result depends on what the key-schedule cache holds. -/
def Obligations.ResultsDoNotDependOnTheCache : Prop :=
  ∀ (i : Instr) (s t : State) (k : Option KeySchedule), exec i s = .next t →
    ∃ k', exec i { s with ks := k } = .next { t with ks := k' }

/-! ### Key state -/

/-- 43_key_state.md R200: `SET_KEY` completes in every state and installs the blob, with its frame. -/
def Obligations.SetKeyInstallsTheBlob : Prop :=
  ∀ s : State, ∃ t, exec .setKey s = .next t ∧
    (∀ i < 16, byteAt t.ke i = byteAt s.keyio i) ∧ (∀ i < 16, byteAt t.kt i = byteAt s.keyio (16 + i)) ∧
    t.ks = none ∧ t.keyio = s.keyio ∧
    CompletedOk s t ∧ t.status.knz = s.status.knz ∧ OperandsKept s t ∧ t.dout = s.dout ∧
    t.databuf = s.databuf ∧ StoreUntouched s t ∧ OutsideKept s t

/-- 43_key_state.md R202: `GET_KEY` completes in every state and copies the key out, with its frame. -/
def Obligations.GetKeyCopiesTheKeyOut : Prop :=
  ∀ s : State, ∃ t, exec .getKey s = .next t ∧
    (∀ i < 16, byteAt t.keyio i = byteAt s.ke i) ∧ (∀ i < 16, byteAt t.keyio (16 + i) = byteAt s.kt i) ∧
    KeysKept s t ∧ t.ks = s.ks ∧
    CompletedOk s t ∧ t.status.knz = s.status.knz ∧ OperandsKept s t ∧ t.dout = s.dout ∧
    t.databuf = s.databuf ∧ StoreUntouched s t ∧ OutsideKept s t

/-- 43_key_state.md R204: `CLEAR_KEY` completes in every state and leaves the zero key and a zero blob, with its frame.
The clause on `clearPass` is the model's choice (log entry 13): both passes lie in one step, so the pass of zeros erases
the pass of ones (no host sees it, 10_state.md R46), and that there is a pass of ones is not said here. -/
def Obligations.ClearKeyZeroizes : Prop :=
  ∀ s : State, ∃ t, exec .clearKey s = .next t ∧
    (∃ p q, p = clearPass (BitVec.allOnes 128) (BitVec.allOnes 256) s ∧ q = clearPass 0 0 p ∧
      t = complete { q with ks := none }) ∧
    t.ke = 0 ∧ t.kt = 0 ∧ t.keyio = 0 ∧ t.ks = none ∧
    CompletedOk s t ∧ t.status.knz = s.status.knz ∧ OperandsKept s t ∧ t.dout = s.dout ∧
    t.databuf = s.databuf ∧ StoreUntouched s t ∧ OutsideKept s t

/-- 43_key_state.md R206: `KEY_NZ` completes in every state; `KNZ` says whether a byte of either key is nonzero, with
its frame; and no other command changes `KNZ`. -/
def Obligations.KeyNzTestsEveryKeyByte : Prop :=
  (∀ (i : Instr) (s t : State), i ≠ .keyNz → exec i s = .next t → t.status.knz = s.status.knz) ∧
  ∀ s : State, ∃ t, exec .keyNz s = .next t ∧
    (t.status.knz = true ↔ ∃ i < 16, byteAt s.ke i ≠ 0 ∨ byteAt s.kt i ≠ 0) ∧
    CompletedOk s t ∧ KeysKept s t ∧ OperandsKept s t ∧ t.dout = s.dout ∧ t.keyio = s.keyio ∧
    t.databuf = s.databuf ∧ t.ks = s.ks ∧ StoreUntouched s t ∧ OutsideKept s t

/-- 43_key_state.md R203: `GET_KEY` after `SET_KEY` gives the blob that was read, from any state with the installed key
(no `CLEAR_KEY` between them); `SET_KEY` after `GET_KEY` gives the key back, from any state with the copied blob. -/
def Obligations.SetKeyAndGetKeyAreInverse : Prop :=
  (∀ s t u v : State, exec .setKey s = .next t → u.ke = t.ke → u.kt = t.kt → exec .getKey u = .next v →
      v.keyio = s.keyio) ∧
    ∀ s t u v : State, exec .getKey s = .next t → u.keyio = t.keyio → exec .setKey u = .next v →
      v.ke = s.ke ∧ v.kt = s.kt

/-- 43_key_state.md R205: `CLEAR_KEY` is idempotent, and a `KEY_NZ` after it clears `KNZ`. -/
def Obligations.ClearKeyIsIdempotent : Prop :=
  ∀ s t u v : State, exec .clearKey s = .next t → exec .clearKey t = .next u → exec .keyNz u = .next v →
    u.ke = t.ke ∧ u.kt = t.kt ∧ u.keyio = t.keyio ∧ t.ke = 0 ∧ t.kt = 0 ∧ t.keyio = 0 ∧ v.status.knz = false

/-! ### Encrypted block translator -/

/-- 42_translator.md R161: a length of zero, then a range past 2^32, ends the command before any raw access. -/
def Obligations.RangeChecksComeFirst : Prop :=
  ∀ (s : State) (i : Instr), i = .encWrite ∨ i = .encRead → s.stage = .start → ¬s.rangeOk →
    ∃ t, exec i s = .next t ∧
      CompletedErr (if s.len.toNat = 0 then .zeroLen else .range) 0 s t ∧ t.status.knz = s.status.knz ∧
      KeysKept s t ∧ OperandsKept s t ∧ t.dout = s.dout ∧ t.keyio = s.keyio ∧ t.databuf = s.databuf ∧ t.ks = s.ks ∧
      StoreUntouched s t ∧ OutsideKept s t

/-- 42_translator.md R162: the block range of a range that passes the checks, and its bound of 17 blocks, which only a
length of 242 or more reaches. -/
def Obligations.BlockRangeOfACommand : Prop :=
  ∀ s : State, s.rangeOk →
    s.firstBlock.toNat = s.address / 16 * 16 ∧ s.lastBlock.toNat = (s.address + s.length - 1) / 16 * 16 ∧
      s.firstOffset.toNat = s.address % 16 ∧ s.firstBlock.toNat ≤ s.lastBlock.toNat ∧
      (s.lastBlock.toNat - s.firstBlock.toNat) / 16 + 1 ≤ 17 ∧
      ((s.lastBlock.toNat - s.firstBlock.toNat) / 16 + 1 = 17 → 242 ≤ s.length) ∧
      (s.firstOffset.toNat = 15 → s.length = 255 → (s.lastBlock.toNat - s.firstBlock.toNat) / 16 + 1 = 17)

/-- 42_translator.md R164, R165: the tweak value of block `b` is `b` as a 128-bit number; distinct blocks have distinct
tweak values. R165, R168, R170: with `seq` 1 the mask of block `b` is one doubling of `BC_ENC(Kt, n_b)`, and the
translator encrypts and decrypts the block under `Ke` with that mask. -/
def Obligations.TweakIsTheBlockAddress : Prop :=
  (∀ b : Word, ∀ i < 16, byteAt (tweakOf b) i = if i < 4 then byteAt b i else 0) ∧
    (∀ b : Word, (tweakOf b).toNat = b.toNat) ∧ (∀ b b' : Word, tweakOf b = tweakOf b' → b = b') ∧
    ∀ (s : State) (b : Word) (mask : Block), mask = dbl (bcEnc s.params.cipher s.kt (tweakOf b)) →
      xexMask s.params.cipher s.kt (tweakOf b) Config.xlateSeq = mask ∧
        (∀ p : Block, blockEncrypt s b p = bcEnc s.params.cipher s.ke (p ^^^ mask) ^^^ mask) ∧
        ∀ d : Block, blockDecrypt s b d = bcDec s.params.cipher s.ke (d ^^^ mask) ^^^ mask

/-- 42_translator.md R170, R171: `ENC_WRITE` of a range that passes the checks and lies inside the store completes when
the store answers every request with success: every touched block is rewritten, everything else is as before. -/
def Obligations.EncWriteCompletes : Prop :=
  ∀ s : State, s.stage = .start → s.rangeOk → Memory.wf s.sm = true →
    (s.address + s.length - 1) / 16 * 16 + 16 ≤ s.params.storeMax → s.scriptedOk (2 * s.blockCount) →
    ∃ t, exec .encWrite s = .next t ∧ CompletedOk s t ∧ WroteRange s t ∧ t.status.knz = s.status.knz ∧
      t.traffic = s.traffic ++ s.writePlan

/-- 42_translator.md R172, R173: `ENC_READ` of a range that passes the checks and lies inside the store completes when
the store answers every request with success: the caller's buffer holds the plaintext of the range. -/
def Obligations.EncReadCompletes : Prop :=
  ∀ s : State, s.stage = .start → s.rangeOk →
    (s.address + s.length - 1) / 16 * 16 + 16 ≤ s.params.storeMax → s.scriptedOk s.blockCount →
    ∃ t, exec .encRead s = .next t ∧ CompletedOk s t ∧ ReadRange s t ∧ t.status.knz = s.status.knz ∧
      t.traffic = s.traffic ++ s.readPlan

/-- 42_translator.md R171: the net effect of an `ENC_WRITE` that ends without an error, however the store answers: every
touched block is rewritten and every other byte is as before; in plaintext, `[address, address + length)` holds the
caller's bytes and the decrypted content of every other address is as before. That a range not inside the store cannot
end without an error rests on the spec's assumption D39 (20_memory.md R69, log entry 5). -/
def Obligations.EncWriteNetEffect : Prop :=
  ∀ s t : State, s.stage = .start → Memory.wf s.sm = true → exec .encWrite s = .next t → t.status.eclass = .none →
    WroteRange s t ∧
      ∀ a < 2 ^ 32, (s.inRange a → t.plainByte a = s.callerByte (a - s.address)) ∧
        (¬s.inRange a → t.plainByte a = s.plainByte a)

/-- 42_translator.md R173: the net effect of an `ENC_READ` that ends without an error, however the store answers. -/
def Obligations.EncReadNetEffect : Prop :=
  ∀ s t : State, s.stage = .start → exec .encRead s = .next t → t.status.eclass = .none → ReadRange s t

/-- 42_translator.md R173: read-your-write. After an `ENC_WRITE` without error, an `ENC_READ` without error of the same
range under the same key and store finds the bytes written, whatever stood in the buffer between the two. For a range
not inside the store it rests on D39 (log entry 5). -/
def Obligations.ReadYourWrite : Prop :=
  ∀ s t u v : State, s.stage = .start → Memory.wf s.sm = true → exec .encWrite s = .next t →
    t.status.eclass = .none → u.stage = .start → u.addr = t.addr → u.len = t.len → u.ke = t.ke → u.kt = t.kt →
    u.params = t.params → u.sm = t.sm → exec .encRead u = .next v → v.status.eclass = .none →
    ∀ j < s.length, bufByte v.databuf j = bufByte s.databuf j

/-- 42_translator.md R167, R174, 60_exceptions.md R222, R224: a raw error of an `ENC_WRITE` names one touched block:
the blocks before it are rewritten and not rolled back, those after it untouched, and so is the block itself after a
read error; `RAWSTAT` is the failing access's status, an error, and that access is the last one on the port. For a range
not inside the store it rests on D39 (log entry 5). -/
def Obligations.EncWriteRawErrorIsPreciseAtABlock : Prop :=
  ∀ s t : State, s.stage = .start → Memory.wf s.sm = true → exec .encWrite s = .next t →
    t.status.eclass = .rawRead ∨ t.status.eclass = .rawWrite →
    ∃ b : Nat, s.touches b ∧ CompletedErr t.status.eclass t.rawstat s t ∧ t.rawstat ≠ s.params.rawOk ∧
      (∀ c < b, s.touches c → readBlock t.sm c = s.rewritten c) ∧
      (∀ a, (a < s.address / 16 * 16 ∨ b + 16 ≤ a) → readByte t.sm a = readByte s.sm a) ∧
      (t.status.eclass = .rawRead → readBlock t.sm b = readBlock s.sm b) ∧
      t.rawLog.getLast? = some
        { isWrite := decide (t.status.eclass = .rawWrite), block := BitVec.ofNat 32 b, status := t.rawstat }

/-- 42_translator.md R172 (after an error), 60_exceptions.md R224: after a raw read error at block `b` the caller's
buffer holds the plaintext of the range before `b`, and is otherwise unchanged. -/
def Obligations.EncReadRawErrorKeepsWhatWasCopied : Prop :=
  ∀ s t : State, s.stage = .start → exec .encRead s = .next t → t.status.eclass = .rawRead →
    ∃ b : Nat, s.touches b ∧ CompletedErr .rawRead t.rawstat s t ∧ t.rawstat ≠ s.params.rawOk ∧
      (∀ j < 256, bufByte t.databuf j =
        if j < b - s.address then s.plainByte (s.address + j) else bufByte s.databuf j) ∧
      t.rawLog.getLast? = some { isWrite := false, block := BitVec.ofNat 32 b, status := t.rawstat }

/-- 20_memory.md R79, 42_translator.md R163, R166: the raw accesses of a translator command are a prefix of its plan
(each block in increasing order, read before write), and the whole plan when it ends without an error. -/
def Obligations.RawAccessesFollowThePlan : Prop :=
  ∀ s t : State, s.stage = .start → s.rangeOk →
    (exec .encWrite s = .next t → ∃ n ≤ s.writePlan.length, t.traffic = s.traffic ++ s.writePlan.take n ∧
      (t.status.eclass = .none → n = s.writePlan.length)) ∧
    (exec .encRead s = .next t → ∃ n ≤ s.readPlan.length, t.traffic = s.traffic ++ s.readPlan.take n ∧
      (t.status.eclass = .none → n = s.readPlan.length))

/-- 30_encoding.md R94, 60_exceptions.md R223: what an `ENC_WRITE` leaves alone, from every state and however it
ends. -/
def Obligations.EncWriteFrame : Prop :=
  ∀ s t : State, exec .encWrite s = .next t → KeysKept s t ∧ OperandsKept s t ∧ t.dout = s.dout ∧
    t.keyio = s.keyio ∧ t.databuf = s.databuf ∧ t.status.knz = s.status.knz ∧ t.status.ign = s.status.ign ∧
    OutsideKept s t

/-- 42_translator.md R172, 30_encoding.md R94: what an `ENC_READ` leaves alone, from every state and however it ends:
it never writes the raw store, nor the buffer past `LEN`. -/
def Obligations.EncReadFrame : Prop :=
  ∀ s t : State, exec .encRead s = .next t → KeysKept s t ∧ OperandsKept s t ∧ t.dout = s.dout ∧
    t.keyio = s.keyio ∧ t.status.knz = s.status.knz ∧ t.status.ign = s.status.ign ∧ OutsideKept s t ∧
    (∀ a, readByte t.sm a = readByte s.sm a) ∧
    (∀ j < 256, s.length ≤ j → bufByte t.databuf j = bufByte s.databuf j)

/-- 42_translator.md R164, R165 (`TWEAK` and `SEQ`), 30_encoding.md R94 (`DIN` and `DOUT`): a translator command neither
reads nor writes these four registers: with other values there it does the same. -/
def Obligations.TranslatorIgnoresTheXexRegisters : Prop :=
  ∀ (s t : State) (i : Instr) (n : Block) (q : Word) (d o : Block), i = .encWrite ∨ i = .encRead →
    exec i s = .next t →
    exec i { s with tweak := n, seq := q, din := d, dout := o } =
      .next { t with tweak := n, seq := q, din := d, dout := o }

/-- 20_memory.md R69: a request for a block that lies beyond the store is answered with an error status, and nothing
else is constrained: inside the store any status is possible, beyond it any error status. The first clause is the spec's
own assumption D39 (93_implementation_defined.md U21), not a fact about every store; that an answer is the head of a
script is the model's form (log entry 5). -/
def Obligations.RequestsBeyondTheStoreFail : Prop :=
  (∀ (s : State) (b : Word), s.params.storeMax < b.toNat + 16 → s.answerStatus b ≠ s.params.rawOk) ∧
    ∀ (s : State) (b st : Word), b.toNat + 16 ≤ s.params.storeMax ∨ st ≠ s.params.rawOk →
      ∃ x : RawAnswer, ({ s with answers := x :: s.answers } : State).answerStatus b = st

/-! ### Whole-machine rules -/

/-- 30_encoding.md R104: every command, started, completes, with at most 34 raw accesses. -/
def Obligations.EveryCommandCompletes : Prop :=
  ∀ (i : Instr) (s : State), s.stage = .start →
    ∃ t, exec i s = .next t ∧ t.phase = .idle ∧ t.status.done = true ∧
      ∃ l, t.rawLog = s.rawLog ++ l ∧ l.length ≤ (if i = .encWrite then 34 else if i = .encRead then 17 else 0)

/-- 30_encoding.md R102: one core step of a command makes exactly one raw access, or makes none and ends the command,
and a command run to completion is its core steps one after another, ending with the first that leaves the core idle: so
a reset or a host access between two of them finds a state of the same run. At most 35 steps is the model's bound for
every state at all (log entry 17). -/
def Obligations.ACommandIsItsCoreSteps : Prop :=
  (∀ (i : Instr) (s : State), (∃ x, (afterOne i s).rawLog = s.rawLog ++ [x]) ∨
      (afterOne i s).rawLog = s.rawLog ∧ (afterOne i s).phase = .idle) ∧
    ∀ (i : Instr) (s t : State), exec i s = .next t →
      ∃ n ≤ 35, (afterOne i)^[n] s = t ∧ (s.phase = .busy → ∀ m < n, ((afterOne i)^[m] s).phase = .busy)

/-- 60_exceptions.md R221, R225: which error classes a command can end with: none but the translator's commands fail,
and `ENC_READ` never ends with `RAW_WRITE`. -/
def Obligations.ErrorClassesOfEachCommand : Prop :=
  ∀ (i : Instr) (s t : State), s.stage = .start → exec i s = .next t →
    (t.status.eclass = .none ∧ t.status.err = false ∨
      (i = .encWrite ∨ i = .encRead) ∧ t.status.err = true ∧ t.status.eclass ≠ .none ∧
        t.status.eclass ≠ .illegalCmd ∧ (i = .encRead → t.status.eclass ≠ .rawWrite))

/-- The raw store's contents stay canonical and inside the store (20_memory.md R55, R68, R76; the form is the
model's). -/
def Obligations.StoreStaysWellFormed : Prop :=
  ∀ s t : State, StoreInv s → step s = .next t → StoreInv t

/-- 41_xex.md R145, 43_key_state.md R201: the key-schedule cache never holds schedules of another key. -/
def Obligations.CacheIsNeverStale : Prop :=
  ∀ s t : State, CacheInv s → step s = .next t → CacheInv t

/-- 10_state.md R25, R27, R44, 60_exceptions.md R222: `STATUS`, `RAWSTAT`, scratch and the command state stay
consistent. -/
def Obligations.StatusStaysConsistent : Prop :=
  ∀ s t : State, StatusInv s → step s = .next t → StatusInv t

/-- 10_state.md R43, 42_translator.md R162, R163: while a translator command runs, its iterator stays on the blocks of
its range and agrees with how many caller bytes were transferred. -/
def Obligations.IteratorStaysOnTheRange : Prop :=
  ∀ s t : State, IteratorInv s → step s = .next t → IteratorInv t

/-- The invariants hold after reset. -/
def Obligations.InvariantsHoldAtReset : Prop :=
  StoreInv State.reset ∧ CacheInv State.reset ∧ StatusInv State.reset ∧ IteratorInv State.reset

/-- 00_scope.md R9, R10: no step changes a parameter. -/
def Obligations.ParametersAreFixed : Prop :=
  ∀ s t : State, step s = .next t → t.params = s.params

/-- 10_state.md R21: the key state changes only by `SET_KEY`, `CLEAR_KEY` and reset: any other step leaves it, a host
access among them. -/
def Obligations.OnlyKeyCommandsAndResetChangeTheKey : Prop :=
  ∀ s t : State, step s = .next t → (t.ke ≠ s.ke ∨ t.kt ≠ s.kt) →
    (∃ f rest, s.events = .reset f :: rest) ∨ s.phase = .busy ∧ (s.op = encode .setKey ∨ s.op = encode .clearKey)

/-- 10_state.md R36, 20_memory.md R64: `ADDR`, `LEN`, `SEQ`, `TWEAK` and `DIN` change only by a host write while idle,
or by reset. -/
def Obligations.OnlyIdleHostWritesAndResetChangeOperands : Prop :=
  ∀ s t : State, step s = .next t → ¬OperandsKept s t →
    (∃ f rest, s.events = .reset f :: rest) ∨
      s.phase = .idle ∧ ∃ off w rest, s.events = .write off 4 w :: rest ∧ 0x00C ≤ off ∧ off ≤ 0x03C

/-- 20_memory.md R55, R67: the raw store's bytes change only while an `ENC_WRITE` runs (or is abandoned by a reset). -/
def Obligations.OnlyEncWriteChangesTheStore : Prop :=
  ∀ s t : State, IteratorInv s → step s = .next t → (∃ a, readByte t.sm a ≠ readByte s.sm a) →
    s.phase = .busy ∧ s.op = encode .encWrite
end

