-- ==== Sys2Proof/Laws/Bytes.lean ====
section
/-! SUPPORT. Byte arrays: reading back what was put in, and equality byte by byte (00_scope.md R11,
20_memory.md R62). -/

namespace Sys2Proof.Machine

theorem getLsbD_ofBytes (n : Nat) (f : Nat → Byte) (i : Nat) :
    (ofBytes n f).getLsbD i = (decide (i < 8 * n) && (f (i / 8)).getLsbD (i % 8)) := by
  induction n with
  | zero => simp [ofBytes]
  | succ n ih =>
    rw [ofBytes, BitVec.getLsbD_cast, BitVec.getLsbD_append, ih]
    by_cases h : i < 8 * n
    · simp [h, show i < 8 * (n + 1) by omega]
    · by_cases h' : i < 8 * (n + 1)
      · have h1 : i / 8 = n := by omega
        have h2 : i - 8 * n = i % 8 := by omega
        simp [h, h', h1, h2]
      · simp [h, h', BitVec.getLsbD_of_ge _ _ (show 8 ≤ i - 8 * n by omega)]

theorem getLsbD_byteAt {w : Nat} (x : BitVec w) (i k : Nat) :
    (byteAt x i).getLsbD k = (decide (k < 8) && x.getLsbD (8 * i + k)) := by
  simp [byteAt, BitVec.getLsbD_extractLsb']

theorem getLsbD_wordAt {w : Nat} (x : BitVec w) (i k : Nat) :
    (wordAt x i).getLsbD k = (decide (k < 32) && x.getLsbD (32 * i + k)) := by
  simp [wordAt, BitVec.getLsbD_extractLsb']

/-- Byte `i` of the array of the bytes `f` is `f i`. -/
theorem byteAt_ofBytes (n : Nat) (f : Nat → Byte) (i : Nat) (h : i < n) : byteAt (ofBytes n f) i = f i := by
  apply BitVec.eq_of_getLsbD_eq
  intro k hk
  rw [getLsbD_byteAt, getLsbD_ofBytes]
  have h1 : (8 * i + k) / 8 = i := by omega
  have h2 : (8 * i + k) % 8 = k := by omega
  simp [h1, h2, hk, show 8 * i + k < 8 * n by omega]

@[simp] theorem byteAt_blockOf (f : Nat → Byte) {i : Nat} (h : i < 16) : byteAt (blockOf f) i = f i :=
  byteAt_ofBytes 16 f i h

@[simp] theorem byteAt_blobOf (f : Nat → Byte) {i : Nat} (h : i < 32) : byteAt (blobOf f) i = f i :=
  byteAt_ofBytes 32 f i h

@[simp] theorem byteAt_wordOf (f : Nat → Byte) {i : Nat} (h : i < 4) : byteAt (wordOf f) i = f i :=
  byteAt_ofBytes 4 f i h

/-- Two arrays of `n` bytes with the same bytes are equal. -/
theorem bytes_ext {n : Nat} {x y : BitVec (8 * n)} (h : ∀ i < n, byteAt x i = byteAt y i) : x = y := by
  apply BitVec.eq_of_getLsbD_eq
  intro k hk
  have hb : (byteAt x (k / 8)).getLsbD (k % 8) = (byteAt y (k / 8)).getLsbD (k % 8) := by
    rw [h (k / 8) (by omega)]
  simpa only [getLsbD_byteAt, show k % 8 < 8 by omega, show 8 * (k / 8) + k % 8 = k by omega, decide_true,
    Bool.true_and] using hb

theorem block_ext {x y : Block} (h : ∀ i < 16, byteAt x i = byteAt y i) : x = y := bytes_ext (n := 16) h

theorem blob_ext {x y : KeyBlob} (h : ∀ i < 32, byteAt x i = byteAt y i) : x = y := bytes_ext (n := 32) h

theorem word_ext {x y : Word} (h : ∀ i < 4, byteAt x i = byteAt y i) : x = y := bytes_ext (n := 4) h

theorem blockOf_byteAt (x : Block) : blockOf (byteAt x) = x := block_ext fun i h => by simp [h]

theorem blockOf_congr {f g : Nat → Byte} (h : ∀ i < 16, f i = g i) : blockOf f = blockOf g :=
  block_ext fun i hi => by simp [hi, h i hi]

@[simp] theorem byteAt_xor {w : Nat} (x y : BitVec w) (i : Nat) : byteAt (x ^^^ y) i = byteAt x i ^^^ byteAt y i := by
  apply BitVec.eq_of_getLsbD_eq
  intro k hk
  simp only [getLsbD_byteAt, BitVec.getLsbD_xor, hk, decide_true, Bool.true_and]

@[simp] theorem byteAt_zero {w : Nat} (i : Nat) : byteAt (0#w) i = 0 := by
  simp [byteAt]

/-- What `B[i] <- v` leaves in byte `k`. -/
theorem byteAt_setByte (x : Block) (i k : Nat) (v : Byte) (h : k < 16) :
    byteAt (setByte x i v) k = if k = i then v else byteAt x k := by
  simp [setByte, h]

/-- What a host write of word `k` leaves in byte `i` of a 16-byte register (R62). -/
theorem byteAt_setWord (x : Block) (k i : Nat) (w : Word) (h : i < 16) :
    byteAt (setWord x k w) i = if i / 4 = k then byteAt w (i % 4) else byteAt x i := by
  simp [setWord, h]

/-- What a host write of word `k` leaves in byte `i` of the key blob (R62). -/
theorem byteAt_setBlobWord (x : KeyBlob) (k i : Nat) (w : Word) (h : i < 32) :
    byteAt (setBlobWord x k w) i = if i / 4 = k then byteAt w (i % 4) else byteAt x i := by
  simp [setBlobWord, h]

/-- What `DATABUF[j] <- x` leaves in byte `k` (R35). -/
theorem bufByte_bufSetByte (v : Vector Byte 256) (j k : Nat) (x : Byte) (h : j < 256) :
    bufByte (bufSetByte v j x) k = if k = j then x else bufByte v k := by
  by_cases hk : k = j
  · subst hk
    simp [bufByte, bufSetByte, Vector.getD, h]
  · simp only [bufByte, bufSetByte, hk, if_false]
    by_cases hk2 : k < 256
    · simp [Vector.getD, hk2, Ne.symm hk]
    · simp [Vector.getD, hk2]

/-- The caller's buffer is its bytes. -/
theorem buf_ext {u v : Vector Byte 256} (h : ∀ j < 256, bufByte u j = bufByte v j) : u = v := by
  apply Vector.ext
  intro i hi
  simpa [bufByte, Vector.getD, hi] using h i hi

end Sys2Proof.Machine
end

