-- ==== Sys2Proof/Laws/Cipher.lean ====
section
/-! SUPPORT. R12's one law for every primitive a state can name: `BC_DEC(K, BC_ENC(K, X)) = X`. -/

namespace Sys2Proof.Machine

theorem revBytes_revBytes (x : Block) : revBytes (revBytes x) = x :=
  block_ext fun i hi => by
    rw [revBytes, byteAt_blockOf _ hi, revBytes, byteAt_blockOf _ (by omega), show 15 - (15 - i) = i by omega]

theorem toyDecrypt_toyEncrypt (k x : Block) : toyDecrypt k (toyEncrypt k x) = x := by
  rw [toyDecrypt, toyEncrypt, BitVec.xor_assoc, BitVec.xor_self, BitVec.xor_zero, revBytes_revBytes]

theorem aesInvSBox_aesSBox (x : Byte) : aesInvSBox (aesSBox x) = x := by
  revert x
  decide +kernel

theorem aesInvSubBytes_aesSubBytes (s : Block) : aesInvSubBytes (aesSubBytes s) = s :=
  block_ext fun i hi => by
    rw [aesInvSubBytes, byteAt_blockOf _ hi, aesSubBytes, byteAt_blockOf _ hi, aesInvSBox_aesSBox]

theorem aesInvShiftRows_aesShiftRows (s : Block) : aesInvShiftRows (aesShiftRows s) = s :=
  block_ext fun i hi => by
    rw [aesInvShiftRows, byteAt_blockOf _ hi, aesShiftRows, byteAt_blockOf _ (by omega)]
    congr 1
    omega

theorem aesXtime_xor (a b : Byte) : aesXtime (a ^^^ b) = aesXtime a ^^^ aesXtime b := by
  simp only [aesXtime, BitVec.getLsbD_xor]
  cases a.getLsbD 7 <;> cases b.getLsbD 7 <;>
    (apply BitVec.eq_of_getLsbD_eq; intro i hi; simp; try grind)

theorem aesMul_xor (c : BitVec 4) (a b : Byte) : aesMul c (a ^^^ b) = aesMul c a ^^^ aesMul c b := by
  simp only [aesMul, aesXtime_xor]
  cases c.getLsbD 0 <;> cases c.getLsbD 1 <;> cases c.getLsbD 2 <;> cases c.getLsbD 3 <;> simp <;> ac_rfl

/-- The products of the two matrices' entries: 1 on the diagonal, 0 elsewhere. -/
theorem aesMix_entries (a : Byte) :
    aesMul 14 (aesMul 2 a) ^^^ aesMul 11 (aesMul 1 a) ^^^ aesMul 13 (aesMul 1 a) ^^^ aesMul 9 (aesMul 3 a) = a ∧
    aesMul 14 (aesMul 3 a) ^^^ aesMul 11 (aesMul 2 a) ^^^ aesMul 13 (aesMul 1 a) ^^^ aesMul 9 (aesMul 1 a) = 0 ∧
    aesMul 14 (aesMul 1 a) ^^^ aesMul 11 (aesMul 3 a) ^^^ aesMul 13 (aesMul 2 a) ^^^ aesMul 9 (aesMul 1 a) = 0 ∧
    aesMul 14 (aesMul 1 a) ^^^ aesMul 11 (aesMul 1 a) ^^^ aesMul 13 (aesMul 3 a) ^^^ aesMul 9 (aesMul 2 a) = 0 := by
  revert a
  decide +kernel

theorem aesInvMixColumns_aesMixColumns (s : Block) : aesInvMixColumns (aesMixColumns s) = s :=
  block_ext fun i hi => by
    have hm : ∀ j < 16, byteAt (aesMixColumns s) j =
        aesMul 2 (byteAt s j) ^^^ aesMul 3 (byteAt s (4 * (j / 4) + (j + 1) % 4)) ^^^
          aesMul 1 (byteAt s (4 * (j / 4) + (j + 2) % 4)) ^^^ aesMul 1 (byteAt s (4 * (j / 4) + (j + 3) % 4)) :=
      fun j hj => by rw [aesMixColumns, aesMix, byteAt_blockOf _ hj]
    rw [aesInvMixColumns, aesMix, byteAt_blockOf _ hi, hm i hi, hm _ (by omega), hm _ (by omega), hm _ (by omega)]
    generalize h0 : byteAt s i = a0
    generalize h1 : byteAt s (4 * (i / 4) + (i + 1) % 4) = a1
    generalize h2 : byteAt s (4 * (i / 4) + (i + 2) % 4) = a2
    generalize h3 : byteAt s (4 * (i / 4) + (i + 3) % 4) = a3
    have e : ∀ j k, (4 * ((4 * (i / 4) + (i + j) % 4) / 4) + (4 * (i / 4) + (i + j) % 4 + k) % 4)
        = 4 * (i / 4) + (i + (j + k)) % 4 := by intro j k; omega
    have e4 : 4 * (i / 4) + (i + 4) % 4 = i := by omega
    have e5 : 4 * (i / 4) + (i + 5) % 4 = 4 * (i / 4) + (i + 1) % 4 := by omega
    have e6 : 4 * (i / 4) + (i + 6) % 4 = 4 * (i / 4) + (i + 2) % 4 := by omega
    simp only [e, Nat.reduceAdd, e4, e5, e6, h0, h1, h2, h3, aesMul_xor]
    obtain ⟨p0, -, -, -⟩ := aesMix_entries a0
    obtain ⟨-, p1, -, -⟩ := aesMix_entries a1
    obtain ⟨-, -, p2, -⟩ := aesMix_entries a2
    obtain ⟨-, -, -, p3⟩ := aesMix_entries a3
    calc _ = (aesMul 14 (aesMul 2 a0) ^^^ aesMul 11 (aesMul 1 a0) ^^^ aesMul 13 (aesMul 1 a0) ^^^
            aesMul 9 (aesMul 3 a0)) ^^^
          (aesMul 14 (aesMul 3 a1) ^^^ aesMul 11 (aesMul 2 a1) ^^^ aesMul 13 (aesMul 1 a1) ^^^
            aesMul 9 (aesMul 1 a1)) ^^^
          (aesMul 14 (aesMul 1 a2) ^^^ aesMul 11 (aesMul 3 a2) ^^^ aesMul 13 (aesMul 2 a2) ^^^
            aesMul 9 (aesMul 1 a2)) ^^^
          (aesMul 14 (aesMul 1 a3) ^^^ aesMul 11 (aesMul 1 a3) ^^^ aesMul 13 (aesMul 3 a3) ^^^
            aesMul 9 (aesMul 2 a3)) := by ac_rfl
      _ = a0 := by rw [p0, p1, p2, p3]; simp

theorem aesInvRounds_aesRounds (ks : List Block) (s : Block) : aesInvRounds ks (aesRounds ks s) = s := by
  induction ks generalizing s with
  | nil => rfl
  | cons k ks ih =>
    cases ks with
    | nil =>
      rw [aesRounds, aesInvRounds, BitVec.xor_assoc, BitVec.xor_self, BitVec.xor_zero, aesInvShiftRows_aesShiftRows,
        aesInvSubBytes_aesSubBytes]
    | cons k' ks =>
      rw [aesRounds, aesInvRounds, ih, BitVec.xor_assoc, BitVec.xor_self, BitVec.xor_zero,
        aesInvMixColumns_aesMixColumns, aesInvShiftRows_aesShiftRows, aesInvSubBytes_aesSubBytes]

theorem aesDecrypt_aesEncrypt (k x : Block) : aesDecrypt k (aesEncrypt k x) = x := by
  rw [aesDecrypt, aesEncrypt, aesInvRounds_aesRounds, BitVec.xor_assoc, BitVec.xor_self, BitVec.xor_zero]

/-- R12's law, for every primitive. -/
theorem bcDec_bcEnc (c : Cipher) (k x : Block) : bcDec c k (bcEnc c k x) = x := by
  cases c with
  | parameter => exact (Config.blockCipher k).symm_apply_apply x
  | aes128 => exact aesDecrypt_aesEncrypt k x
  | toy => exact toyDecrypt_toyEncrypt k x

/-- R147's derivation: encryption is injective on a finite set, so decryption is its inverse on both sides. -/
theorem bcEnc_bcDec (c : Cipher) (k y : Block) : bcEnc c k (bcDec c k y) = y := by
  have hf : Finite Block := Finite.of_injective (fun x : Block => x.toFin) BitVec.toFin_injective
  have hs : Function.Surjective (bcEnc c k) :=
    Finite.injective_iff_surjective.mp (Function.LeftInverse.injective (bcDec_bcEnc c k))
  obtain ⟨x, rfl⟩ := hs y
  rw [bcDec_bcEnc]

end Sys2Proof.Machine
end

