-- ==== Sys2Proof/Laws/Memory.lean ====
section
/-! SUPPORT. Raw store contents (20_memory.md R68, R71, R76): what a read after a write gives, and that every operation
keeps the canonical form. -/

namespace Sys2Proof.Machine

/-- An address below every listed one reads as an unlisted byte. -/
theorem readByte_below {m : Memory} {lo a : Nat} (h : Memory.wfFrom lo m) (ha : a < lo) :
    readByte m a = unlistedByte := by
  induction m generalizing lo with
  | nil => rfl
  | cons c rest ih =>
    obtain ⟨k, v⟩ := c
    simp only [Memory.wfFrom, Bool.and_eq_true, decide_eq_true_eq] at h
    rw [readByte, if_neg (by omega), ih h.2 (by omega)]

theorem wfFrom_mono {m : Memory} {lo lo' : Nat} (h : Memory.wfFrom lo m) (hl : lo' ≤ lo) : Memory.wfFrom lo' m := by
  cases m with
  | nil => rfl
  | cons c rest =>
    obtain ⟨k, v⟩ := c
    simp only [Memory.wfFrom, Bool.and_eq_true, decide_eq_true_eq] at h ⊢
    exact ⟨⟨by omega, h.1.2⟩, h.2⟩

theorem wfFrom_writeByte {m : Memory} {lo a : Nat} (x : Byte) (h : Memory.wfFrom lo m) (ha : lo ≤ a) :
    Memory.wfFrom lo (writeByte m a x) := by
  induction m generalizing lo with
  | nil =>
    rw [writeByte]
    split
    · rfl
    · next hx => simp [Memory.wfFrom, ha, hx]
  | cons c rest ih =>
    obtain ⟨k, v⟩ := c
    simp only [Memory.wfFrom, Bool.and_eq_true, decide_eq_true_eq, bne_iff_ne, ne_eq] at h
    obtain ⟨⟨hk, hv⟩, hr⟩ := h
    rw [writeByte]
    split_ifs with h1 h2 h3 h4
    · simp [Memory.wfFrom, hk, hv, hr]
    · have : Memory.wfFrom (a + 1) ((k, v) :: rest) := by simp [Memory.wfFrom, hv, hr]; omega
      simp only [Memory.wfFrom, Bool.and_eq_true, decide_eq_true_eq, bne_iff_ne, ne_eq] at this ⊢
      exact ⟨⟨ha, h2⟩, this⟩
    · exact wfFrom_mono hr (by omega)
    · simp [Memory.wfFrom, hk, h4, h3, hr]
    · simp only [Memory.wfFrom, Bool.and_eq_true, decide_eq_true_eq, bne_iff_ne, ne_eq]
      exact ⟨⟨hk, hv⟩, ih hr (by omega)⟩

/-- Writing a byte keeps the canonical form. -/
theorem wf_writeByte {m : Memory} (a : Nat) (x : Byte) (h : Memory.wf m) : Memory.wf (writeByte m a x) :=
  wfFrom_writeByte x h (Nat.zero_le a)

@[simp] theorem readByte_cons (k : Nat) (v : Byte) (m : Memory) (a : Nat) :
    readByte ((k, v) :: m) a = if k = a then v else readByte m a := rfl

/-- A read after a write: the byte written, and every other byte as before. -/
theorem readByte_writeByte {m : Memory} {lo : Nat} (a a' : Nat) (x : Byte) (h : Memory.wfFrom lo m) :
    readByte (writeByte m a x) a' = if a' = a then x else readByte m a' := by
  induction m generalizing lo with
  | nil =>
    by_cases hx : x = unlistedByte
    · simp only [writeByte, readByte, hx, if_true, ite_self]
    · simp only [writeByte, if_neg hx, readByte, eq_comm]
  | cons c rest ih =>
    obtain ⟨k, v⟩ := c
    have h' : Memory.wfFrom (k + 1) rest := by
      simp only [Memory.wfFrom, Bool.and_eq_true] at h; exact h.2
    rcases Nat.lt_trichotomy a k with hak | rfl | hak
    · have hb : readByte ((k, v) :: rest) a = unlistedByte := by
        rw [readByte_cons, if_neg (by omega), readByte_below h' (by omega)]
      by_cases hx : x = unlistedByte
      · rw [writeByte, if_pos hak, if_pos hx]
        split_ifs with ha
        · rw [ha, hb, hx]
        · rfl
      · rw [writeByte, if_pos hak, if_neg hx, readByte_cons]
        simp only [eq_comm]
    · rw [writeByte, if_neg (by omega), if_pos rfl]
      by_cases hx : x = unlistedByte
      · rw [if_pos hx]
        split_ifs with ha
        · rw [ha, hx, readByte_below h' (by omega)]
        · rw [readByte_cons, if_neg (Ne.symm ha)]
      · rw [if_neg hx, readByte_cons, readByte_cons]
        split_ifs with h1 h2 h3 <;> first | rfl | omega
    · rw [writeByte, if_neg (by omega), if_neg (by omega), readByte_cons, readByte_cons, ih h']
      split_ifs <;> first | rfl | omega

theorem inside_writeByte {m : Memory} {size a : Nat} (x : Byte) (h : Memory.inside size m) (ha : a < size) :
    Memory.inside size (writeByte m a x) := by
  induction m with
  | nil =>
    rw [writeByte]
    split_ifs <;> simp [Memory.inside, ha]
  | cons c rest ih =>
    obtain ⟨k, v⟩ := c
    simp only [Memory.inside, List.all_cons, Bool.and_eq_true, decide_eq_true_eq] at h ih
    rw [writeByte]
    split_ifs <;> simp [Memory.inside, h.1, ha] <;> first
      | simpa using h.2
      | simpa using ih h.2

/-- A run of byte writes: the bytes of those addresses below `size`, and every other byte as before. -/
theorem readByte_writeBytes {size : Nat} {m : Memory} (b : Nat) (d : Block) (n a : Nat) (h : Memory.wf m) :
    Memory.wf (writeBytes size m b d n) ∧
      readByte (writeBytes size m b d n) a =
        if b ≤ a ∧ a < b + n ∧ a < size then byteAt d (a - b) else readByte m a := by
  induction n with
  | zero => exact ⟨h, by simp [writeBytes]; omega⟩
  | succ n ih =>
    rw [writeBytes]
    by_cases hs : b + n < size
    · rw [if_pos hs]
      refine ⟨wf_writeByte _ _ ih.1, ?_⟩
      rw [readByte_writeByte _ _ _ ih.1, ih.2]
      by_cases ha : a = b + n
      · subst ha
        rw [if_pos rfl, if_pos (by omega)]
        simp
      · rw [if_neg ha]
        split_ifs <;> first | rfl | omega
    · rw [if_neg hs]
      refine ⟨ih.1, ?_⟩
      rw [ih.2]
      split_ifs <;> first | rfl | omega

/-- Writing a block keeps the canonical form. -/
theorem wf_writeBlock {size : Nat} {m : Memory} (b : Nat) (d : Block) (h : Memory.wf m) :
    Memory.wf (writeBlock size m b d) := (readByte_writeBytes b d 16 0 h).1

/-- What a block write leaves at each address (R68, R76). -/
theorem readByte_writeBlock {size : Nat} {m : Memory} (b : Nat) (d : Block) (a : Nat) (h : Memory.wf m) :
    readByte (writeBlock size m b d) a =
      if b ≤ a ∧ a < b + 16 ∧ a < size then byteAt d (a - b) else readByte m a :=
  (readByte_writeBytes b d 16 a h).2

/-- Writing a block lists no byte outside the store. -/
theorem inside_writeBlock {size : Nat} {m : Memory} (b : Nat) (d : Block) (h : Memory.inside size m) :
    Memory.inside size (writeBlock size m b d) := by
  have : ∀ n, Memory.inside size (writeBytes size m b d n) := by
    intro n
    induction n with
    | zero => exact h
    | succ n ih =>
      rw [writeBytes]
      split_ifs with hs
      · exact inside_writeByte _ ih hs
      · exact ih
  exact this 16

/-- The block just written reads back (R68). -/
theorem readBlock_writeBlock_same {size : Nat} {m : Memory} (b : Nat) (d : Block) (h : Memory.wf m)
    (hs : b + 16 ≤ size) : readBlock (writeBlock size m b d) b = d := by
  refine block_ext fun i hi => ?_
  rw [readBlock, byteAt_blockOf _ hi, readByte_writeBlock _ _ _ h, if_pos (by omega)]
  simp

/-- A block disjoint from the one written reads as before (R76). -/
theorem readBlock_writeBlock_other {size : Nat} {m : Memory} (b c : Nat) (d : Block) (h : Memory.wf m)
    (hd : c + 16 ≤ b ∨ b + 16 ≤ c) : readBlock (writeBlock size m b d) c = readBlock m c := by
  refine blockOf_congr fun i hi => ?_
  rw [readByte_writeBlock _ _ _ h, if_neg (by omega)]

theorem readBlock_congr {m m' : Memory} {b : Nat} (h : ∀ i < 16, readByte m' (b + i) = readByte m (b + i)) :
    readBlock m' b = readBlock m b := blockOf_congr h

/-- Equal memories are equal data: canonical contents with the same bytes are the same list. -/
theorem memory_ext {m m' : Memory} {lo : Nat} (h : Memory.wfFrom lo m) (h' : Memory.wfFrom lo m')
    (hr : ∀ a, readByte m a = readByte m' a) : m = m' := by
  induction m generalizing m' lo with
  | nil =>
    cases m' with
    | nil => rfl
    | cons c rest =>
      obtain ⟨k, v⟩ := c
      simp only [Memory.wfFrom, Bool.and_eq_true, bne_iff_ne] at h'
      have := hr k
      rw [readByte_cons, if_pos rfl] at this
      exact absurd this.symm h'.1.2
  | cons c rest ih =>
    obtain ⟨k, v⟩ := c
    have hw := h
    simp only [Memory.wfFrom, Bool.and_eq_true, bne_iff_ne, decide_eq_true_eq] at h
    cases m' with
    | nil =>
      have := hr k
      rw [readByte_cons, if_pos rfl] at this
      exact absurd this h.1.2
    | cons c' rest' =>
      obtain ⟨k', v'⟩ := c'
      simp only [Memory.wfFrom, Bool.and_eq_true, bne_iff_ne, decide_eq_true_eq] at h'
      have hk : k = k' := by
        rcases Nat.lt_trichotomy k k' with hlt | heq | hgt
        · have := hr k
          rw [readByte_cons, if_pos rfl, readByte_cons, if_neg (by omega), readByte_below h'.2 (by omega)] at this
          exact absurd this h.1.2
        · exact heq
        · have := hr k'
          rw [readByte_cons, if_neg (by omega), readByte_cons, if_pos rfl, readByte_below h.2 (by omega)] at this
          exact absurd this.symm h'.1.2
      subst hk
      have hv : v = v' := by simpa using hr k
      subst hv
      have : rest = rest' := ih h.2 h'.2 fun a => by
        by_cases ha : k = a
        · subst ha
          rw [readByte_below h.2 (by omega), readByte_below h'.2 (by omega)]
        · simpa [ha] using hr a
      rw [this]

end Sys2Proof.Machine
end

