-- ==== Sys2Proof/Laws/PerInstr.lean ====
section
/-! SUPPORT. Statements made of every command, one lemma per constructor (30_encoding.md R92, R97). -/

namespace Sys2Proof.Laws.EncodeDecode

/-- A command is well-formed, and its word decodes to it, read as a host word or as a row of the opcode table. -/
def Statement (i : Instr) : Prop :=
  i.wf = true ∧ decode (encode i) = .command i ∧ decodeTableWord 32 (encode i).toNat = some i

theorem gfDbl : Statement .gfDbl := by unfold Statement; decide
theorem xexEnc : Statement .xexEnc := by unfold Statement; decide
theorem xexDec : Statement .xexDec := by unfold Statement; decide
theorem setKey : Statement .setKey := by unfold Statement; decide
theorem getKey : Statement .getKey := by unfold Statement; decide
theorem clearKey : Statement .clearKey := by unfold Statement; decide
theorem keyNz : Statement .keyNz := by unfold Statement; decide
theorem encWrite : Statement .encWrite := by unfold Statement; decide
theorem encRead : Statement .encRead := by unfold Statement; decide

end Sys2Proof.Laws.EncodeDecode
end

