-- ==== Sys2Proof/Laws/State.lean ====
section
/-! SUPPORT. What each named update of State leaves in each field: one lemma per field per update, so that no later
proof unfolds a record update. -/

namespace Sys2Proof.Machine

/-! Every completion (10_state.md R44). -/

@[simp] theorem toIdle_ke (s : State) : s.toIdle.ke = s.ke := rfl
@[simp] theorem toIdle_kt (s : State) : s.toIdle.kt = s.kt := rfl
@[simp] theorem toIdle_status (s : State) : s.toIdle.status = s.status := rfl
@[simp] theorem toIdle_rawstat (s : State) : s.toIdle.rawstat = s.rawstat := rfl
@[simp] theorem toIdle_addr (s : State) : s.toIdle.addr = s.addr := rfl
@[simp] theorem toIdle_len (s : State) : s.toIdle.len = s.len := rfl
@[simp] theorem toIdle_seq (s : State) : s.toIdle.seq = s.seq := rfl
@[simp] theorem toIdle_tweak (s : State) : s.toIdle.tweak = s.tweak := rfl
@[simp] theorem toIdle_din (s : State) : s.toIdle.din = s.din := rfl
@[simp] theorem toIdle_dout (s : State) : s.toIdle.dout = s.dout := rfl
@[simp] theorem toIdle_keyio (s : State) : s.toIdle.keyio = s.keyio := rfl
@[simp] theorem toIdle_databuf (s : State) : s.toIdle.databuf = s.databuf := rfl
@[simp] theorem toIdle_phase (s : State) : s.toIdle.phase = .idle := rfl
@[simp] theorem toIdle_op (s : State) : s.toIdle.op = s.op := rfl
@[simp] theorem toIdle_iter (s : State) : s.toIdle.iter = Config.freeIterator s.draws := rfl
@[simp] theorem toIdle_stage (s : State) : s.toIdle.stage = .start := rfl
@[simp] theorem toIdle_scrC (s : State) : s.toIdle.scrC = 0 := rfl
@[simp] theorem toIdle_scrS (s : State) : s.toIdle.scrS = 0 := rfl
@[simp] theorem toIdle_ks (s : State) : s.toIdle.ks = s.ks := rfl
@[simp] theorem toIdle_sm (s : State) : s.toIdle.sm = s.sm := rfl
@[simp] theorem toIdle_params (s : State) : s.toIdle.params = s.params := rfl
@[simp] theorem toIdle_answers (s : State) : s.toIdle.answers = s.answers := rfl
@[simp] theorem toIdle_events (s : State) : s.toIdle.events = s.events := rfl
@[simp] theorem toIdle_draws (s : State) : s.toIdle.draws = s.draws + 1 := rfl
@[simp] theorem toIdle_rawLog (s : State) : s.toIdle.rawLog = s.rawLog := rfl
@[simp] theorem toIdle_hostReads (s : State) : s.toIdle.hostReads = s.hostReads := rfl

/-! `complete()` (30_encoding.md R103). -/

@[simp] theorem complete_ke (s : State) : (complete s).ke = s.ke := rfl
@[simp] theorem complete_kt (s : State) : (complete s).kt = s.kt := rfl
@[simp] theorem complete_status (s : State) : (complete s).status = s.status.completed := rfl
@[simp] theorem complete_rawstat (s : State) : (complete s).rawstat = s.rawstat := rfl
@[simp] theorem complete_addr (s : State) : (complete s).addr = s.addr := rfl
@[simp] theorem complete_len (s : State) : (complete s).len = s.len := rfl
@[simp] theorem complete_seq (s : State) : (complete s).seq = s.seq := rfl
@[simp] theorem complete_tweak (s : State) : (complete s).tweak = s.tweak := rfl
@[simp] theorem complete_din (s : State) : (complete s).din = s.din := rfl
@[simp] theorem complete_dout (s : State) : (complete s).dout = s.dout := rfl
@[simp] theorem complete_keyio (s : State) : (complete s).keyio = s.keyio := rfl
@[simp] theorem complete_databuf (s : State) : (complete s).databuf = s.databuf := rfl
@[simp] theorem complete_phase (s : State) : (complete s).phase = .idle := rfl
@[simp] theorem complete_op (s : State) : (complete s).op = s.op := rfl
@[simp] theorem complete_iter (s : State) : (complete s).iter = Config.freeIterator s.draws := rfl
@[simp] theorem complete_stage (s : State) : (complete s).stage = .start := rfl
@[simp] theorem complete_scrC (s : State) : (complete s).scrC = 0 := rfl
@[simp] theorem complete_scrS (s : State) : (complete s).scrS = 0 := rfl
@[simp] theorem complete_ks (s : State) : (complete s).ks = s.ks := rfl
@[simp] theorem complete_sm (s : State) : (complete s).sm = s.sm := rfl
@[simp] theorem complete_params (s : State) : (complete s).params = s.params := rfl
@[simp] theorem complete_answers (s : State) : (complete s).answers = s.answers := rfl
@[simp] theorem complete_events (s : State) : (complete s).events = s.events := rfl
@[simp] theorem complete_draws (s : State) : (complete s).draws = s.draws + 1 := rfl
@[simp] theorem complete_rawLog (s : State) : (complete s).rawLog = s.rawLog := rfl
@[simp] theorem complete_hostReads (s : State) : (complete s).hostReads = s.hostReads := rfl

/-! `raise CmdError` (60_exceptions.md R223). -/

@[simp] theorem raiseError_ke (c : ErrClass) (raw : Word) (s : State) : (raiseError c raw s).ke = s.ke := rfl
@[simp] theorem raiseError_kt (c : ErrClass) (raw : Word) (s : State) : (raiseError c raw s).kt = s.kt := rfl
@[simp] theorem raiseError_status (c : ErrClass) (raw : Word) (s : State) :
    (raiseError c raw s).status = s.status.failed c := rfl
@[simp] theorem raiseError_rawstat (c : ErrClass) (raw : Word) (s : State) : (raiseError c raw s).rawstat = raw := rfl
@[simp] theorem raiseError_addr (c : ErrClass) (raw : Word) (s : State) : (raiseError c raw s).addr = s.addr := rfl
@[simp] theorem raiseError_len (c : ErrClass) (raw : Word) (s : State) : (raiseError c raw s).len = s.len := rfl
@[simp] theorem raiseError_seq (c : ErrClass) (raw : Word) (s : State) : (raiseError c raw s).seq = s.seq := rfl
@[simp] theorem raiseError_tweak (c : ErrClass) (raw : Word) (s : State) : (raiseError c raw s).tweak = s.tweak := rfl
@[simp] theorem raiseError_din (c : ErrClass) (raw : Word) (s : State) : (raiseError c raw s).din = s.din := rfl
@[simp] theorem raiseError_dout (c : ErrClass) (raw : Word) (s : State) : (raiseError c raw s).dout = s.dout := rfl
@[simp] theorem raiseError_keyio (c : ErrClass) (raw : Word) (s : State) : (raiseError c raw s).keyio = s.keyio := rfl
@[simp] theorem raiseError_databuf (c : ErrClass) (raw : Word) (s : State) :
    (raiseError c raw s).databuf = s.databuf := rfl
@[simp] theorem raiseError_phase (c : ErrClass) (raw : Word) (s : State) : (raiseError c raw s).phase = .idle := rfl
@[simp] theorem raiseError_op (c : ErrClass) (raw : Word) (s : State) : (raiseError c raw s).op = s.op := rfl
@[simp] theorem raiseError_iter (c : ErrClass) (raw : Word) (s : State) :
    (raiseError c raw s).iter = Config.freeIterator s.draws := rfl
@[simp] theorem raiseError_stage (c : ErrClass) (raw : Word) (s : State) : (raiseError c raw s).stage = .start := rfl
@[simp] theorem raiseError_scrC (c : ErrClass) (raw : Word) (s : State) : (raiseError c raw s).scrC = 0 := rfl
@[simp] theorem raiseError_scrS (c : ErrClass) (raw : Word) (s : State) : (raiseError c raw s).scrS = 0 := rfl
@[simp] theorem raiseError_ks (c : ErrClass) (raw : Word) (s : State) : (raiseError c raw s).ks = s.ks := rfl
@[simp] theorem raiseError_sm (c : ErrClass) (raw : Word) (s : State) : (raiseError c raw s).sm = s.sm := rfl
@[simp] theorem raiseError_params (c : ErrClass) (raw : Word) (s : State) :
    (raiseError c raw s).params = s.params := rfl
@[simp] theorem raiseError_answers (c : ErrClass) (raw : Word) (s : State) :
    (raiseError c raw s).answers = s.answers := rfl
@[simp] theorem raiseError_events (c : ErrClass) (raw : Word) (s : State) :
    (raiseError c raw s).events = s.events := rfl
@[simp] theorem raiseError_draws (c : ErrClass) (raw : Word) (s : State) :
    (raiseError c raw s).draws = s.draws + 1 := rfl
@[simp] theorem raiseError_rawLog (c : ErrClass) (raw : Word) (s : State) :
    (raiseError c raw s).rawLog = s.rawLog := rfl
@[simp] theorem raiseError_hostReads (c : ErrClass) (raw : Word) (s : State) :
    (raiseError c raw s).hostReads = s.hostReads := rfl

/-! Acceptance (30_encoding.md R100). -/

@[simp] theorem accept_ke (w : Word) (s : State) : (accept w s).ke = s.ke := rfl
@[simp] theorem accept_kt (w : Word) (s : State) : (accept w s).kt = s.kt := rfl
@[simp] theorem accept_status (w : Word) (s : State) : (accept w s).status = s.status.accepted := rfl
@[simp] theorem accept_rawstat (w : Word) (s : State) : (accept w s).rawstat = 0 := rfl
@[simp] theorem accept_addr (w : Word) (s : State) : (accept w s).addr = s.addr := rfl
@[simp] theorem accept_len (w : Word) (s : State) : (accept w s).len = s.len := rfl
@[simp] theorem accept_seq (w : Word) (s : State) : (accept w s).seq = s.seq := rfl
@[simp] theorem accept_tweak (w : Word) (s : State) : (accept w s).tweak = s.tweak := rfl
@[simp] theorem accept_din (w : Word) (s : State) : (accept w s).din = s.din := rfl
@[simp] theorem accept_dout (w : Word) (s : State) : (accept w s).dout = s.dout := rfl
@[simp] theorem accept_keyio (w : Word) (s : State) : (accept w s).keyio = s.keyio := rfl
@[simp] theorem accept_databuf (w : Word) (s : State) : (accept w s).databuf = s.databuf := rfl
@[simp] theorem accept_phase (w : Word) (s : State) : (accept w s).phase = .busy := rfl
@[simp] theorem accept_op (w : Word) (s : State) : (accept w s).op = w := rfl
@[simp] theorem accept_iter (w : Word) (s : State) : (accept w s).iter = s.iter := rfl
@[simp] theorem accept_stage (w : Word) (s : State) : (accept w s).stage = .start := rfl
@[simp] theorem accept_scrC (w : Word) (s : State) : (accept w s).scrC = s.scrC := rfl
@[simp] theorem accept_scrS (w : Word) (s : State) : (accept w s).scrS = s.scrS := rfl
@[simp] theorem accept_ks (w : Word) (s : State) : (accept w s).ks = s.ks := rfl
@[simp] theorem accept_sm (w : Word) (s : State) : (accept w s).sm = s.sm := rfl
@[simp] theorem accept_params (w : Word) (s : State) : (accept w s).params = s.params := rfl
@[simp] theorem accept_answers (w : Word) (s : State) : (accept w s).answers = s.answers := rfl
@[simp] theorem accept_events (w : Word) (s : State) : (accept w s).events = s.events := rfl
@[simp] theorem accept_draws (w : Word) (s : State) : (accept w s).draws = s.draws := rfl
@[simp] theorem accept_rawLog (w : Word) (s : State) : (accept w s).rawLog = s.rawLog := rfl
@[simp] theorem accept_hostReads (w : Word) (s : State) : (accept w s).hostReads = s.hostReads := rfl

/-! The key-schedule cache (10_state.md R45). -/

@[simp] theorem keepSchedule_ke (s : State) : (keepSchedule s).ke = s.ke := rfl
@[simp] theorem keepSchedule_kt (s : State) : (keepSchedule s).kt = s.kt := rfl
@[simp] theorem keepSchedule_status (s : State) : (keepSchedule s).status = s.status := rfl
@[simp] theorem keepSchedule_rawstat (s : State) : (keepSchedule s).rawstat = s.rawstat := rfl
@[simp] theorem keepSchedule_addr (s : State) : (keepSchedule s).addr = s.addr := rfl
@[simp] theorem keepSchedule_len (s : State) : (keepSchedule s).len = s.len := rfl
@[simp] theorem keepSchedule_seq (s : State) : (keepSchedule s).seq = s.seq := rfl
@[simp] theorem keepSchedule_tweak (s : State) : (keepSchedule s).tweak = s.tweak := rfl
@[simp] theorem keepSchedule_din (s : State) : (keepSchedule s).din = s.din := rfl
@[simp] theorem keepSchedule_dout (s : State) : (keepSchedule s).dout = s.dout := rfl
@[simp] theorem keepSchedule_keyio (s : State) : (keepSchedule s).keyio = s.keyio := rfl
@[simp] theorem keepSchedule_databuf (s : State) : (keepSchedule s).databuf = s.databuf := rfl
@[simp] theorem keepSchedule_phase (s : State) : (keepSchedule s).phase = s.phase := rfl
@[simp] theorem keepSchedule_op (s : State) : (keepSchedule s).op = s.op := rfl
@[simp] theorem keepSchedule_iter (s : State) : (keepSchedule s).iter = s.iter := rfl
@[simp] theorem keepSchedule_stage (s : State) : (keepSchedule s).stage = s.stage := rfl
@[simp] theorem keepSchedule_scrC (s : State) : (keepSchedule s).scrC = s.scrC := rfl
@[simp] theorem keepSchedule_scrS (s : State) : (keepSchedule s).scrS = s.scrS := rfl
@[simp] theorem keepSchedule_ks (s : State) :
    (keepSchedule s).ks = if s.params.cachesKeySchedule then some { ke := s.ke, kt := s.kt } else s.ks := rfl
@[simp] theorem keepSchedule_sm (s : State) : (keepSchedule s).sm = s.sm := rfl
@[simp] theorem keepSchedule_params (s : State) : (keepSchedule s).params = s.params := rfl
@[simp] theorem keepSchedule_answers (s : State) : (keepSchedule s).answers = s.answers := rfl
@[simp] theorem keepSchedule_events (s : State) : (keepSchedule s).events = s.events := rfl
@[simp] theorem keepSchedule_draws (s : State) : (keepSchedule s).draws = s.draws := rfl
@[simp] theorem keepSchedule_rawLog (s : State) : (keepSchedule s).rawLog = s.rawLog := rfl
@[simp] theorem keepSchedule_hostReads (s : State) : (keepSchedule s).hostReads = s.hostReads := rfl

/-! Its invalidation (43_key_state.md R201). -/

@[simp] theorem dropSchedule_ke (s : State) : (dropSchedule s).ke = s.ke := rfl
@[simp] theorem dropSchedule_kt (s : State) : (dropSchedule s).kt = s.kt := rfl
@[simp] theorem dropSchedule_status (s : State) : (dropSchedule s).status = s.status := rfl
@[simp] theorem dropSchedule_rawstat (s : State) : (dropSchedule s).rawstat = s.rawstat := rfl
@[simp] theorem dropSchedule_addr (s : State) : (dropSchedule s).addr = s.addr := rfl
@[simp] theorem dropSchedule_len (s : State) : (dropSchedule s).len = s.len := rfl
@[simp] theorem dropSchedule_seq (s : State) : (dropSchedule s).seq = s.seq := rfl
@[simp] theorem dropSchedule_tweak (s : State) : (dropSchedule s).tweak = s.tweak := rfl
@[simp] theorem dropSchedule_din (s : State) : (dropSchedule s).din = s.din := rfl
@[simp] theorem dropSchedule_dout (s : State) : (dropSchedule s).dout = s.dout := rfl
@[simp] theorem dropSchedule_keyio (s : State) : (dropSchedule s).keyio = s.keyio := rfl
@[simp] theorem dropSchedule_databuf (s : State) : (dropSchedule s).databuf = s.databuf := rfl
@[simp] theorem dropSchedule_phase (s : State) : (dropSchedule s).phase = s.phase := rfl
@[simp] theorem dropSchedule_op (s : State) : (dropSchedule s).op = s.op := rfl
@[simp] theorem dropSchedule_iter (s : State) : (dropSchedule s).iter = s.iter := rfl
@[simp] theorem dropSchedule_stage (s : State) : (dropSchedule s).stage = s.stage := rfl
@[simp] theorem dropSchedule_scrC (s : State) : (dropSchedule s).scrC = s.scrC := rfl
@[simp] theorem dropSchedule_scrS (s : State) : (dropSchedule s).scrS = s.scrS := rfl
@[simp] theorem dropSchedule_ks (s : State) : (dropSchedule s).ks = none := rfl
@[simp] theorem dropSchedule_sm (s : State) : (dropSchedule s).sm = s.sm := rfl
@[simp] theorem dropSchedule_params (s : State) : (dropSchedule s).params = s.params := rfl
@[simp] theorem dropSchedule_answers (s : State) : (dropSchedule s).answers = s.answers := rfl
@[simp] theorem dropSchedule_events (s : State) : (dropSchedule s).events = s.events := rfl
@[simp] theorem dropSchedule_draws (s : State) : (dropSchedule s).draws = s.draws := rfl
@[simp] theorem dropSchedule_rawLog (s : State) : (dropSchedule s).rawLog = s.rawLog := rfl
@[simp] theorem dropSchedule_hostReads (s : State) : (dropSchedule s).hostReads = s.hostReads := rfl

/-! An answer of the raw store is taken (20_memory.md R68). -/

@[simp] theorem afterAnswer_ke (s : State) : s.afterAnswer.ke = s.ke := rfl
@[simp] theorem afterAnswer_kt (s : State) : s.afterAnswer.kt = s.kt := rfl
@[simp] theorem afterAnswer_status (s : State) : s.afterAnswer.status = s.status := rfl
@[simp] theorem afterAnswer_rawstat (s : State) : s.afterAnswer.rawstat = s.rawstat := rfl
@[simp] theorem afterAnswer_addr (s : State) : s.afterAnswer.addr = s.addr := rfl
@[simp] theorem afterAnswer_len (s : State) : s.afterAnswer.len = s.len := rfl
@[simp] theorem afterAnswer_seq (s : State) : s.afterAnswer.seq = s.seq := rfl
@[simp] theorem afterAnswer_tweak (s : State) : s.afterAnswer.tweak = s.tweak := rfl
@[simp] theorem afterAnswer_din (s : State) : s.afterAnswer.din = s.din := rfl
@[simp] theorem afterAnswer_dout (s : State) : s.afterAnswer.dout = s.dout := rfl
@[simp] theorem afterAnswer_keyio (s : State) : s.afterAnswer.keyio = s.keyio := rfl
@[simp] theorem afterAnswer_databuf (s : State) : s.afterAnswer.databuf = s.databuf := rfl
@[simp] theorem afterAnswer_phase (s : State) : s.afterAnswer.phase = s.phase := rfl
@[simp] theorem afterAnswer_op (s : State) : s.afterAnswer.op = s.op := rfl
@[simp] theorem afterAnswer_iter (s : State) : s.afterAnswer.iter = s.iter := rfl
@[simp] theorem afterAnswer_stage (s : State) : s.afterAnswer.stage = s.stage := rfl
@[simp] theorem afterAnswer_scrC (s : State) : s.afterAnswer.scrC = s.scrC := rfl
@[simp] theorem afterAnswer_scrS (s : State) : s.afterAnswer.scrS = s.scrS := rfl
@[simp] theorem afterAnswer_ks (s : State) : s.afterAnswer.ks = s.ks := rfl
@[simp] theorem afterAnswer_sm (s : State) : s.afterAnswer.sm = s.sm := rfl
@[simp] theorem afterAnswer_params (s : State) : s.afterAnswer.params = s.params := rfl
@[simp] theorem afterAnswer_answers (s : State) : s.afterAnswer.answers = s.answers.tail := rfl
@[simp] theorem afterAnswer_events (s : State) : s.afterAnswer.events = s.events := rfl
@[simp] theorem afterAnswer_draws (s : State) : s.afterAnswer.draws = s.draws + 1 := rfl
@[simp] theorem afterAnswer_rawLog (s : State) : s.afterAnswer.rawLog = s.rawLog := rfl
@[simp] theorem afterAnswer_hostReads (s : State) : s.afterAnswer.hostReads = s.hostReads := rfl

/-! A raw read (20_memory.md R66, R76). -/

@[simp] theorem memRead_ke (b : Word) (s : State) : (memRead b s).ke = s.ke := rfl
@[simp] theorem memRead_kt (b : Word) (s : State) : (memRead b s).kt = s.kt := rfl
@[simp] theorem memRead_status (b : Word) (s : State) : (memRead b s).status = s.status := rfl
@[simp] theorem memRead_rawstat (b : Word) (s : State) : (memRead b s).rawstat = s.rawstat := rfl
@[simp] theorem memRead_addr (b : Word) (s : State) : (memRead b s).addr = s.addr := rfl
@[simp] theorem memRead_len (b : Word) (s : State) : (memRead b s).len = s.len := rfl
@[simp] theorem memRead_seq (b : Word) (s : State) : (memRead b s).seq = s.seq := rfl
@[simp] theorem memRead_tweak (b : Word) (s : State) : (memRead b s).tweak = s.tweak := rfl
@[simp] theorem memRead_din (b : Word) (s : State) : (memRead b s).din = s.din := rfl
@[simp] theorem memRead_dout (b : Word) (s : State) : (memRead b s).dout = s.dout := rfl
@[simp] theorem memRead_keyio (b : Word) (s : State) : (memRead b s).keyio = s.keyio := rfl
@[simp] theorem memRead_databuf (b : Word) (s : State) : (memRead b s).databuf = s.databuf := rfl
@[simp] theorem memRead_phase (b : Word) (s : State) : (memRead b s).phase = s.phase := rfl
@[simp] theorem memRead_op (b : Word) (s : State) : (memRead b s).op = s.op := rfl
@[simp] theorem memRead_iter (b : Word) (s : State) : (memRead b s).iter = s.iter := rfl
@[simp] theorem memRead_stage (b : Word) (s : State) : (memRead b s).stage = s.stage := rfl
@[simp] theorem memRead_scrC (b : Word) (s : State) : (memRead b s).scrC = s.scrC := rfl
@[simp] theorem memRead_scrS (b : Word) (s : State) : (memRead b s).scrS = s.scrS := rfl
@[simp] theorem memRead_ks (b : Word) (s : State) : (memRead b s).ks = s.ks := rfl
@[simp] theorem memRead_sm (b : Word) (s : State) : (memRead b s).sm = s.sm := rfl
@[simp] theorem memRead_params (b : Word) (s : State) : (memRead b s).params = s.params := rfl
@[simp] theorem memRead_answers (b : Word) (s : State) : (memRead b s).answers = s.answers.tail := rfl
@[simp] theorem memRead_events (b : Word) (s : State) : (memRead b s).events = s.events := rfl
@[simp] theorem memRead_draws (b : Word) (s : State) : (memRead b s).draws = s.draws + 1 := rfl
@[simp] theorem memRead_rawLog (b : Word) (s : State) :
    (memRead b s).rawLog = s.rawLog ++ [{ isWrite := false, block := b, status := s.answerStatus b }] := rfl
@[simp] theorem memRead_hostReads (b : Word) (s : State) : (memRead b s).hostReads = s.hostReads := rfl

/-! A raw write (20_memory.md R66, R68). -/

@[simp] theorem memWrite_ke (b : Word) (d : Block) (s : State) : (memWrite b d s).ke = s.ke := rfl
@[simp] theorem memWrite_kt (b : Word) (d : Block) (s : State) : (memWrite b d s).kt = s.kt := rfl
@[simp] theorem memWrite_status (b : Word) (d : Block) (s : State) : (memWrite b d s).status = s.status := rfl
@[simp] theorem memWrite_rawstat (b : Word) (d : Block) (s : State) : (memWrite b d s).rawstat = s.rawstat := rfl
@[simp] theorem memWrite_addr (b : Word) (d : Block) (s : State) : (memWrite b d s).addr = s.addr := rfl
@[simp] theorem memWrite_len (b : Word) (d : Block) (s : State) : (memWrite b d s).len = s.len := rfl
@[simp] theorem memWrite_seq (b : Word) (d : Block) (s : State) : (memWrite b d s).seq = s.seq := rfl
@[simp] theorem memWrite_tweak (b : Word) (d : Block) (s : State) : (memWrite b d s).tweak = s.tweak := rfl
@[simp] theorem memWrite_din (b : Word) (d : Block) (s : State) : (memWrite b d s).din = s.din := rfl
@[simp] theorem memWrite_dout (b : Word) (d : Block) (s : State) : (memWrite b d s).dout = s.dout := rfl
@[simp] theorem memWrite_keyio (b : Word) (d : Block) (s : State) : (memWrite b d s).keyio = s.keyio := rfl
@[simp] theorem memWrite_databuf (b : Word) (d : Block) (s : State) : (memWrite b d s).databuf = s.databuf := rfl
@[simp] theorem memWrite_phase (b : Word) (d : Block) (s : State) : (memWrite b d s).phase = s.phase := rfl
@[simp] theorem memWrite_op (b : Word) (d : Block) (s : State) : (memWrite b d s).op = s.op := rfl
@[simp] theorem memWrite_iter (b : Word) (d : Block) (s : State) : (memWrite b d s).iter = s.iter := rfl
@[simp] theorem memWrite_stage (b : Word) (d : Block) (s : State) : (memWrite b d s).stage = s.stage := rfl
@[simp] theorem memWrite_scrC (b : Word) (d : Block) (s : State) : (memWrite b d s).scrC = s.scrC := rfl
@[simp] theorem memWrite_scrS (b : Word) (d : Block) (s : State) : (memWrite b d s).scrS = s.scrS := rfl
@[simp] theorem memWrite_ks (b : Word) (d : Block) (s : State) : (memWrite b d s).ks = s.ks := rfl
@[simp] theorem memWrite_sm (b : Word) (d : Block) (s : State) :
    (memWrite b d s).sm =
      writeBlock s.params.storeMax s.sm b.toNat (if s.answersOk b then d else s.nextAnswer.residue) := rfl
@[simp] theorem memWrite_params (b : Word) (d : Block) (s : State) : (memWrite b d s).params = s.params := rfl
@[simp] theorem memWrite_answers (b : Word) (d : Block) (s : State) : (memWrite b d s).answers = s.answers.tail := rfl
@[simp] theorem memWrite_events (b : Word) (d : Block) (s : State) : (memWrite b d s).events = s.events := rfl
@[simp] theorem memWrite_draws (b : Word) (d : Block) (s : State) : (memWrite b d s).draws = s.draws + 1 := rfl
@[simp] theorem memWrite_rawLog (b : Word) (d : Block) (s : State) :
    (memWrite b d s).rawLog = s.rawLog ++ [{ isWrite := true, block := b, status := s.answerStatus b }] := rfl
@[simp] theorem memWrite_hostReads (b : Word) (d : Block) (s : State) : (memWrite b d s).hostReads = s.hostReads := rfl

/-! One pass of `CLEAR_KEY` (43_key_state.md R204). -/

@[simp] theorem clearPass_ke (k : Block) (b : KeyBlob) (s : State) : (clearPass k b s).ke = k := rfl
@[simp] theorem clearPass_kt (k : Block) (b : KeyBlob) (s : State) : (clearPass k b s).kt = k := rfl
@[simp] theorem clearPass_status (k : Block) (b : KeyBlob) (s : State) : (clearPass k b s).status = s.status := rfl
@[simp] theorem clearPass_rawstat (k : Block) (b : KeyBlob) (s : State) : (clearPass k b s).rawstat = s.rawstat := rfl
@[simp] theorem clearPass_addr (k : Block) (b : KeyBlob) (s : State) : (clearPass k b s).addr = s.addr := rfl
@[simp] theorem clearPass_len (k : Block) (b : KeyBlob) (s : State) : (clearPass k b s).len = s.len := rfl
@[simp] theorem clearPass_seq (k : Block) (b : KeyBlob) (s : State) : (clearPass k b s).seq = s.seq := rfl
@[simp] theorem clearPass_tweak (k : Block) (b : KeyBlob) (s : State) : (clearPass k b s).tweak = s.tweak := rfl
@[simp] theorem clearPass_din (k : Block) (b : KeyBlob) (s : State) : (clearPass k b s).din = s.din := rfl
@[simp] theorem clearPass_dout (k : Block) (b : KeyBlob) (s : State) : (clearPass k b s).dout = s.dout := rfl
@[simp] theorem clearPass_keyio (k : Block) (b : KeyBlob) (s : State) : (clearPass k b s).keyio = b := rfl
@[simp] theorem clearPass_databuf (k : Block) (b : KeyBlob) (s : State) : (clearPass k b s).databuf = s.databuf := rfl
@[simp] theorem clearPass_phase (k : Block) (b : KeyBlob) (s : State) : (clearPass k b s).phase = s.phase := rfl
@[simp] theorem clearPass_op (k : Block) (b : KeyBlob) (s : State) : (clearPass k b s).op = s.op := rfl
@[simp] theorem clearPass_iter (k : Block) (b : KeyBlob) (s : State) : (clearPass k b s).iter = s.iter := rfl
@[simp] theorem clearPass_stage (k : Block) (b : KeyBlob) (s : State) : (clearPass k b s).stage = s.stage := rfl
@[simp] theorem clearPass_scrC (k : Block) (b : KeyBlob) (s : State) : (clearPass k b s).scrC = s.scrC := rfl
@[simp] theorem clearPass_scrS (k : Block) (b : KeyBlob) (s : State) : (clearPass k b s).scrS = s.scrS := rfl
@[simp] theorem clearPass_ks (k : Block) (b : KeyBlob) (s : State) : (clearPass k b s).ks = s.ks := rfl
@[simp] theorem clearPass_sm (k : Block) (b : KeyBlob) (s : State) : (clearPass k b s).sm = s.sm := rfl
@[simp] theorem clearPass_params (k : Block) (b : KeyBlob) (s : State) : (clearPass k b s).params = s.params := rfl
@[simp] theorem clearPass_answers (k : Block) (b : KeyBlob) (s : State) : (clearPass k b s).answers = s.answers := rfl
@[simp] theorem clearPass_events (k : Block) (b : KeyBlob) (s : State) : (clearPass k b s).events = s.events := rfl
@[simp] theorem clearPass_draws (k : Block) (b : KeyBlob) (s : State) : (clearPass k b s).draws = s.draws := rfl
@[simp] theorem clearPass_rawLog (k : Block) (b : KeyBlob) (s : State) : (clearPass k b s).rawLog = s.rawLog := rfl
@[simp] theorem clearPass_hostReads (k : Block) (b : KeyBlob) (s : State) :
    (clearPass k b s).hostReads = s.hostReads := rfl

/-! The iterator's start (42_translator.md R162). -/

@[simp] theorem startIterator_ke (s : State) : (startIterator s).ke = s.ke := rfl
@[simp] theorem startIterator_kt (s : State) : (startIterator s).kt = s.kt := rfl
@[simp] theorem startIterator_status (s : State) : (startIterator s).status = s.status := rfl
@[simp] theorem startIterator_rawstat (s : State) : (startIterator s).rawstat = s.rawstat := rfl
@[simp] theorem startIterator_addr (s : State) : (startIterator s).addr = s.addr := rfl
@[simp] theorem startIterator_len (s : State) : (startIterator s).len = s.len := rfl
@[simp] theorem startIterator_seq (s : State) : (startIterator s).seq = s.seq := rfl
@[simp] theorem startIterator_tweak (s : State) : (startIterator s).tweak = s.tweak := rfl
@[simp] theorem startIterator_din (s : State) : (startIterator s).din = s.din := rfl
@[simp] theorem startIterator_dout (s : State) : (startIterator s).dout = s.dout := rfl
@[simp] theorem startIterator_keyio (s : State) : (startIterator s).keyio = s.keyio := rfl
@[simp] theorem startIterator_databuf (s : State) : (startIterator s).databuf = s.databuf := rfl
@[simp] theorem startIterator_phase (s : State) : (startIterator s).phase = s.phase := rfl
@[simp] theorem startIterator_op (s : State) : (startIterator s).op = s.op := rfl
@[simp] theorem startIterator_iter (s : State) :
    (startIterator s).iter = { b := s.firstBlock, last := s.lastBlock, off := s.firstOffset, j := 0 } := rfl
@[simp] theorem startIterator_stage (s : State) : (startIterator s).stage = .read := rfl
@[simp] theorem startIterator_scrC (s : State) : (startIterator s).scrC = s.scrC := rfl
@[simp] theorem startIterator_scrS (s : State) : (startIterator s).scrS = s.scrS := rfl
@[simp] theorem startIterator_ks (s : State) : (startIterator s).ks = s.ks := rfl
@[simp] theorem startIterator_sm (s : State) : (startIterator s).sm = s.sm := rfl
@[simp] theorem startIterator_params (s : State) : (startIterator s).params = s.params := rfl
@[simp] theorem startIterator_answers (s : State) : (startIterator s).answers = s.answers := rfl
@[simp] theorem startIterator_events (s : State) : (startIterator s).events = s.events := rfl
@[simp] theorem startIterator_draws (s : State) : (startIterator s).draws = s.draws := rfl
@[simp] theorem startIterator_rawLog (s : State) : (startIterator s).rawLog = s.rawLog := rfl
@[simp] theorem startIterator_hostReads (s : State) : (startIterator s).hostReads = s.hostReads := rfl

/-! Decryption into scratch (42_translator.md R168). -/

@[simp] theorem decryptScratch_ke (d : Block) (s : State) : (decryptScratch d s).ke = s.ke := rfl
@[simp] theorem decryptScratch_kt (d : Block) (s : State) : (decryptScratch d s).kt = s.kt := rfl
@[simp] theorem decryptScratch_status (d : Block) (s : State) : (decryptScratch d s).status = s.status := rfl
@[simp] theorem decryptScratch_rawstat (d : Block) (s : State) : (decryptScratch d s).rawstat = s.rawstat := rfl
@[simp] theorem decryptScratch_addr (d : Block) (s : State) : (decryptScratch d s).addr = s.addr := rfl
@[simp] theorem decryptScratch_len (d : Block) (s : State) : (decryptScratch d s).len = s.len := rfl
@[simp] theorem decryptScratch_seq (d : Block) (s : State) : (decryptScratch d s).seq = s.seq := rfl
@[simp] theorem decryptScratch_tweak (d : Block) (s : State) : (decryptScratch d s).tweak = s.tweak := rfl
@[simp] theorem decryptScratch_din (d : Block) (s : State) : (decryptScratch d s).din = s.din := rfl
@[simp] theorem decryptScratch_dout (d : Block) (s : State) : (decryptScratch d s).dout = s.dout := rfl
@[simp] theorem decryptScratch_keyio (d : Block) (s : State) : (decryptScratch d s).keyio = s.keyio := rfl
@[simp] theorem decryptScratch_databuf (d : Block) (s : State) : (decryptScratch d s).databuf = s.databuf := rfl
@[simp] theorem decryptScratch_phase (d : Block) (s : State) : (decryptScratch d s).phase = s.phase := rfl
@[simp] theorem decryptScratch_op (d : Block) (s : State) : (decryptScratch d s).op = s.op := rfl
@[simp] theorem decryptScratch_iter (d : Block) (s : State) : (decryptScratch d s).iter = s.iter := rfl
@[simp] theorem decryptScratch_stage (d : Block) (s : State) : (decryptScratch d s).stage = s.stage := rfl
@[simp] theorem decryptScratch_scrC (d : Block) (s : State) : (decryptScratch d s).scrC = d := rfl
@[simp] theorem decryptScratch_scrS (d : Block) (s : State) :
    (decryptScratch d s).scrS = blockDecrypt s s.iter.b d := rfl
@[simp] theorem decryptScratch_ks (d : Block) (s : State) :
    (decryptScratch d s).ks = if s.params.cachesKeySchedule then some { ke := s.ke, kt := s.kt } else s.ks := rfl
@[simp] theorem decryptScratch_sm (d : Block) (s : State) : (decryptScratch d s).sm = s.sm := rfl
@[simp] theorem decryptScratch_params (d : Block) (s : State) : (decryptScratch d s).params = s.params := rfl
@[simp] theorem decryptScratch_answers (d : Block) (s : State) : (decryptScratch d s).answers = s.answers := rfl
@[simp] theorem decryptScratch_events (d : Block) (s : State) : (decryptScratch d s).events = s.events := rfl
@[simp] theorem decryptScratch_draws (d : Block) (s : State) : (decryptScratch d s).draws = s.draws := rfl
@[simp] theorem decryptScratch_rawLog (d : Block) (s : State) : (decryptScratch d s).rawLog = s.rawLog := rfl
@[simp] theorem decryptScratch_hostReads (d : Block) (s : State) : (decryptScratch d s).hostReads = s.hostReads := rfl

/-! Overlay and re-encryption (42_translator.md R169, R170). -/

@[simp] theorem overlayScratch_ke (s : State) : (overlayScratch s).ke = s.ke := rfl
@[simp] theorem overlayScratch_kt (s : State) : (overlayScratch s).kt = s.kt := rfl
@[simp] theorem overlayScratch_status (s : State) : (overlayScratch s).status = s.status := rfl
@[simp] theorem overlayScratch_rawstat (s : State) : (overlayScratch s).rawstat = s.rawstat := rfl
@[simp] theorem overlayScratch_addr (s : State) : (overlayScratch s).addr = s.addr := rfl
@[simp] theorem overlayScratch_len (s : State) : (overlayScratch s).len = s.len := rfl
@[simp] theorem overlayScratch_seq (s : State) : (overlayScratch s).seq = s.seq := rfl
@[simp] theorem overlayScratch_tweak (s : State) : (overlayScratch s).tweak = s.tweak := rfl
@[simp] theorem overlayScratch_din (s : State) : (overlayScratch s).din = s.din := rfl
@[simp] theorem overlayScratch_dout (s : State) : (overlayScratch s).dout = s.dout := rfl
@[simp] theorem overlayScratch_keyio (s : State) : (overlayScratch s).keyio = s.keyio := rfl
@[simp] theorem overlayScratch_databuf (s : State) : (overlayScratch s).databuf = s.databuf := rfl
@[simp] theorem overlayScratch_phase (s : State) : (overlayScratch s).phase = s.phase := rfl
@[simp] theorem overlayScratch_op (s : State) : (overlayScratch s).op = s.op := rfl
@[simp] theorem overlayScratch_iter (s : State) :
    (overlayScratch s).iter =
      { s.iter with j := BitVec.ofNat 9 (overlay s.databuf s.length 16 s.scrS s.iter.off.toNat s.iter.j.toNat).2 } := rfl
@[simp] theorem overlayScratch_stage (s : State) : (overlayScratch s).stage = .write := rfl
@[simp] theorem overlayScratch_scrC (s : State) :
    (overlayScratch s).scrC =
      blockEncrypt s s.iter.b (overlay s.databuf s.length 16 s.scrS s.iter.off.toNat s.iter.j.toNat).1 := rfl
@[simp] theorem overlayScratch_scrS (s : State) :
    (overlayScratch s).scrS = (overlay s.databuf s.length 16 s.scrS s.iter.off.toNat s.iter.j.toNat).1 := rfl
@[simp] theorem overlayScratch_ks (s : State) : (overlayScratch s).ks = s.ks := rfl
@[simp] theorem overlayScratch_sm (s : State) : (overlayScratch s).sm = s.sm := rfl
@[simp] theorem overlayScratch_params (s : State) : (overlayScratch s).params = s.params := rfl
@[simp] theorem overlayScratch_answers (s : State) : (overlayScratch s).answers = s.answers := rfl
@[simp] theorem overlayScratch_events (s : State) : (overlayScratch s).events = s.events := rfl
@[simp] theorem overlayScratch_draws (s : State) : (overlayScratch s).draws = s.draws := rfl
@[simp] theorem overlayScratch_rawLog (s : State) : (overlayScratch s).rawLog = s.rawLog := rfl
@[simp] theorem overlayScratch_hostReads (s : State) : (overlayScratch s).hostReads = s.hostReads := rfl

end Sys2Proof.Machine
end

