-- ==== Sys2Proof/Laws/Translator.lean ====
section
/-! SUPPORT. What each operation of the translator can do, said once (42_translator.md R161 to R172). -/

namespace Sys2Proof.Machine

/-- R169's loop: it moves `min n (min (16 - i) (len - j))` bytes, to the indexes from `i` on. -/
theorem overlay_spec (buf : Vector Byte 256) (len n : Nat) (x : Block) (i j : Nat) :
    (overlay buf len n x i j).2 = j + min n (min (16 - i) (len - j)) ∧
      ∀ k < 16, byteAt (overlay buf len n x i j).1 k =
        if i ≤ k ∧ k < i + min n (min (16 - i) (len - j)) then bufByte buf (j + (k - i)) else byteAt x k := by
  induction n generalizing x i j with
  | zero => exact ⟨by simp [overlay], fun k _ => by rw [if_neg (by omega)]; rfl⟩
  | succ n ih =>
    rw [overlay]
    by_cases h : i < 16 ∧ j < len
    · rw [if_pos h]
      obtain ⟨h2, h1⟩ := ih (setByte x i (bufByte buf j)) (i + 1) (j + 1)
      refine ⟨by rw [h2]; omega, fun k hk => ?_⟩
      rw [h1 k hk, byteAt_setByte _ _ _ _ hk]
      by_cases hki : k = i
      · subst hki
        rw [if_neg (by omega), if_pos rfl, if_pos (by omega), Nat.sub_self, Nat.add_zero]
      · rw [if_neg hki]
        by_cases hc : i + 1 ≤ k ∧ k < i + 1 + min n (min (16 - (i + 1)) (len - (j + 1)))
        · rw [if_pos hc, if_pos (by omega)]
          congr 1
          omega
        · rw [if_neg hc, if_neg (by omega)]
    · rw [if_neg h]
      exact ⟨by show j = _; omega, fun k _ => by rw [if_neg (by omega)]⟩

/-- R172's loop: it moves `min n (min (16 - i) (len - j))` bytes, to the positions from `j` on. -/
theorem copyOut_spec (x : Block) (len n : Nat) (buf : Vector Byte 256) (i j : Nat) (hl : len ≤ 256) :
    (copyOut x len n buf i j).2 = j + min n (min (16 - i) (len - j)) ∧
      ∀ q, bufByte (copyOut x len n buf i j).1 q =
        if j ≤ q ∧ q < j + min n (min (16 - i) (len - j)) then byteAt x (i + (q - j)) else bufByte buf q := by
  induction n generalizing buf i j with
  | zero => exact ⟨by simp [copyOut], fun q => by rw [if_neg (by omega)]; rfl⟩
  | succ n ih =>
    rw [copyOut]
    by_cases h : i < 16 ∧ j < len
    · rw [if_pos h]
      obtain ⟨h2, h1⟩ := ih (bufSetByte buf j (byteAt x i)) (i + 1) (j + 1)
      refine ⟨by rw [h2]; omega, fun q => ?_⟩
      rw [h1 q, bufByte_bufSetByte _ _ _ _ (by omega)]
      by_cases hq : q = j
      · subst hq
        rw [if_neg (by omega), if_pos rfl, if_pos (by omega), Nat.sub_self, Nat.add_zero]
      · rw [if_neg hq]
        by_cases hc : j + 1 ≤ q ∧ q < j + 1 + min n (min (16 - (i + 1)) (len - (j + 1)))
        · rw [if_pos hc, if_pos (by omega)]
          congr 1
          omega
        · rw [if_neg hc, if_neg (by omega)]
    · rw [if_neg h]
      exact ⟨by show j = _; omega, fun q => by rw [if_neg (by omega)]⟩

theorem length_lt (s : State) : s.length < 256 := s.len.isLt

/-- The checks pass exactly when the length is not zero and the range does not pass 2^32 (R161). -/
theorem rangeError_eq_none (s : State) :
    s.rangeError = none ↔ 0 < s.length ∧ s.address + s.length ≤ 2 ^ 32 := by
  rw [State.rangeError]
  split_ifs <;> simp <;> omega

/-- What a failing check reports (R161, R225). -/
theorem rangeError_eq_some {s : State} {c : ErrClass} (h : s.rangeError = some c) :
    c = (if s.length = 0 then .zeroLen else .range) ∧ ¬(0 < s.length ∧ s.address + s.length ≤ 2 ^ 32) := by
  rw [State.rangeError] at h
  split_ifs at h with h1 h2
  · simp_all
  · simp only [Option.some.injEq] at h
    rw [if_neg h1, ← h]
    exact ⟨rfl, by omega⟩

/-- The block is done: completion after the last one, else the next block. -/
theorem advance_cases (s : State) :
    s.iter.b = s.iter.last ∧ advance s = complete { s with iter := { s.iter with off := 0 } } ∨
      s.iter.b ≠ s.iter.last ∧
        advance s = { s with iter := { s.iter with off := 0, b := s.iter.b + 16 }, stage := .read } := by
  rw [advance]
  split_ifs with h
  · exact .inl ⟨h, rfl⟩
  · exact .inr ⟨h, rfl⟩

/-- The state a translator command's next raw read is issued in: the command in progress, or one whose checks have just
passed. -/
def ReadsFrom (s u : State) : Prop :=
  s.stage ≠ .start ∧ u = s ∨ s.stage = .start ∧ s.rangeError = none ∧ u = startIterator s

/-- The raw read of the current block: an error that ends the command, or its plaintext in scratch. -/
theorem readCurrent_cases (use : State → State) (s : State) :
    s.answerStatus s.iter.b ≠ s.params.rawOk ∧
        readCurrent use s = raiseError .rawRead (s.answerStatus s.iter.b) (memRead s.iter.b s) ∨
      s.answerStatus s.iter.b = s.params.rawOk ∧
        readCurrent use s = use (decryptScratch (readBlock s.sm s.iter.b.toNat) (memRead s.iter.b s)) := by
  simp only [readCurrent, State.answersOk, beq_iff_eq]
  split_ifs with h
  · exact .inr ⟨h, rfl⟩
  · exact .inl ⟨h, rfl⟩

/-- The raw write of the current block: an error that ends the command, or the next block. -/
theorem writeCurrent_cases (s : State) :
    s.answerStatus s.iter.b ≠ s.params.rawOk ∧
        writeCurrent s = raiseError .rawWrite (s.answerStatus s.iter.b) (memWrite s.iter.b s.scrC s) ∨
      s.answerStatus s.iter.b = s.params.rawOk ∧ writeCurrent s = advance (memWrite s.iter.b s.scrC s) := by
  simp only [writeCurrent, State.answersOk, beq_iff_eq]
  split_ifs with h
  · exact .inr ⟨h, rfl⟩
  · exact .inl ⟨h, rfl⟩

/-- Everything one core step of `ENC_WRITE` can do. -/
theorem encWriteStep_cases (s : State) :
    (∃ c, s.stage = .start ∧ s.rangeError = some c ∧ encWriteStep s = raiseError c 0 s) ∨
      (∃ u, s.stage ≠ .write ∧ ReadsFrom s u ∧ encWriteStep s = readCurrent overlayScratch u) ∨
      s.stage = .write ∧ encWriteStep s = writeCurrent s := by
  cases hs : s.stage with
  | start =>
    cases hr : s.rangeError with
    | some c => exact .inl ⟨c, rfl, rfl, by simp only [encWriteStep, hs, startTranslation, hr]⟩
    | none =>
      exact .inr (.inl ⟨startIterator s, by simp, .inr ⟨hs, hr, rfl⟩, by
        simp only [encWriteStep, hs, startTranslation, hr]⟩)
  | read => exact .inr (.inl ⟨s, by simp, .inl ⟨by simp [hs], rfl⟩, by simp only [encWriteStep, hs]⟩)
  | write => exact .inr (.inr ⟨rfl, by simp only [encWriteStep, hs]⟩)

/-- Everything one core step of `ENC_READ` can do. -/
theorem encReadStep_cases (s : State) :
    (∃ c, s.stage = .start ∧ s.rangeError = some c ∧ encReadStep s = raiseError c 0 s) ∨
      ∃ u, ReadsFrom s u ∧ encReadStep s = readCurrent copyScratch u := by
  cases hs : s.stage with
  | start =>
    cases hr : s.rangeError with
    | some c => exact .inl ⟨c, rfl, rfl, by simp only [encReadStep, hs, startTranslation, hr]⟩
    | none =>
      exact .inr ⟨startIterator s, .inr ⟨hs, hr, rfl⟩, by simp only [encReadStep, hs, startTranslation, hr]⟩
  | read => exact .inr ⟨s, .inl ⟨by simp [hs], rfl⟩, by simp only [encReadStep, hs]⟩
  | write => exact .inr ⟨s, .inl ⟨by simp [hs], rfl⟩, by simp only [encReadStep, hs]⟩

/-- What core steps keep, a run of them keeps. -/
theorem untilDone_keeps {P : State → Prop} {f : State → State} (hf : ∀ s, P s → P (f s)) (n : Nat) {s : State}
    (h : P s) : P (untilDone f n s) := by
  induction n generalizing s with
  | zero => exact h
  | succ n ih =>
    rw [untilDone]
    split
    · exact h
    · exact ih (hf s h)
    · exact ih (hf s h)

/-- What core steps of a command in progress keep, a run of them keeps. -/
theorem untilDone_keeps_while {P : State → Prop} {f : State → State}
    (hf : ∀ s, s.stage ≠ .start → P s → P (f s)) (n : Nat) {s : State} (h : P s) : P (untilDone f n s) := by
  induction n generalizing s with
  | zero => exact h
  | succ n ih =>
    rw [untilDone]
    split
    · exact h
    · next hs => exact ih (hf s (by simp [hs]) h)
    · next hs => exact ih (hf s (by simp [hs]) h)

/-- A run of core steps whose measure falls at every step of a command in progress ends with none in progress. -/
theorem untilDone_ends {P : State → Prop} {f : State → State} (μ : State → Nat)
    (hf : ∀ s, s.stage ≠ .start → P s → P (f s) ∧ ((f s).stage ≠ .start → μ (f s) < μ s)) (n : Nat) {s : State}
    (h : P s) (hn : s.stage ≠ .start → μ s < n) : P (untilDone f n s) ∧ (untilDone f n s).stage = .start := by
  induction n generalizing s with
  | zero =>
    by_cases hs : s.stage = .start
    · exact ⟨h, hs⟩
    · exact absurd (hn hs) (Nat.not_lt_zero _)
  | succ n ih =>
    have key : s.stage ≠ .start → P (untilDone f n (f s)) ∧ (untilDone f n (f s)).stage = .start := fun hs =>
      ih (hf s hs h).1 fun hs' => by have := (hf s hs h).2 hs'; have := hn hs; omega
    rw [untilDone]
    split
    · next hs => exact ⟨h, hs⟩
    · next hs => exact key (by simp [hs])
    · next hs => exact key (by simp [hs])

/-- A run of core steps is so many of them, with a raw access still due before each. -/
theorem untilDone_iterate (f : State → State) (n : Nat) (s : State) :
    ∃ k ≤ n, f^[k] s = untilDone f n s ∧ ∀ m < k, (f^[m] s).stage ≠ .start := by
  induction n generalizing s with
  | zero => exact ⟨0, Nat.le_refl 0, rfl, fun m hm => absurd hm (Nat.not_lt_zero m)⟩
  | succ n ih =>
    obtain ⟨k, hk, he, hm⟩ := ih (f s)
    have more (hs : s.stage ≠ .start) : ∀ m < k + 1, (f^[m] s).stage ≠ .start
      | 0, _ => hs
      | m + 1, h => hm m (Nat.lt_of_succ_lt_succ h)
    rw [untilDone]
    split
    · exact ⟨0, Nat.zero_le _, rfl, fun m hm => absurd hm (Nat.not_lt_zero m)⟩
    · next hs => exact ⟨k + 1, by omega, he, more (by simp [hs])⟩
    · next hs => exact ⟨k + 1, by omega, he, more (by simp [hs])⟩

theorem execEncWrite_eq {s t : State} (h : execEncWrite s = .next t) :
    t = untilDone encWriteStep maxAccesses (encWriteStep s) := by
  simpa [execEncWrite, eq_comm] using h

theorem execEncRead_eq {s t : State} (h : execEncRead s = .next t) :
    t = untilDone encReadStep maxAccesses (encReadStep s) := by
  simpa [execEncRead, eq_comm] using h

/-- What every core step of `ENC_WRITE` keeps, the command keeps. -/
theorem execEncWrite_keeps {P : State → Prop} (hf : ∀ s, P s → P (encWriteStep s)) {s t : State} (h : P s)
    (he : execEncWrite s = .next t) : P t := by
  rw [execEncWrite_eq he]
  exact untilDone_keeps hf _ (hf s h)

/-- What every core step of `ENC_READ` keeps, the command keeps. -/
theorem execEncRead_keeps {P : State → Prop} (hf : ∀ s, P s → P (encReadStep s)) {s t : State} (h : P s)
    (he : execEncRead s = .next t) : P t := by
  rw [execEncRead_eq he]
  exact untilDone_keeps hf _ (hf s h)

end Sys2Proof.Machine
end

