-- ==== Sys2Proof/Laws/Step.lean ====
section
/-! SUPPORT. Everything a step can do, said once. -/

namespace Sys2Proof.Machine

theorem accessOk_iff (off width : Nat) : Event.accessOk off width = true ↔ width = 4 ∧ off % 4 = 0 ∧ off < 0x200 := by
  simp only [Event.accessOk, Bool.and_eq_true, beq_iff_eq, decide_eq_true_eq, and_assoc]
  rfl

/-- What parameters R9 admits. -/
theorem Params_wf_iff (p : Params) : p.wf = true ↔ p.storeMax % 16 = 0 ∧ p.storeMax ≤ 2 ^ 32 := by
  simp only [Params.wf, Bool.and_eq_true, beq_iff_eq, decide_eq_true_eq]

/-- The core's turn in state `u` led to `t`: nothing while idle; else the command in `st.op`, whole or one core step of
it, or the error completion of an illegal word. -/
def CoreTurned (u t : State) : Prop :=
  u.phase = .idle ∧ t = u ∨
    u.phase = .busy ∧
      ((∃ i, decode u.op = .command i ∧ (exec i u = .next t ∨ execOne i u = .next t)) ∨
        (∃ why, decode u.op = .illegal why) ∧ t = raiseError .illegalCmd 0 u)

theorem coreTurn_cases {u t : State} (h : coreTurn u = .next t) : CoreTurned u t := by
  rw [coreTurn] at h
  cases hp : u.phase with
  | idle =>
    simp only [hp, Host.Outcome.next.injEq] at h
    exact .inl ⟨hp, h.symm⟩
  | busy =>
    simp only [hp, dispatch] at h
    refine .inr ⟨hp, ?_⟩
    cases hd : decode u.op with
    | command i =>
      simp only [hd] at h
      exact .inl ⟨i, rfl, .inl h⟩
    | illegal why =>
      simp only [hd, rejectWord, Host.Outcome.next.injEq] at h
      exact .inr ⟨⟨why, rfl⟩, h.symm⟩

theorem coreAccess_cases {u t : State} (h : coreAccess u = .next t) : CoreTurned u t := by
  rw [coreAccess] at h
  cases hp : u.phase with
  | idle =>
    simp only [hp, Host.Outcome.next.injEq] at h
    exact .inl ⟨hp, h.symm⟩
  | busy =>
    simp only [hp, dispatchOne] at h
    refine .inr ⟨hp, ?_⟩
    cases hd : decode u.op with
    | command i =>
      simp only [hd] at h
      exact .inl ⟨i, rfl, .inr h⟩
    | illegal why =>
      simp only [hd, rejectWord, Host.Outcome.next.injEq] at h
      exact .inr ⟨⟨why, rfl⟩, h.symm⟩

/-- A step that answers a next state was a host write, a host read, a reset, or the core's turn. -/
theorem step_cases {s t : State} (h : step s = .next t) :
    (∃ off w rest, s.events = .write off 4 w :: rest ∧ off % 4 = 0 ∧ off < 0x200 ∧
        t = hostWrite (hostReg (wordIndex off)) w { s with events := rest }) ∨
      (∃ off rest, s.events = .read off 4 :: rest ∧ off % 4 = 0 ∧ off < 0x200 ∧
        t = hostRead (hostReg (wordIndex off)) { s with events := rest }) ∨
      (∃ f rest, s.events = .reset f :: rest ∧ t = resetEvent f { s with events := rest }) ∨
      ∃ rest, CoreTurned { s with events := rest } t := by
  rw [step, nextEvent] at h
  cases he : s.events with
  | nil =>
    simp only [he] at h
    exact .inr (.inr (.inr ⟨s.events, coreTurn_cases h⟩))
  | cons e rest =>
    simp only [he] at h
    cases e with
    | write off width w =>
      simp only [handleEvent, hostAccess] at h
      split_ifs at h with hok
      obtain ⟨rfl, h1, h2⟩ := (accessOk_iff off width).mp hok
      simp only [Host.Outcome.next.injEq] at h
      exact .inl ⟨off, w, rest, rfl, h1, h2, h.symm⟩
    | read off width =>
      simp only [handleEvent, hostAccess] at h
      split_ifs at h with hok
      obtain ⟨rfl, h1, h2⟩ := (accessOk_iff off width).mp hok
      simp only [Host.Outcome.next.injEq] at h
      exact .inr (.inl ⟨off, rest, rfl, h1, h2, h.symm⟩)
    | turn => exact .inr (.inr (.inr ⟨rest, coreTurn_cases h⟩))
    | access => exact .inr (.inr (.inr ⟨rest, coreAccess_cases h⟩))
    | reset f =>
      simp only [handleEvent, Host.Outcome.next.injEq] at h
      exact .inr (.inr (.inl ⟨f, rest, rfl, h.symm⟩))

/-- A whole command or one core step of it: a property that every core step keeps is kept by both. -/
theorem command_keeps {P : State → Prop} {i : Instr} {s t : State} (h : exec i s = .next t ∨ execOne i s = .next t)
    (hw : i = .encWrite → ∀ u, P u → P (encWriteStep u)) (hr : i = .encRead → ∀ u, P u → P (encReadStep u))
    (ho : i ≠ .encWrite → i ≠ .encRead → exec i s = .next t → P t) (hs : P s) : P t := by
  cases i
  case encWrite =>
    rcases h with h | h
    · exact execEncWrite_keeps (hw rfl) hs h
    · simp only [execOne, Host.Outcome.next.injEq] at h
      exact h ▸ hw rfl s hs
  case encRead =>
    rcases h with h | h
    · exact execEncRead_keeps (hr rfl) hs h
    · simp only [execOne, Host.Outcome.next.injEq] at h
      exact h ▸ hr rfl s hs
  all_goals exact ho (by simp) (by simp) (h.elim id id)

/-- What a host write does while the core is idle or busy. -/
theorem hostWrite_cases (r : HostReg) (w : Word) (s : State) :
    s.phase = .busy ∧ hostWrite r w s = { s with status := { s.status with ign := true } } ∨
      s.phase = .idle ∧ hostWrite r w s = s.writeReg w r := by
  cases hp : s.phase <;> simp [hostWrite, hp]

end Sys2Proof.Machine
end

