-- ==== Sys2Proof/Tests/Slice0.lean ====
section
/-! SUPPORT. The model's own tests. Every expected value is taken from 95_test_vectors.md (the row is named beside it)
or from the rule named; and, for each statement that has hypotheses, a state that meets them all. -/

namespace Sys2Proof.Tests

-- One theorem at a time: their evaluations together would take more memory than the check allows.
set_option Elab.async false

open Sys2Proof Sys2Proof.Machine

/-! ### Small states -/

/-- A Block whose bytes are printed in order, byte 0 first, as 95_test_vectors.md prints them. -/
def blockHex (n : Nat) : Block := revBytes (BitVec.ofNat 128 n)

/-- The parameters of 95_test_vectors.md section 0. -/
def params (c : Cipher) : Params := { storeMax := 0x100, rawOk := 0, cipher := c, cachesKeySchedule := true }

/-- The raw store answers `RAW_OK`. -/
def ok : RawAnswer := { status := 0, residue := 0 }

/-- The raw store answers `s`; a failed write leaves `r`. -/
def bad (s : Word) (r : Block) : RawAnswer := { status := s, residue := r }

/-- Reset, with the first answers of the raw store scripted. -/
def toy (answers : List RawAnswer) : State := { State.resetOf (params .toy) with answers := answers }

/-- The TOY keys of 95_test_vectors.md section 0. -/
def tke : Block := blockHex 0xa0a1a2a3a4a5a6a7a8a9aaabacadaeaf
def tkt : Block := blockHex 0x00102030405060708090a0b0c0d0e0f0

/-- A caller's buffer that starts with `bytes`. -/
def bufOf (bytes : List Byte) : Vector Byte 256 := Vector.ofFn fun i => bytes.getD i 0

/-- `s` busy with the command word `w`. -/
def busy (w : Word) (s : State) : State := { s with phase := .busy, op := w }

/-- Program P7's `ENC_WRITE` of "HELLO" at 0x0E, just accepted. -/
def hello (answers : List RawAnswer) : State :=
  busy 0x00000008 { toy answers with
    ke := tke, kt := tkt, addr := 0x0E, len := 5, databuf := bufOf [0x48, 0x45, 0x4C, 0x4C, 0x4F] }

/-- An `ENC_READ` of 8 bytes at 0x0C under the TOY keys, just accepted. -/
def readEight (answers : List RawAnswer) : State :=
  busy 0x00000009 { toy answers with ke := tke, kt := tkt, addr := 0x0C, len := 8 }

/-- The next state of an outcome; reset where there is none. -/
def after (o : Host.Outcome State Fault Refusal) : State :=
  match o with
  | .next t => t
  | .fault _ => toy []
  | .refused _ => toy []

/-- Was the outcome a refusal. -/
def refused (o : Host.Outcome State Fault Refusal) : Bool :=
  match o with
  | .next _ => false
  | .fault _ => false
  | .refused _ => true

/-- `n` steps over the events `es`. -/
def runEvents (es : List Event) (n : Nat) (s : State) : State :=
  (fun u => after (step u))^[n] { s with events := es }

/-- A state whose registers all differ. -/
def filled : State :=
  { toy [] with
    rawstat := 0x00000007
    addr := 0x11223344
    len := 0x55
    seq := 0x66778899
    tweak := blockHex 0x000102030405060708090a0b0c0d0e0f
    din := blockHex 0x101112131415161718191a1b1c1d1e1f
    dout := blockHex 0x202122232425262728292a2b2c2d2e2f
    keyio := blobOf fun i => BitVec.ofNat 8 (0x40 + i)
    databuf := Vector.ofFn fun i => BitVec.ofNat 8 i
    status := { done := true, err := true, knz := true, ign := true, eclass := .rawWrite } }

/-! ### What is well-formed -/

theorem test_misaligned_access_ill_formed : Event.wf (.write 0x00D 4 0) = false := by decide
theorem test_narrow_access_ill_formed : Event.wf (.read 0x00C 1) = false := by decide
theorem test_offset_past_window_ill_formed : Event.wf (.read 0x200 4) = false := by decide
theorem test_last_offset_well_formed : Event.wf (.read 0x1FC 4) = true := by decide
theorem test_ragged_store_ill_formed :
    Params.wf { storeMax := 24, rawOk := 0, cipher := .toy, cachesKeySchedule := false } = false := by decide
theorem test_large_store_ill_formed :
    Params.wf { storeMax := 2 ^ 32 + 16, rawOk := 0, cipher := .toy, cachesKeySchedule := false } = false := by decide
theorem test_command_well_formed : Instr.wf .encRead = true := by decide

/-! ### Decoding: every word written out from 30_encoding.md R90 and R92 -/

theorem test_decode_gf_dbl : decode 0b00000000000000000000000000000001 = .command .gfDbl := by decide
theorem test_decode_xex_enc : decode 0b00000000000000000000000000000010 = .command .xexEnc := by decide
theorem test_decode_xex_dec : decode 0b00000000000000000000000000000011 = .command .xexDec := by decide
theorem test_decode_set_key : decode 0b00000000000000000000000000000100 = .command .setKey := by decide
theorem test_decode_get_key : decode 0b00000000000000000000000000000101 = .command .getKey := by decide
theorem test_decode_clear_key : decode 0b00000000000000000000000000000110 = .command .clearKey := by decide
theorem test_decode_key_nz : decode 0b00000000000000000000000000000111 = .command .keyNz := by decide
theorem test_decode_enc_write : decode 0b00000000000000000000000000001000 = .command .encWrite := by decide
theorem test_decode_enc_read : decode 0b00000000000000000000000000001001 = .command .encRead := by decide
/-- E1, E2. -/
theorem test_decode_reserved_opcodes :
    [0x0, 0xA, 0xB, 0xC, 0xD, 0xE, 0xF].all (fun w => decide (decode w = .illegal .reservedOpcode)) := by decide
/-- E3. -/
theorem test_decode_reserved_bits :
    decode 0x00000011 = .illegal .reservedBits ∧ decode 0x80000001 = .illegal .reservedBits := by decide

/-! ### Doubler -/

/-- G5 and G10. -/
theorem test_gf_dbl_reduces :
    (after (exec .gfDbl { toy [] with din := blockHex 0x80 })).dout =
        blockHex 0x87000000000000000000000000000000 ∧
      (after (exec .gfDbl { toy [] with din := blockHex 0xaaaaaaaaaaaaaaaaaaaaaaaaaaaaaaaa })).dout =
        blockHex 0xd3555555555555555555555555555555 := by decide +kernel
/-- Section 2.2, k = 16 and k = 129. -/
theorem test_dbl_powers :
    dblPow 16 1 = blockHex 0x00000100000000000000000000000000 ∧
      dblPow 129 1 = blockHex 0x0e010000000000000000000000000000 := by decide +kernel
/-- Section 2.3. -/
theorem test_halve :
    halve (blockHex 0x87000000000000000000000000000000) = blockHex 0x80 ∧
      halve (blockHex 0x79ffffffffffffffffffffffffffffff) = blockHex 0xffffffffffffffffffffffffffffffff := by
  decide +kernel

/-! ### XEX engine -/

/-- The operands of T2 to T4. -/
def xexToy (q : Word) (d : Block) : State :=
  { toy [] with ke := tke, kt := tkt, tweak := blockHex 0x10000000000000000000000000000000, seq := q, din := d }

/-- T4. -/
theorem test_xex_enc_toy :
    (after (exec .xexEnc (xexToy 2 (blockHex 0x000102030405060708090a0b0c0d0e0f)))).dout =
      blockHex 0xa56d6c6d6d6c6c6f6f6c6c6d6d6c6da5 := by decide +kernel
/-- T3, read backwards. -/
theorem test_xex_dec_toy :
    (after (exec .xexDec (xexToy 0 (blockHex 0x4f5f5f5f5f5f5f5f5f5f5f5f5f5f5f4f)))).dout =
      blockHex 0x000102030405060708090a0b0c0d0e0f := by decide +kernel
/-- V-AES. -/
theorem test_aes_encrypt :
    aesEncrypt (blockHex 0x000102030405060708090a0b0c0d0e0f) (blockHex 0x00112233445566778899aabbccddeeff) =
      blockHex 0x69c4e0d86a7b0430d8cdb78070b4c55a := by decide +kernel
/-- X2. -/
theorem test_xex_enc_aes :
    xexEncrypt .aes128 (blockHex 0x000102030405060708090a0b0c0d0e0f) (blockHex 0x101112131415161718191a1b1c1d1e1f)
        (blockHex 0x0f0e0d0c0b0a09080706050403020100) 1 (blockHex 0x00112233445566778899aabbccddeeff) =
      blockHex 0x4316f6b4f5985227da52bb14743100c1 := by decide +kernel
/-- X11. -/
theorem test_xex_dec_aes :
    xexDecrypt .aes128 (blockHex 0x000102030405060708090a0b0c0d0e0f) (blockHex 0x101112131415161718191a1b1c1d1e1f)
        (blockHex 0x0f0e0d0c0b0a09080706050403020100) 1 0 =
      blockHex 0xb06790f31ce13042a1a73992f87ae578 := by decide +kernel

/-! ### Key state -/

/-- 43_key_state.md R200's example. -/
theorem test_set_key :
    (after (exec .setKey { toy [] with keyio := blobOf fun i => BitVec.ofNat 8 i })).ke =
        blockHex 0x000102030405060708090a0b0c0d0e0f ∧
      (after (exec .setKey { toy [] with keyio := blobOf fun i => BitVec.ofNat 8 i })).kt =
        blockHex 0x101112131415161718191a1b1c1d1e1f := by decide +kernel
/-- 43_key_state.md R202's example: `KEYIO4`. -/
theorem test_get_key :
    wordAt (after (exec .getKey { toy [] with
      ke := blockHex 0x000102030405060708090a0b0c0d0e0f,
      kt := blockHex 0x101112131415161718191a1b1c1d1e1f })).keyio 4 = 0x13121110 := by decide +kernel
/-- K4: the key is zero and `KNZ` is stale. -/
theorem test_clear_key :
    (after (exec .clearKey filled)).keyio = 0 ∧
      (after (exec .clearKey { toy [] with
        ke := 1, status := { done := false, err := false, knz := true, ign := false, eclass := .none } })).statusWord =
        0x0000000A := by decide +kernel
/-- K3, K7 and K9. -/
theorem test_key_nz :
    (after (exec .keyNz { toy [] with kt := 1 })).statusWord = 0x0000000A ∧
      (after (exec .keyNz { toy [] with ke := BitVec.ofNat 128 (2 ^ 127) })).statusWord = 0x0000000A ∧
      (after (exec .keyNz { toy [] with keyio := 1 })).statusWord = 0x00000002 := by decide +kernel

/-! ### Translator -/

/-- P7: the store after "HELLO" at 0x0E, and the raw log `RD0 WR0 RD10 WR10`. -/
theorem test_enc_write :
    let t := after (exec .encWrite (hello [ok, ok, ok, ok]))
    readBlock t.sm 0x00 = blockHex 0x83080000000000000000000000000000 ∧
      readBlock t.sm 0x10 = blockHex 0x000000000000000000000000000303a5 ∧
      t.traffic = [(false, 0x00), (true, 0x00), (false, 0x10), (true, 0x10)] ∧ t.statusWord = 0x00000002 := by
  decide +kernel
/-- Section 4.3 (TOY): the plaintext of the zero store at 0x0C .. 0x13. -/
theorem test_enc_read :
    let t := after (exec .encRead (readEight [ok, ok]))
    (List.range 9).map (bufByte t.databuf) = [0x42, 0x43, 0x40, 0xc6, 0xe9, 0x4f, 0x4c, 0x4d, 0x00] ∧
      t.traffic = [(false, 0x00), (false, 0x10)] := by decide +kernel
/-- E6, E7: the error classes and `RAWSTAT`. -/
theorem test_raw_errors :
    (after (exec .encWrite (hello [ok, ok, bad 2 0]))).statusWord = 0x00000406 ∧
      (after (exec .encWrite (hello [ok, bad 7 5]))).statusWord = 0x00000506 ∧
      (after (exec .encWrite (hello [ok, bad 7 5]))).rawstat = 7 := by decide +kernel
/-- E4, E5 and 4.1: the checks at their boundaries. -/
theorem test_range_checks :
    ({ toy [] with addr := 0xFFFFFFF1, len := 16 } : State).rangeError = some .range ∧
      ({ toy [] with addr := 0xFFFFFFF1, len := 15 } : State).rangeError = none ∧
      ({ toy [] with addr := 0xFFFFFFF1, len := 0 } : State).rangeError = some .zeroLen := by decide +kernel
/-- 4.1: the largest block range. -/
theorem test_block_range :
    ({ toy [] with addr := 0x1F, len := 255 } : State).firstBlock = 0x10 ∧
      ({ toy [] with addr := 0x1F, len := 255 } : State).lastBlock = 0x110 ∧
      ({ toy [] with addr := 0x1F, len := 255 } : State).blockCount = 17 := by decide +kernel
/-- W7. -/
theorem test_tweak_of_a_block : tweakOf 0x12345670 = blockHex 0x70563412000000000000000000000000 := by decide +kernel

/-! ### Host port and lifecycle -/

/-- E15, E16 and 10_state.md R23: what an idle read returns, at the first and last offset of every row of the map. -/
def idleReads : List (Nat × Word) :=
  [(0x000, 0), (0x004, 0x0000051E), (0x008, 0x00000007), (0x00C, 0x11223344), (0x010, 0x00000055),
   (0x014, 0x66778899), (0x018, 0), (0x01C, 0)] ++
  [(0x020, 0x03020100), (0x02C, 0x0F0E0D0C), (0x030, 0x13121110), (0x03C, 0x1F1E1D1C), (0x040, 0x23222120),
   (0x04C, 0x2F2E2D2C), (0x050, 0), (0x05C, 0)] ++
  [(0x060, 0x43424140), (0x07C, 0x5F5E5D5C), (0x080, 0), (0x0FC, 0), (0x100, 0x03020100), (0x1FC, 0xFFFEFDFC)]

theorem test_idle_reads :
    idleReads.all (fun x => decide ((runEvents [rd x.1] 1 filled).hostReads = [x.2])) = true := by decide +kernel

/-- 20_memory.md R65: the offsets whose busy reads are exact. -/
theorem test_busy_reads :
    (idleReads.filter fun x => decide (x.1 < 0x040 ∧ 0x008 < x.1)).all (fun x =>
      decide ((runEvents [rd x.1] 1 (busy 1 filled)).hostReads = [x.2])) = true := by decide +kernel

/-- 20_memory.md R62, R63, E16, E17: a word written and read back at the first and last offset of every row. -/
theorem test_writes_read_back :
    [0x00C, 0x014, 0x020, 0x02C, 0x030, 0x03C, 0x060, 0x07C, 0x100, 0x1FC].all (fun o =>
        decide ((runEvents [wr o 0xA1B2C3D4, rd o] 2 filled).hostReads = [0xA1B2C3D4])) = true ∧
      (runEvents [wr 0x010 0x000001FF, rd 0x010] 2 filled).hostReads = [0x000000FF] ∧
      (runEvents [wr 0x040 0x12345678, rd 0x040] 2 filled).hostReads = [0x23222120] ∧
      (runEvents [wr 0x008 0xFFFFFFFF, rd 0x008] 2 filled).hostReads = [0x00000007] := by decide +kernel

/-- E18: `STATUS` bits cleared by writing 1. -/
theorem test_status_w1c :
    (runEvents [wr 0x004 0xFFFFFFFF, rd 0x004] 2 filled).hostReads = [0x00000508] ∧
      (runEvents [wr 0x004 0x00000006, rd 0x004] 2 filled).hostReads = [0x00000518] := by decide +kernel

/-- E1, E8, E9 in one program. -/
theorem test_illegal_word_lifecycle :
    (runEvents ([wr 0x000 0] ++ poll 0 ++ [wr 0x004 6, rd 0x004] ++ run .gfDbl 1) 9 (toy [])).hostReads =
      [0x00000106, 0x00000100, 0x00000001, 0x00000002] := by decide +kernel

/-- P8, outcomes A and B: a write that races with the command. -/
theorem test_write_while_busy :
    (runEvents (cmd .clearKey ++ [wr 0x00C 0x40, .turn, rd 0x004, rd 0x00C]) 5 (toy [])).hostReads =
        [0x00000012, 0x00000000] ∧
      (runEvents (cmd .clearKey ++ [.turn, wr 0x00C 0x40, rd 0x004, rd 0x00C]) 5 (toy [])).hostReads =
        [0x00000002, 0x00000040] := by decide +kernel

/-- 30_encoding.md R98, R99: `wrbytes` packs the last word with zeros. -/
theorem test_wrbytes : wrBytes 0x100 [0x48, 0x45, 0x4C, 0x4C, 0x4F] = [wr 0x100 0x4C4C4548, wr 0x104 0x0000004F] ∧
    rdBytes 0x100 8 = [rd 0x100, rd 0x104] := by decide +kernel

/-- 70_reset_and_hazards.md R261: reset after the first block is written, a write in flight on the second. -/
theorem test_reset_in_flight :
    let t := runEvents [.access, .access, .access, .reset true] 4 (hello [ok, ok, ok, bad 0 (blockHex 0x99)])
    readBlock t.sm 0x00 = blockHex 0x83080000000000000000000000000000 ∧
      readBlock t.sm 0x10 = blockHex 0x99 ∧ t.ke = 0 ∧ t.statusWord = 0 := by decide +kernel

/-- 20_memory.md R69: the last block of the store answers as scripted, the block after it with an error. -/
theorem test_store_bounds :
    (toy [ok]).answerStatus 0x000000F0 = 0 ∧ outOfStore (params .toy) 0x000000F0 = false ∧
      outOfStore (params .toy) 0x00000100 = true ∧ (toy [bad 9 0]).answerStatus 0x00000100 = 9 := by decide +kernel

/-- The canonical form of the store's contents. -/
theorem test_memory_form :
    writeByte (writeByte (writeByte [] 5 1) 3 2) 5 0 = [(3, 2)] ∧ Memory.wf [(3, 2), (5, 1)] = true ∧
      Memory.wf [(5, 1), (3, 2)] = false ∧ Memory.wf [(3, 0)] = false := by decide

/-! ### The hypotheses of the statements can be met -/

theorem meets_IllegalWordsHaveNoOtherEffect :
    (∃ why, decode 0x0000000A = .illegal why) ∧ (∃ why, decode 0x00000011 = .illegal why) ∧
      (let s := { toy [] with events := [wr 0x000 0x0000000A] }
       s.phase = .idle ∧ s.events = .write 0x000 4 0x0000000A :: []) ∧
      (let s := { busy 0x00000011 (toy []) with events := [.turn] }
       s.phase = .busy ∧ s.op = 0x00000011 ∧ s.events = .turn :: []) :=
  ⟨⟨_, rfl⟩, ⟨_, rfl⟩, ⟨rfl, rfl⟩, rfl, rfl, rfl⟩

theorem meets_StepRunsTheDecodedCommand :
    (let s := busy 0x00000001 (toy [])
     s.phase = .busy ∧ decode s.op = .command .gfDbl ∧ s.events = []) ∧
      (let s := { hello [ok] with events := [.access] }
       s.phase = .busy ∧ decode s.op = .command .encWrite ∧ s.events = .access :: []) ∧
      (let s := { readEight [ok] with events := [.turn] }
       s.phase = .busy ∧ decode s.op = .command .encRead ∧ s.events = .turn :: []) ∧
      (let s := { busy 0x0000000F (toy []) with events := [.turn] }
       s.phase = .busy ∧ decode s.op = .illegal .reservedOpcode ∧ s.events = .turn :: []) := by decide +kernel

theorem meets_StepTakesTheNextEvent :
    (Event.accessOk 0x000 4 = true ∧ { toy [] with events := [wr 0x000 1] }.events = .write 0x000 4 1 :: []) ∧
      (Event.accessOk 0x1FC 4 = true ∧ { toy [] with events := [rd 0x1FC] }.events = .read 0x1FC 4 :: []) ∧
      { toy [] with events := [.reset true] }.events = .reset true :: [] ∧
      (toy []).phase = .idle ∧ (toy []).events = [] ∧
      { toy [] with events := [.turn] }.events = .turn :: [] ∧
      { toy [] with events := [.access] }.events = .access :: [] := by decide +kernel

theorem meets_OnlyAccessesOutsideTheInterfaceAreRefused :
    ¬(2 = 4 ∧ 0x00C % 4 = 0 ∧ 0x00C < 0x200) ∧ ¬(4 = 4 ∧ 0x002 % 4 = 0 ∧ 0x002 < 0x200) ∧
      ¬(4 = 4 ∧ 0x200 % 4 = 0 ∧ 0x200 < 0x200) ∧
      refused (step { toy [] with events := [.write 0x00C 2 0] }) = true ∧
      refused (step { toy [] with events := [.read 0x002 4] }) = true ∧
      refused (step { toy [] with events := [.read 0x200 4] }) = true ∧
      refused (step { toy [] with events := [.read 0x1FC 4] }) = false := by decide +kernel

theorem meets_AcceptanceOfACommandWord :
    (let s := { toy [] with events := [wr 0x000 9] }
     s.events = .write 0x000 4 9 :: [] ∧ s.phase = .idle) ∧
      (let s := { hello [] with events := [wr 0x000 9] }
       s.events = .write 0x000 4 9 :: [] ∧ s.phase = .busy) := by decide +kernel

/-- Every offset of the window can be written and read, idle and busy: the first, the last, and each clause's ends. -/
theorem meets_host_accesses :
    [0x000, 0x004, 0x008, 0x00C, 0x010, 0x014, 0x018, 0x01C, 0x020, 0x02C, 0x030, 0x03C, 0x040, 0x04C, 0x050, 0x05C,
      0x060, 0x07C, 0x080, 0x0FC, 0x100, 0x1FC].all (fun o =>
      decide (o % 4 = 0 ∧ o < 0x200 ∧
        { filled with events := [rd o] }.phase = .idle ∧ { filled with events := [rd o] }.events = .read o 4 :: [] ∧
        { filled with events := [wr o 5] }.phase = .idle ∧
        { filled with events := [wr o 5] }.events = .write o 4 5 :: [] ∧
        { busy 8 filled with events := [rd o] }.phase = .busy ∧
        { busy 8 filled with events := [rd o] }.events = .read o 4 :: [] ∧
        { busy 8 filled with events := [wr o 5] }.phase = .busy ∧
        { busy 8 filled with events := [wr o 5] }.events = .write o 4 5 :: [])) = true := by decide +kernel

/-- A state that keeps `StatusInv` while busy, as `BusyHostReads` asks. -/
theorem meets_StatusInv : StatusInv (hello []) ∧ (hello []).phase = .busy := by
  unfold StatusInv
  decide +kernel

/-- Each error class is that of some state, and a core is busy in some state. -/
theorem meets_StatusWordLayout :
    (∀ c ∈ [ErrClass.none, .illegalCmd, .zeroLen, .range, .rawRead, .rawWrite],
      (raiseError c 0 (toy [])).status.eclass = c) ∧ (hello []).phase = .busy := by decide +kernel

theorem meets_ResetEventResetsTheCore :
    { hello [] with events := [.reset false] }.events = .reset false :: [] := rfl

/-- The state of `test_reset_in_flight` just before the reset. -/
theorem meets_ResetDuringACommandKeepsTheOtherBlocks :
    let s := runEvents [.access, .access, .access, .reset true] 3 (hello [ok, ok, ok])
    s.events = .reset true :: [] ∧ Memory.wf s.sm = true ∧ s.stage = .write ∧ s.iter.b = 0x10 := by decide +kernel

theorem meets_ErrorCompletion : ∃ t, t = raiseError .rawRead 2 (hello []) := ⟨_, rfl⟩

theorem meets_XexDecDecryptsDin :
    ∃ t u, exec .xexDec (xexToy 1 5) = .next t ∧ exec .xexEnc { t with din := t.dout } = .next u := ⟨_, _, rfl, rfl⟩

theorem meets_ResultsDoNotDependOnTheCache : ∃ t, exec .encWrite (hello [ok, ok, ok, ok]) = .next t := ⟨_, rfl⟩

theorem meets_KeyNzTestsEveryKeyByte : ∃ t, Instr.setKey ≠ .keyNz ∧ exec .setKey filled = .next t :=
  ⟨_, by decide, rfl⟩

theorem meets_SetKeyAndGetKeyAreInverse :
    (∃ t u v, exec .setKey filled = .next t ∧ u = { t with keyio := 0 } ∧ u.ke = t.ke ∧ u.kt = t.kt ∧
        exec .getKey u = .next v) ∧
      ∃ t u v, exec .getKey filled = .next t ∧ u = { t with ke := 0, kt := 0 } ∧ u.keyio = t.keyio ∧
        exec .setKey u = .next v :=
  ⟨⟨_, _, _, rfl, rfl, rfl, rfl, rfl⟩, _, _, _, rfl, rfl, rfl, rfl⟩

theorem meets_ClearKeyIsIdempotent :
    ∃ t u v, exec .clearKey filled = .next t ∧ exec .clearKey t = .next u ∧ exec .keyNz u = .next v :=
  ⟨_, _, _, rfl, rfl, rfl⟩

/-- A zero length, and a range one byte too long. -/
theorem meets_RangeChecksComeFirst :
    (toy []).stage = .start ∧ ¬(toy []).rangeOk ∧
      ¬({ toy [] with addr := 0xFFFFFFF1, len := 16 } : State).rangeOk := by
  unfold State.rangeOk
  decide +kernel

/-- A range that ends at 0xFFFFFFFF, one of 17 blocks, and the one of `hello`. -/
theorem meets_BlockRangeOfACommand :
    ({ toy [] with addr := 0xFFFFFFF1, len := 15 } : State).rangeOk ∧
      ({ toy [] with addr := 0x1F, len := 255 } : State).rangeOk ∧ (hello []).rangeOk := by
  unfold State.rangeOk
  decide +kernel

theorem meets_TweakIsTheBlockAddress :
    ∃ mask, mask = dbl (bcEnc (hello []).params.cipher (hello []).kt (tweakOf 0xFFFFFFF0)) ∧
      tweakOf 0xFFFFFFF0 = tweakOf 0xFFFFFFF0 := ⟨_, rfl, rfl⟩

theorem meets_EncWriteCompletes :
    let s := hello [ok, ok, ok, ok]
    s.stage = .start ∧ s.rangeOk ∧ Memory.wf s.sm = true ∧
      (s.address + s.length - 1) / 16 * 16 + 16 ≤ s.params.storeMax ∧ s.scriptedOk (2 * s.blockCount) := by
  unfold State.rangeOk State.scriptedOk
  decide +kernel

theorem meets_EncReadCompletes :
    let s := readEight [ok, ok]
    s.stage = .start ∧ s.rangeOk ∧ (s.address + s.length - 1) / 16 * 16 + 16 ≤ s.params.storeMax ∧
      s.scriptedOk s.blockCount := by
  unfold State.rangeOk State.scriptedOk
  decide +kernel

/-- Also of `EncWriteFrame`, `ResultsDoNotDependOnTheCache`, `TranslatorIgnoresTheXexRegisters`,
`ErrorClassesOfEachCommand` and `RawAccessesFollowThePlan`. -/
theorem meets_EncWriteNetEffect :
    ∃ t, (hello [ok, ok, ok, ok]).stage = .start ∧ Memory.wf (hello [ok, ok, ok, ok]).sm = true ∧
      exec .encWrite (hello [ok, ok, ok, ok]) = .next t ∧ t.status.eclass = .none :=
  ⟨_, rfl, rfl, rfl, by decide +kernel⟩

/-- Also of `EncReadFrame`. -/
theorem meets_EncReadNetEffect :
    ∃ t, (readEight [ok, ok]).stage = .start ∧ exec .encRead (readEight [ok, ok]) = .next t ∧
      t.status.eclass = .none := ⟨_, rfl, rfl, by decide +kernel⟩

theorem meets_ReadYourWrite :
    ∃ t u v, exec .encWrite (hello [ok, ok, ok, ok]) = .next t ∧ t.status.eclass = .none ∧
      u = { t with op := 9, answers := [ok, ok], databuf := bufOf [] } ∧ u.stage = .start ∧
      exec .encRead u = .next v ∧ v.status.eclass = .none :=
  ⟨_, _, _, rfl, by decide +kernel, rfl, by decide +kernel, rfl, by decide +kernel⟩

theorem meets_EncWriteRawErrorIsPreciseAtABlock :
    (∃ t, exec .encWrite (hello [ok, ok, bad 2 0]) = .next t ∧ t.status.eclass = .rawRead) ∧
      ∃ t, exec .encWrite (hello [ok, ok, ok, bad 7 1]) = .next t ∧ t.status.eclass = .rawWrite :=
  ⟨⟨_, rfl, by decide +kernel⟩, _, rfl, by decide +kernel⟩

theorem meets_EncReadRawErrorKeepsWhatWasCopied :
    ∃ t, (readEight [ok, bad 3 0]).stage = .start ∧ exec .encRead (readEight [ok, bad 3 0]) = .next t ∧
      t.status.eclass = .rawRead := ⟨_, rfl, rfl, by decide +kernel⟩

/-- A block that ends with the store, and one past it. -/
theorem meets_RequestsBeyondTheStoreFail :
    (toy []).params.storeMax < (0x00000100 : Word).toNat + 16 ∧
      (0x000000F0 : Word).toNat + 16 ≤ (toy []).params.storeMax ∧ (3 : Word) ≠ (toy []).params.rawOk := by
  decide +kernel

/-- A command of four core steps. -/
theorem meets_ACommandIsItsCoreSteps :
    ∃ t, exec .encWrite (hello [ok, ok, ok, ok]) = .next t ∧ (hello [ok, ok, ok, ok]).phase = .busy ∧
      t.rawLog.length = 4 := ⟨_, rfl, rfl, by decide +kernel⟩

theorem meets_EveryCommandCompletes : (hello [ok]).stage = .start := rfl

/-- Every invariant holds of a busy state in the middle of a command, and the machine goes on from it. -/
theorem meets_the_invariants :
    let s := runEvents [.access, .access, .access, .access] 3 (hello [ok, ok, ok, ok])
    StoreInv s ∧ StatusInv s ∧ IteratorInv s ∧ s.stage = .write ∧ (∃ t, step s = .next t) := by
  refine ⟨?_, ?_, ?_, by decide +kernel, _, rfl⟩
  · unfold StoreInv; decide +kernel
  · unfold StatusInv; decide +kernel
  · unfold IteratorInv State.rangeOk State.touches; decide +kernel

theorem meets_CacheInv :
    let s := after (exec .xexEnc (xexToy 1 5))
    CacheInv s ∧ s.ks = some { ke := tke, kt := tkt } ∧ ∃ t, step s = .next t :=
  ⟨fun _ h => (Option.some.inj h).symm, rfl, _, rfl⟩

/-- Also of `ParametersAreFixed`. -/
theorem meets_OnlyKeyCommandsAndResetChangeTheKey :
    ∃ t, step (busy 0x00000006 { toy [] with ke := 1 }) = .next t ∧ t.ke ≠ 1 := ⟨_, rfl, by decide +kernel⟩

theorem meets_OnlyIdleHostWritesAndResetChangeOperands :
    ∃ t, step { toy [] with events := [wr 0x00C 5] } = .next t ∧
      ¬OperandsKept { toy [] with events := [wr 0x00C 5] } t :=
  ⟨_, rfl, fun h => absurd h.1 (by decide +kernel)⟩

theorem meets_OnlyEncWriteChangesTheStore :
    ∃ t, IteratorInv (hello [ok, ok, ok, ok]) ∧ step (hello [ok, ok, ok, ok]) = .next t ∧
      ∃ a, readByte t.sm a ≠ readByte (hello [ok, ok, ok, ok]).sm a :=
  ⟨_, by unfold IteratorInv State.rangeOk State.touches; decide +kernel, rfl, 0, by decide +kernel⟩

/-- 10_state.md R50 over concrete parameters: the machine the tests start from. -/
theorem test_reset_is_idle : (toy []).phase = .idle ∧ (toy []).statusWord = 0 ∧ Memory.wf (toy []).sm = true := by
  decide +kernel

end Sys2Proof.Tests
end

/-! ## What a step does with the next event, and what every step leaves alone (00_scope.md R7, R9, R10) -/

namespace Sys2Proof.Machine

/-! ### The step as an equation, per head of the event queue (60_exceptions.md R231) -/

theorem step_of_event {s : State} {e : Event} {rest : List Event} (h : s.events = e :: rest) :
    step s = handleEvent e { s with events := rest } := by
  simp only [step, nextEvent, h]

theorem step_of_no_event {s : State} (h : s.events = []) : step s = coreTurn s := by
  simp only [step, nextEvent, h]

theorem hostAccess_of_accessOk {off width : Nat} (h : Event.accessOk off width = true)
    (effect : HostReg → State → State) (s : State) :
    hostAccess off width effect s = .next (effect (hostReg (wordIndex off)) s) := if_pos h

theorem coreTurn_of_idle {s : State} (h : s.phase = .idle) : coreTurn s = .next s := by
  simp only [coreTurn, h]

theorem coreAccess_of_idle {s : State} (h : s.phase = .idle) : coreAccess s = .next s := by
  simp only [coreAccess, h]

/-- Settles O5: the event at the head of the queue decides the step, and an idle core's turn does nothing. -/
theorem stepTakesTheNextEvent : Obligations.StepTakesTheNextEvent := by
  intro s rest
  refine ⟨fun off w hok he => ?write, fun off hok he => ?read, fun f he => step_of_event he,
    fun hp he => ?noEvent, fun e hp hturn he => ?turn⟩
  case write => exact (step_of_event he).trans (hostAccess_of_accessOk hok (fun r => hostWrite r w) _)
  case read => exact (step_of_event he).trans (hostAccess_of_accessOk hok hostRead _)
  case noEvent => exact (step_of_no_event he).trans (coreTurn_of_idle hp)
  case turn =>
    obtain rfl | rfl := hturn
    · exact (step_of_event he).trans (coreTurn_of_idle hp)
    · exact (step_of_event he).trans (coreAccess_of_idle hp)

/-! ### No command touches what is outside the core -/

theorem OutsideKept.refl (s : State) : OutsideKept s s := ⟨rfl, rfl, rfl, rfl⟩

theorem OutsideKept.trans {s t u : State} (hst : OutsideKept s t) (htu : OutsideKept t u) : OutsideKept s u := by
  obtain ⟨op, params, events, reads⟩ := hst
  obtain ⟨op', params', events', reads'⟩ := htu
  exact ⟨op'.trans op, params'.trans params, events'.trans events, reads'.trans reads⟩

theorem raiseError_outsideKept (c : ErrClass) (raw : Word) (s : State) : OutsideKept s (raiseError c raw s) :=
  ⟨rfl, rfl, rfl, rfl⟩

theorem memRead_outsideKept (b : Word) (s : State) : OutsideKept s (memRead b s) := ⟨rfl, rfl, rfl, rfl⟩

theorem memWrite_outsideKept (b : Word) (d : Block) (s : State) : OutsideKept s (memWrite b d s) :=
  ⟨rfl, rfl, rfl, rfl⟩

theorem decryptScratch_outsideKept (d : Block) (s : State) : OutsideKept s (decryptScratch d s) :=
  ⟨rfl, rfl, rfl, rfl⟩

theorem overlayScratch_outsideKept (s : State) : OutsideKept s (overlayScratch s) := ⟨rfl, rfl, rfl, rfl⟩

theorem advance_outsideKept (s : State) : OutsideKept s (advance s) := by
  obtain ⟨-, h⟩ | ⟨-, h⟩ := advance_cases s
  · exact h ▸ ⟨rfl, rfl, rfl, rfl⟩
  · exact h ▸ ⟨rfl, rfl, rfl, rfl⟩

theorem copyScratch_outsideKept (s : State) : OutsideKept s (copyScratch s) := advance_outsideKept _

theorem ReadsFrom.outsideKept {s u : State} (h : ReadsFrom s u) : OutsideKept s u := by
  obtain ⟨-, rfl⟩ | ⟨-, -, rfl⟩ := h
  · exact .refl u
  · exact ⟨rfl, rfl, rfl, rfl⟩

theorem readCurrent_outsideKept {use : State → State} (huse : ∀ u, OutsideKept u (use u)) (s : State) :
    OutsideKept s (readCurrent use s) := by
  have hread := memRead_outsideKept s.iter.b s
  obtain ⟨-, h⟩ | ⟨-, h⟩ := readCurrent_cases use s
  · exact h ▸ hread.trans (raiseError_outsideKept _ _ _)
  · exact h ▸ (hread.trans (decryptScratch_outsideKept _ _)).trans (huse _)

theorem writeCurrent_outsideKept (s : State) : OutsideKept s (writeCurrent s) := by
  have hwrite := memWrite_outsideKept s.iter.b s.scrC s
  obtain ⟨-, h⟩ | ⟨-, h⟩ := writeCurrent_cases s
  · exact h ▸ hwrite.trans (raiseError_outsideKept _ _ _)
  · exact h ▸ hwrite.trans (advance_outsideKept _)

theorem encWriteStep_outsideKept (s : State) : OutsideKept s (encWriteStep s) := by
  obtain ⟨c, -, -, h⟩ | ⟨u, -, hu, h⟩ | ⟨-, h⟩ := encWriteStep_cases s
  · exact h ▸ raiseError_outsideKept c 0 s
  · exact h ▸ hu.outsideKept.trans (readCurrent_outsideKept overlayScratch_outsideKept u)
  · exact h ▸ writeCurrent_outsideKept s

theorem encReadStep_outsideKept (s : State) : OutsideKept s (encReadStep s) := by
  obtain ⟨c, -, -, h⟩ | ⟨u, hu, h⟩ := encReadStep_cases s
  · exact h ▸ raiseError_outsideKept c 0 s
  · exact h ▸ hu.outsideKept.trans (readCurrent_outsideKept copyScratch_outsideKept u)

/-- A command keeps `OutsideKept` whole and by core steps (30_encoding.md R94). -/
theorem command_outsideKept {i : Instr} {s t : State} (h : exec i s = .next t ∨ execOne i s = .next t) :
    OutsideKept s t := by
  refine command_keeps h (fun _ u hu => hu.trans (encWriteStep_outsideKept u))
    (fun _ u hu => hu.trans (encReadStep_outsideKept u)) (fun hw hr he => ?_) (.refl s)
  cases i with
  | encWrite => exact absurd rfl hw
  | encRead => exact absurd rfl hr
  | gfDbl | xexEnc | xexDec | setKey | getKey | clearKey | keyNz =>
    exact Host.Outcome.next.inj he ▸ ⟨rfl, rfl, rfl, rfl⟩

/-- The core's turn, an illegal command word among its cases (30_encoding.md R96). -/
theorem CoreTurned.outsideKept {s t : State} (h : CoreTurned s t) : OutsideKept s t := by
  obtain ⟨-, rfl⟩ | ⟨-, ⟨i, -, hi⟩ | ⟨-, rfl⟩⟩ := h
  · exact .refl t
  · exact command_outsideKept hi
  · exact raiseError_outsideKept _ _ _

/-! ### No host access and no reset changes the parameters -/

@[simp] theorem writeReg_params (w : Word) (r : HostReg) (s : State) : (s.writeReg w r).params = s.params := by
  cases r <;> rfl

@[simp] theorem hostWrite_params (r : HostReg) (w : Word) (s : State) : (hostWrite r w s).params = s.params := by
  obtain ⟨-, h⟩ | ⟨-, h⟩ := hostWrite_cases r w s
  · rw [h]
  · rw [h, writeReg_params]

@[simp] theorem hostRead_params (r : HostReg) (s : State) : (hostRead r s).params = s.params := rfl

@[simp] theorem abandonWrite_params (f : Bool) (s : State) : (s.abandonWrite f).params = s.params := by
  rw [State.abandonWrite]
  split_ifs
  · exact afterAnswer_params s
  · rfl

@[simp] theorem coreReset_params (s : State) : s.coreReset.params = s.params := rfl

@[simp] theorem resetEvent_params (f : Bool) (s : State) : (resetEvent f s).params = s.params := by
  rw [resetEvent, coreReset_params, abandonWrite_params]

/-- Settles O57, by the four kinds of step. -/
theorem parametersAreFixed : Obligations.ParametersAreFixed := by
  intro s t h
  obtain ⟨off, w, rest, -, -, -, rfl⟩ | ⟨off, rest, -, -, -, rfl⟩ | ⟨f, rest, -, rfl⟩ | ⟨rest, hturn⟩ :=
    step_cases h
  · exact hostWrite_params _ _ _
  · exact hostRead_params _ _
  · exact resetEvent_params _ _
  · obtain ⟨-, params, -, -⟩ := hturn.outsideKept
    exact params

end Sys2Proof.Machine

/-! ## The rules an invariant's proof uses: the kinds of step, and what a core step is made of
(60_exceptions.md R231, 30_encoding.md R102) -/

namespace Sys2Proof.Machine

/-- What the queue's head leaving it, every host access, every reset and every turn of the core keep, a step keeps. -/
theorem step_keeps {P : State → Prop} (hevents : ∀ s rest, P s → P { s with events := rest })
    (hbusy : ∀ s, s.phase = .busy → P s → P { s with status := { s.status with ign := true } })
    (hidle : ∀ r w s, s.phase = .idle → P s → P (s.writeReg w r)) (hread : ∀ r s, P s → P (hostRead r s))
    (hreset : ∀ f s, P (resetEvent f s)) (hturn : ∀ s t, CoreTurned s t → P s → P t) {s t : State}
    (h : step s = .next t) (hs : P s) : P t := by
  obtain ⟨off, w, rest, -, -, -, rfl⟩ | ⟨off, rest, -, -, -, rfl⟩ | ⟨f, rest, -, rfl⟩ | ⟨rest, ht⟩ := step_cases h
  · obtain ⟨hp, h⟩ | ⟨hp, h⟩ := hostWrite_cases (hostReg (wordIndex off)) w { s with events := rest }
    · exact h ▸ hbusy _ hp (hevents s rest hs)
    · exact h ▸ hidle _ w _ hp (hevents s rest hs)
  · exact hread _ _ (hevents s rest hs)
  · exact hreset f _
  · exact hturn _ t ht (hevents s rest hs)

/-- A busy core's command, whole or one core step of it: a property that every core step of a busy core keeps is kept
by both, if an idle core has no raw access pending in it. -/
theorem command_keeps_while_busy {P : State → Prop} (hstart : ∀ u, P u → u.phase = .idle → u.stage = .start)
    {i : Instr} {s t : State} (h : exec i s = .next t ∨ execOne i s = .next t)
    (hw : i = .encWrite → ∀ u, u.phase = .busy → P u → P (encWriteStep u))
    (hr : i = .encRead → ∀ u, u.phase = .busy → P u → P (encReadStep u))
    (ho : i ≠ .encWrite → i ≠ .encRead → exec i s = .next t → P t) (hp : s.phase = .busy) (hs : P s) : P t := by
  have busy_of_pending (u : State) (hu : u.stage ≠ .start) (hP : P u) : u.phase = .busy := by
    cases hphase : u.phase with
    | busy => rfl
    | idle => exact absurd (hstart u hP hphase) hu
  cases i
  case encWrite =>
    rcases h with h | h
    · exact execEncWrite_eq h ▸
        untilDone_keeps_while (fun u hu hP => hw rfl u (busy_of_pending u hu hP) hP) _ (hw rfl s hp hs)
    · exact Host.Outcome.next.inj h ▸ hw rfl s hp hs
  case encRead =>
    rcases h with h | h
    · exact execEncRead_eq h ▸
        untilDone_keeps_while (fun u hu hP => hr rfl u (busy_of_pending u hu hP) hP) _ (hr rfl s hp hs)
    · exact Host.Outcome.next.inj h ▸ hr rfl s hp hs
  all_goals exact ho (by simp) (by simp) (h.elim id id)

/-- The operations a core step of a translator command is made of (42_translator.md R161 to R172) keep `P`. -/
structure KeptByTranslator (P : State → Prop) : Prop where
  raise : ∀ c raw s, P s → P (raiseError c raw s)
  complete : ∀ s, P s → P (complete s)
  iterate : ∀ it st s, P s → P { s with iter := it, stage := st }
  read : ∀ b s, P s → P (memRead b s)
  write : ∀ b d s, P s → P (memWrite b d s)
  decrypt : ∀ d s, P s → P (decryptScratch d s)
  overlay : ∀ s, P s → P (overlayScratch s)
  copy : ∀ buf it s, P s → P { s with databuf := buf, iter := it }

namespace KeptByTranslator

variable {P : State → Prop} (hP : KeptByTranslator P)
include hP

theorem advance (s : State) (h : P s) : P (advance s) := by
  obtain ⟨-, he⟩ | ⟨-, he⟩ := advance_cases s
  · exact he ▸ hP.complete _ (hP.iterate _ s.stage s h)
  · exact he ▸ hP.iterate _ .read s h

theorem copyScratch (s : State) (h : P s) : P (copyScratch s) :=
  hP.advance _ (hP.copy _ _ s h)

theorem readsFrom {s u : State} (hu : ReadsFrom s u) (h : P s) : P u := by
  obtain ⟨-, rfl⟩ | ⟨-, -, rfl⟩ := hu
  · exact h
  · exact hP.iterate _ .read s h

theorem readCurrent {use : State → State} (huse : ∀ u, P u → P (use u)) (s : State) (h : P s) :
    P (readCurrent use s) := by
  have hread := hP.read s.iter.b s h
  obtain ⟨-, he⟩ | ⟨-, he⟩ := readCurrent_cases use s
  · exact he ▸ hP.raise _ _ _ hread
  · exact he ▸ huse _ (hP.decrypt _ _ hread)

theorem writeCurrent (s : State) (h : P s) : P (writeCurrent s) := by
  have hwrite := hP.write s.iter.b s.scrC s h
  obtain ⟨-, he⟩ | ⟨-, he⟩ := writeCurrent_cases s
  · exact he ▸ hP.raise _ _ _ hwrite
  · exact he ▸ hP.advance _ hwrite

theorem encWriteStep (s : State) (h : P s) : P (encWriteStep s) := by
  obtain ⟨c, -, -, he⟩ | ⟨u, -, hu, he⟩ | ⟨-, he⟩ := encWriteStep_cases s
  · exact he ▸ hP.raise c 0 s h
  · exact he ▸ hP.readCurrent hP.overlay u (hP.readsFrom hu h)
  · exact he ▸ hP.writeCurrent s h

theorem encReadStep (s : State) (h : P s) : P (encReadStep s) := by
  obtain ⟨c, -, -, he⟩ | ⟨u, hu, he⟩ := encReadStep_cases s
  · exact he ▸ hP.raise c 0 s h
  · exact he ▸ hP.readCurrent hP.copyScratch u (hP.readsFrom hu h)

/-- What these operations keep, a command keeps, whole or by core steps, if the single-step commands keep it. -/
theorem command {i : Instr} {s t : State} (h : exec i s = .next t ∨ execOne i s = .next t)
    (ho : i ≠ .encWrite → i ≠ .encRead → exec i s = .next t → P t) (hs : P s) : P t :=
  command_keeps h (fun _ => hP.encWriteStep) (fun _ => hP.encReadStep) ho hs

end KeptByTranslator

/-! ### The word of a command that is decoded (30_encoding.md R92, R97) -/

theorem toNat_opcode_of_opcodeMap {n : Nat} {i : Instr} (h : opcodeMap n = some i) : (opcode i).toNat = n := by
  unfold opcodeMap at h
  split at h <;> cases h <;> rfl

theorem toNat_opcField_add (w : Word) : (opcField w).toNat + 16 * (rsvdField w).toNat = w.toNat := by
  simp only [opcField, rsvdField, BitVec.extractLsb'_toNat, Nat.shiftRight_eq_div_pow]
  omega

theorem toNat_encode (i : Instr) : (encode i).toNat = (opcode i).toNat := by cases i <;> rfl

theorem eq_encode_of_decode {w : Word} {i : Instr} (h : decode w = .command i) : w = encode i := by
  unfold decode at h
  split_ifs at h with hr
  split at h
  next j hj =>
    cases h
    apply BitVec.eq_of_toNat_eq
    rw [← toNat_opcField_add, hr, toNat_encode, toNat_opcode_of_opcodeMap hj]
    rfl
  next => cases h

end Sys2Proof.Machine

/-! ## The key and its cached schedules (10_state.md R21, R45, 43_key_state.md R201) -/

namespace Sys2Proof.Machine

/-- The key is unchanged, and the cache is as before or holds that key's schedules. -/
def KeyStateKept (s t : State) : Prop := KeysKept s t ∧ (t.ks = s.ks ∨ t.ks = some { ke := s.ke, kt := s.kt })

theorem KeyStateKept.refl (s : State) : KeyStateKept s s := ⟨⟨rfl, rfl⟩, .inl rfl⟩

theorem KeyStateKept.keepSchedule {s t : State} (h : KeyStateKept s t) : KeyStateKept s (keepSchedule t) := by
  obtain ⟨⟨hke, hkt⟩, hks⟩ := h
  refine ⟨⟨hke, hkt⟩, ?_⟩
  rw [keepSchedule_ks, hke, hkt]
  split_ifs
  · exact .inr rfl
  · exact hks

theorem keyStateKept_keptByTranslator (s : State) : KeptByTranslator (KeyStateKept s) where
  raise _ _ _ h := h
  complete _ h := h
  iterate _ _ _ h := h
  read _ _ h := h
  write _ _ _ h := by simpa [KeyStateKept, KeysKept] using h
  decrypt _ _ h := h.keepSchedule
  overlay _ h := h
  copy _ _ _ h := h

/-- Every command but `SET_KEY` and `CLEAR_KEY` keeps the key state; those two empty the cache (R201). -/
theorem command_keyState {i : Instr} {s t : State} (h : exec i s = .next t ∨ execOne i s = .next t) :
    KeyStateKept s t ∨ (i = .setKey ∨ i = .clearKey) ∧ t.ks = none := by
  cases i with
  | setKey => exact .inr ⟨.inl rfl, Host.Outcome.next.inj (h.elim id id) ▸ rfl⟩
  | clearKey => exact .inr ⟨.inr rfl, Host.Outcome.next.inj (h.elim id id) ▸ rfl⟩
  | encWrite | encRead =>
    exact .inl ((keyStateKept_keptByTranslator s).command h (fun hw hr _ => by simp at hw hr) (.refl s))
  | gfDbl | getKey | keyNz => exact .inl (Host.Outcome.next.inj (h.elim id id) ▸ ⟨⟨rfl, rfl⟩, .inl rfl⟩)
  | xexEnc | xexDec => exact .inl (Host.Outcome.next.inj (h.elim id id) ▸ (KeyStateKept.refl s).keepSchedule)

theorem CoreTurned.keyState {s t : State} (h : CoreTurned s t) :
    KeyStateKept s t ∨ s.phase = .busy ∧ (s.op = encode .setKey ∨ s.op = encode .clearKey) ∧ t.ks = none := by
  obtain ⟨-, rfl⟩ | ⟨hp, ⟨i, hi, h⟩ | ⟨-, rfl⟩⟩ := h
  · exact .inl (.refl t)
  · obtain h | ⟨rfl | rfl, hks⟩ := command_keyState h
    · exact .inl h
    · exact .inr ⟨hp, .inl (eq_encode_of_decode hi), hks⟩
    · exact .inr ⟨hp, .inr (eq_encode_of_decode hi), hks⟩
  · exact .inl (.refl s)

theorem writeReg_keyStateKept (w : Word) (r : HostReg) (s : State) : KeyStateKept s (s.writeReg w r) := by
  unfold State.writeReg
  cases r <;> exact ⟨⟨rfl, rfl⟩, .inl rfl⟩

/-- What a step does to the key state: it keeps it, or it was a reset or one of the two commands that set the key, and
the cache is empty. -/
theorem step_keyState {s t : State} (h : step s = .next t) :
    KeyStateKept s t ∨
      ((∃ f rest, s.events = .reset f :: rest) ∨
        s.phase = .busy ∧ (s.op = encode .setKey ∨ s.op = encode .clearKey)) ∧ t.ks = none := by
  obtain ⟨off, w, rest, -, -, -, rfl⟩ | ⟨off, rest, -, -, -, rfl⟩ | ⟨f, rest, he, rfl⟩ | ⟨rest, ht⟩ := step_cases h
  · obtain ⟨-, h⟩ | ⟨-, h⟩ := hostWrite_cases (hostReg (wordIndex off)) w { s with events := rest }
    · exact .inl (h ▸ .refl s)
    · exact .inl (h ▸ writeReg_keyStateKept w _ _)
  · exact .inl (.refl s)
  · exact .inr ⟨.inl ⟨f, rest, he⟩, rfl⟩
  · obtain h | ⟨hp, hop, hks⟩ := ht.keyState
    · exact .inl h
    · exact .inr ⟨.inr ⟨hp, hop⟩, hks⟩

theorem KeyStateKept.cacheInv {s t : State} (h : KeyStateKept s t) (hs : CacheInv s) : CacheInv t := by
  obtain ⟨⟨hke, hkt⟩, hks⟩ := h
  intro k hk
  rw [hke, hkt]
  obtain hks | hks := hks
  · exact hs k (hks ▸ hk)
  · exact Option.some.inj (hk.symm.trans hks)

theorem cacheInv_of_empty {s : State} (h : s.ks = none) : CacheInv s := fun k hk => by simp [h] at hk

/-- Settles O53: a step keeps the key and fills the cache from it, or leaves the cache empty. -/
theorem cacheIsNeverStale : Obligations.CacheIsNeverStale := by
  intro s t hs h
  obtain hkept | ⟨-, hempty⟩ := step_keyState h
  · exact hkept.cacheInv hs
  · exact cacheInv_of_empty hempty

/-- Settles O58, by `step_keyState`. -/
theorem onlyKeyCommandsAndResetChangeTheKey : Obligations.OnlyKeyCommandsAndResetChangeTheKey := by
  intro s t h hne
  obtain ⟨⟨hke, hkt⟩, -⟩ | ⟨hcause, -⟩ := step_keyState h
  · exact absurd hkt (hne.resolve_left (absurd hke))
  · exact hcause

end Sys2Proof.Machine

/-! ## `STATUS`, `RAWSTAT`, scratch and command state (10_state.md R25, R27, R44, 60_exceptions.md R222, R223) -/

namespace Sys2Proof.Machine

/-- A command is in progress, and acceptance has cleared `STATUS` and `RAWSTAT` (30_encoding.md R100). -/
def RunningClear (s : State) : Prop :=
  s.phase = .busy ∧ s.status.done = false ∧ s.status.err = false ∧ s.status.eclass = .none ∧ s.rawstat = 0

theorem StatusInv.runningClear {s : State} (h : StatusInv s) (hp : s.phase = .busy) : RunningClear s := by
  obtain ⟨hbusy, -⟩ := h
  exact ⟨hp, hbusy hp⟩

theorem RunningClear.statusInv {s : State} (h : RunningClear s) : StatusInv s := by
  obtain ⟨hp, hdone, herr, hclass, hraw⟩ := h
  simp [StatusInv, hp, hdone, herr, hclass, hraw]

theorem RunningClear.complete {s : State} (h : RunningClear s) : StatusInv (complete s) := by
  obtain ⟨-, -, -, -, hraw⟩ := h
  simp [StatusInv, Status.completed, hraw]

/-- An error completion is consistent when its raw status is an error's for the two raw classes and 0 for the others
(60_exceptions.md R222). -/
theorem statusInv_raiseError {c : ErrClass} {raw : Word} {s : State} (hc : c ≠ .none)
    (hzero : c ≠ .rawRead → c ≠ .rawWrite → raw = 0) (hraw : c = .rawRead ∨ c = .rawWrite → raw ≠ s.params.rawOk) :
    StatusInv (raiseError c raw s) :=
  ⟨by simp, fun _ => hc, hzero, hraw, fun _ => ⟨rfl, rfl, rfl⟩⟩

theorem statusInv_raiseError_rawRead {raw : Word} {s : State} (h : raw ≠ s.params.rawOk) :
    StatusInv (raiseError .rawRead raw s) := statusInv_raiseError (by simp) (by simp) fun _ => h

theorem statusInv_raiseError_rawWrite {raw : Word} {s : State} (h : raw ≠ s.params.rawOk) :
    StatusInv (raiseError .rawWrite raw s) := statusInv_raiseError (by simp) (by simp) fun _ => h

theorem statusInv_raiseError_of_rangeError {s u : State} {c : ErrClass} (h : s.rangeError = some c) :
    StatusInv (raiseError c 0 u) := by
  obtain ⟨rfl, -⟩ := rangeError_eq_some h
  split_ifs
  · exact statusInv_raiseError (by simp) (fun _ _ => rfl) (by simp)
  · exact statusInv_raiseError (by simp) (fun _ _ => rfl) (by simp)

theorem RunningClear.advance {s : State} (h : RunningClear s) : StatusInv (advance s) := by
  obtain ⟨-, he⟩ | ⟨-, he⟩ := advance_cases s
  · exact he ▸ RunningClear.complete h
  · exact he ▸ RunningClear.statusInv h

theorem RunningClear.overlayScratch {s : State} (h : RunningClear s) : StatusInv (overlayScratch s) :=
  RunningClear.statusInv h

theorem RunningClear.copyScratch {s : State} (h : RunningClear s) : StatusInv (copyScratch s) :=
  RunningClear.advance h

theorem RunningClear.readsFrom {s u : State} (h : RunningClear s) (hu : ReadsFrom s u) : RunningClear u := by
  obtain ⟨-, rfl⟩ | ⟨-, -, rfl⟩ := hu
  · exact h
  · exact h

theorem RunningClear.decryptRead {b : Word} {d : Block} {s : State} (h : RunningClear s) :
    RunningClear (decryptScratch d (memRead b s)) := by simpa [RunningClear] using h

theorem RunningClear.memWrite {b : Word} {d : Block} {s : State} (h : RunningClear s) :
    RunningClear (memWrite b d s) := by simpa [RunningClear] using h

theorem RunningClear.readCurrent {use : State → State} (huse : ∀ u, RunningClear u → StatusInv (use u)) {s : State}
    (h : RunningClear s) : StatusInv (readCurrent use s) := by
  obtain ⟨hst, he⟩ | ⟨-, he⟩ := readCurrent_cases use s
  · exact he ▸ statusInv_raiseError_rawRead hst
  · exact he ▸ huse _ h.decryptRead

theorem RunningClear.writeCurrent {s : State} (h : RunningClear s) : StatusInv (writeCurrent s) := by
  obtain ⟨hst, he⟩ | ⟨-, he⟩ := writeCurrent_cases s
  · exact he ▸ statusInv_raiseError_rawWrite hst
  · exact he ▸ h.memWrite.advance

theorem RunningClear.encWriteStep {s : State} (h : RunningClear s) : StatusInv (encWriteStep s) := by
  obtain ⟨c, -, hr, he⟩ | ⟨u, -, hu, he⟩ | ⟨-, he⟩ := encWriteStep_cases s
  · exact he ▸ statusInv_raiseError_of_rangeError hr
  · exact he ▸ (h.readsFrom hu).readCurrent fun _ => RunningClear.overlayScratch
  · exact he ▸ h.writeCurrent

theorem RunningClear.encReadStep {s : State} (h : RunningClear s) : StatusInv (encReadStep s) := by
  obtain ⟨c, -, hr, he⟩ | ⟨u, hu, he⟩ := encReadStep_cases s
  · exact he ▸ statusInv_raiseError_of_rangeError hr
  · exact he ▸ (h.readsFrom hu).readCurrent fun _ => RunningClear.copyScratch

theorem StatusInv.stage_of_idle {s : State} (h : StatusInv s) (hp : s.phase = .idle) : s.stage = .start := by
  obtain ⟨-, -, -, -, hidle⟩ := h
  exact (hidle hp).1

/-- Every command leaves the core consistent, whole and by core steps. -/
theorem command_statusInv {i : Instr} {s t : State} (h : exec i s = .next t ∨ execOne i s = .next t)
    (hp : s.phase = .busy) (hs : StatusInv s) : StatusInv t := by
  refine command_keeps_while_busy (fun _ => StatusInv.stage_of_idle) h
    (fun _ _ hp hu => (hu.runningClear hp).encWriteStep) (fun _ _ hp hu => (hu.runningClear hp).encReadStep)
    (fun hw hr he => ?_) hp hs
  have hclear := hs.runningClear hp
  cases i with
  | encWrite => exact absurd rfl hw
  | encRead => exact absurd rfl hr
  | gfDbl | xexEnc | xexDec | setKey | getKey | clearKey | keyNz =>
    exact Host.Outcome.next.inj he ▸ RunningClear.complete hclear

theorem CoreTurned.statusInv {s t : State} (h : CoreTurned s t) (hs : StatusInv s) : StatusInv t := by
  obtain ⟨-, rfl⟩ | ⟨hp, ⟨i, -, hi⟩ | ⟨-, rfl⟩⟩ := h
  · exact hs
  · exact command_statusInv hi hp hs
  · exact statusInv_raiseError (by simp) (fun _ _ => rfl) (by simp)

theorem accept_runningClear (w : Word) (s : State) : RunningClear (accept w s) := ⟨rfl, rfl, rfl, rfl, rfl⟩

/-- A write of ones to `STATUS` clears `ERR` and leaves `ECLASS` (10_state.md R25). -/
theorem StatusInv.writeOneToClear {s : State} (hp : s.phase = .idle) (h : StatusInv s) (w : Word) :
    StatusInv { s with status := s.status.writeOneToClear w } := by
  obtain ⟨-, herr, hclass⟩ := h
  refine ⟨fun hb => by simp [hp] at hb, fun he => herr ?_, hclass⟩
  simp only [Status.writeOneToClear, Bool.and_eq_true] at he
  exact he.1

theorem StatusInv.writeReg {s : State} (hp : s.phase = .idle) (h : StatusInv s) (w : Word) (r : HostReg) :
    StatusInv (s.writeReg w r) := by
  unfold State.writeReg
  cases r with
  | cmd => exact (accept_runningClear w s).statusInv
  | status => exact h.writeOneToClear hp w
  | rawstat | addr | len | seq | tweak | din | dout | keyio | databuf | unmapped =>
    unfold StatusInv at h ⊢
    exact h

theorem statusInv_resetEvent (f : Bool) (s : State) : StatusInv (resetEvent f s) :=
  ⟨by simp [resetEvent, State.coreReset, State.resetOf], nofun, fun _ _ => rfl, nofun, fun _ => ⟨rfl, rfl, rfl⟩⟩

/-- Settles O54, by the kinds of step: a busy core is clear, and each completion leaves it consistent. -/
theorem statusStaysConsistent : Obligations.StatusStaysConsistent := by
  intro s t hs h
  exact step_keeps (fun _ _ h => h) (fun _ _ h => h) (fun r w _ hp h => h.writeReg hp w r) (fun _ _ h => h)
    statusInv_resetEvent (fun _ _ ht h => ht.statusInv h) h hs

end Sys2Proof.Machine


/-! ## The iterator of a translator command (10_state.md R43, 42_translator.md R162, R163) -/

namespace Sys2Proof.Machine

/-! ### The block range of a command (42_translator.md R162) -/

theorem toNat_and_blockMask (w : Word) : (w &&& 0xFFFFFFF0).toNat = w.toNat / 16 * 16 := by
  have h : w &&& (0xFFFFFFF0 : Word) = (w >>> 4) <<< 4 := by
    apply BitVec.eq_of_getLsbD_eq
    intro i hi
    have hmask : ∀ i < 32, (0xFFFFFFF0 : Word).getLsbD i = decide (4 ≤ i) := by decide
    rw [BitVec.getLsbD_and, hmask i hi, BitVec.getLsbD_shiftLeft, BitVec.getLsbD_ushiftRight]
    by_cases h4 : 4 ≤ i
    · simp [h4, hi, Nat.not_lt.mpr h4]
    · simp [h4, Nat.not_le.mp h4]
  rw [h, BitVec.toNat_shiftLeft, BitVec.toNat_ushiftRight, Nat.shiftRight_eq_div_pow, Nat.shiftLeft_eq]
  omega

theorem toNat_firstBlock (s : State) : s.firstBlock.toNat = s.address / 16 * 16 := toNat_and_blockMask s.addr

theorem toNat_firstOffset (s : State) : s.firstOffset.toNat = s.address % 16 := BitVec.toNat_setWidth 4 s.addr

theorem toNat_lastBlock {s : State} (h : s.rangeOk) :
    s.lastBlock.toNat = (s.address + s.length - 1) / 16 * 16 := by
  obtain ⟨hlen, hrange⟩ := h
  rw [State.lastBlock, toNat_and_blockMask, BitVec.toNat_ofNat, Nat.mod_eq_of_lt (by omega)]

/-! ### Where a command in progress stands -/

/-- A busy core's iterator is on a block of a translator command's range, which passed the checks. -/
def OnRange (s : State) : Prop :=
  s.phase = .busy ∧ (s.op = encode .encWrite ∨ s.op = encode .encRead) ∧ s.rangeOk ∧ s.touches s.iter.b.toNat ∧
    s.iter.last = s.lastBlock

/-- The current block is to be read: the caller bytes transferred are those before its offset. -/
def BlockAhead (s : State) : Prop :=
  OnRange s ∧ s.iter.b.toNat + s.iter.off.toNat = s.address + s.iter.j.toNat ∧ s.iter.j.toNat < s.length

/-- The current block's caller bytes are transferred: up to its end, or to the end of the range. -/
def BlockTransferred (s : State) : Prop :=
  OnRange s ∧ s.address + s.iter.j.toNat = min (s.iter.b.toNat + 16) (s.address + s.length)

theorem iteratorInv_of_start {s : State} (h : s.stage = .start) : IteratorInv s := by simp [IteratorInv, h]

theorem BlockAhead.iteratorInv {s : State} (h : BlockAhead s) (hst : s.stage = .read) : IteratorInv s := by
  obtain ⟨⟨hp, hrange⟩, hbytes⟩ := h
  exact ⟨by simp [hp], fun _ => hrange, fun _ => hbytes, by simp [hst]⟩

theorem BlockTransferred.iteratorInv {s : State} (h : BlockTransferred s) (hst : s.stage = .write)
    (hop : s.op = encode .encWrite) : IteratorInv s := by
  obtain ⟨⟨hp, hrange⟩, hbytes⟩ := h
  exact ⟨by simp [hp], fun _ => hrange, by simp [hst], fun _ => ⟨hop, hbytes⟩⟩

theorem IteratorInv.stage_of_idle {s : State} (h : IteratorInv s) (hp : s.phase = .idle) : s.stage = .start := by
  obtain ⟨hidle, -⟩ := h
  exact hidle hp

theorem IteratorInv.blockAhead {s : State} (h : IteratorInv s) (hp : s.phase = .busy) (hst : s.stage = .read) :
    BlockAhead s := by
  obtain ⟨-, hrange, hbytes, -⟩ := h
  exact ⟨⟨hp, hrange (by simp [hst])⟩, hbytes hst⟩

theorem IteratorInv.blockTransferred {s : State} (h : IteratorInv s) (hp : s.phase = .busy) (hst : s.stage = .write) :
    s.op = encode .encWrite ∧ BlockTransferred s := by
  obtain ⟨-, hrange, -, hbytes⟩ := h
  obtain ⟨hop, hbytes⟩ := hbytes hst
  exact ⟨hop, ⟨hp, hrange (by simp [hst])⟩, hbytes⟩

/-! ### The operations on the iterator -/

/-- A command whose checks pass starts on the first block of its range. -/
theorem blockAhead_startIterator {s : State} (hp : s.phase = .busy)
    (hop : s.op = encode .encWrite ∨ s.op = encode .encRead) (h : s.rangeError = none) :
    BlockAhead (startIterator s) := by
  have hok : s.rangeOk := (rangeError_eq_none s).mp h
  have ⟨hlen, _⟩ := hok
  have hfirst := toNat_firstBlock s
  have hoff := toNat_firstOffset s
  have hb : s.touches s.firstBlock.toNat := by
    rw [State.touches, hfirst]
    omega
  refine ⟨⟨hp, hop, hok, hb, rfl⟩, ?_, hlen⟩
  show s.firstBlock.toNat + s.firstOffset.toNat = s.address + 0
  omega

/-- A read or a write of the raw store and the decryption leave the iterator where it stands. -/
theorem BlockAhead.decryptRead {b : Word} {d : Block} {s : State} (h : BlockAhead s) :
    BlockAhead (decryptScratch d (memRead b s)) := by
  simpa [BlockAhead, OnRange, State.rangeOk, State.touches, State.lastBlock, State.address, State.length] using h

theorem BlockTransferred.memWrite {b : Word} {d : Block} {s : State} (h : BlockTransferred s) :
    BlockTransferred (memWrite b d s) := by
  simpa [BlockTransferred, OnRange, State.rangeOk, State.touches, State.lastBlock, State.address, State.length]
    using h

/-- The position after the caller bytes of the current block, as the loops of R169 and R172 leave it. -/
theorem BlockAhead.transfer {s : State} (h : BlockAhead s) {j : Nat}
    (hj : j = s.iter.j.toNat + min 16 (min (16 - s.iter.off.toNat) (s.length - s.iter.j.toNat))) :
    BlockTransferred { s with iter := { s.iter with j := BitVec.ofNat 9 j } } := by
  obtain ⟨hrange, hpos, hlt⟩ := h
  have hlen := length_lt s
  refine ⟨hrange, ?_⟩
  show s.address + (BitVec.ofNat 9 j).toNat = min (s.iter.b.toNat + 16) (s.address + s.length)
  rw [BitVec.toNat_ofNat, Nat.mod_eq_of_lt (by omega)]
  omega

theorem BlockAhead.overlayScratch {s : State} (h : BlockAhead s) (hop : s.op = encode .encWrite) :
    IteratorInv (overlayScratch s) :=
  BlockTransferred.iteratorInv (h.transfer (overlay_spec ..).1) rfl hop

/-- The next block of the range begins where the caller bytes transferred so far end. -/
theorem BlockTransferred.nextBlock {s : State} (h : BlockTransferred s) (hb : s.iter.b ≠ s.iter.last) :
    BlockAhead { s with iter := { s.iter with off := 0, b := s.iter.b + 16 }, stage := .read } := by
  obtain ⟨⟨hp, hop, hok, ⟨hblock, hfirst, hle⟩, hlast⟩, hpos⟩ := h
  have hlastNat := toNat_lastBlock hok
  have hne : s.iter.b.toNat ≠ s.lastBlock.toNat := fun he => hb (hlast ▸ BitVec.eq_of_toNat_eq he)
  obtain ⟨hlen, hrange⟩ := hok
  have hnext : (s.iter.b + 16).toNat = s.iter.b.toNat + 16 := by
    rw [BitVec.toNat_add]
    exact Nat.mod_eq_of_lt (by show s.iter.b.toNat + 16 < 2 ^ 32; omega)
  refine ⟨⟨hp, hop, ⟨hlen, hrange⟩, ?_, hlast⟩, ?_, ?_⟩
  · show (s.iter.b + 16).toNat % 16 = 0 ∧ s.address / 16 * 16 ≤ (s.iter.b + 16).toNat ∧
      (s.iter.b + 16).toNat ≤ (s.address + s.length - 1) / 16 * 16
    omega
  · show (s.iter.b + 16).toNat + 0 = s.address + s.iter.j.toNat
    omega
  · show s.iter.j.toNat < s.length
    omega

theorem BlockTransferred.advance {s : State} (h : BlockTransferred s) : IteratorInv (advance s) := by
  obtain ⟨-, he⟩ | ⟨hb, he⟩ := advance_cases s
  · exact he ▸ iteratorInv_of_start rfl
  · exact he ▸ (h.nextBlock hb).iteratorInv rfl

theorem BlockAhead.copyScratch {s : State} (h : BlockAhead s) : IteratorInv (copyScratch s) :=
  BlockTransferred.advance (h.transfer (copyOut_spec _ _ _ _ _ _ (length_lt s).le).1)

/-! ### The core steps -/

theorem IteratorInv.readsFrom {s u : State} (hs : IteratorInv s) (hp : s.phase = .busy)
    (hop : s.op = encode .encWrite ∨ s.op = encode .encRead) (hst : s.stage ≠ .write) (hu : ReadsFrom s u) :
    BlockAhead u := by
  obtain ⟨hne, rfl⟩ | ⟨-, hr, rfl⟩ := hu
  · refine hs.blockAhead hp ?_
    cases hstage : u.stage with
    | start => exact absurd hstage hne
    | read => rfl
    | write => exact absurd hstage hst
  · exact blockAhead_startIterator hp hop hr

theorem BlockAhead.readCurrent {use : State → State} {s : State} (h : BlockAhead s)
    (huse : ∀ u, u.op = s.op → BlockAhead u → IteratorInv (use u)) : IteratorInv (readCurrent use s) := by
  obtain ⟨-, he⟩ | ⟨-, he⟩ := readCurrent_cases use s
  · exact he ▸ iteratorInv_of_start rfl
  · exact he ▸ huse _ (by simp) h.decryptRead

theorem IteratorInv.encWriteStep {s : State} (hs : IteratorInv s) (hp : s.phase = .busy)
    (hop : s.op = encode .encWrite) : IteratorInv (encWriteStep s) := by
  obtain ⟨c, -, -, he⟩ | ⟨u, hst, hu, he⟩ | ⟨hst, he⟩ := encWriteStep_cases s
  · exact he ▸ iteratorInv_of_start rfl
  · obtain ⟨hopu, -⟩ := hu.outsideKept
    exact he ▸ (hs.readsFrom hp (.inl hop) hst hu).readCurrent fun v hv h =>
      h.overlayScratch (hv.trans (hopu.trans hop))
  · obtain ⟨-, hdone⟩ := hs.blockTransferred hp hst
    obtain ⟨-, hw⟩ | ⟨-, hw⟩ := writeCurrent_cases s
    · exact he ▸ hw ▸ iteratorInv_of_start rfl
    · exact he ▸ hw ▸ hdone.memWrite.advance

theorem IteratorInv.encReadStep {s : State} (hs : IteratorInv s) (hp : s.phase = .busy)
    (hop : s.op = encode .encRead) : IteratorInv (encReadStep s) := by
  obtain ⟨c, -, -, he⟩ | ⟨u, hu, he⟩ := encReadStep_cases s
  · exact he ▸ iteratorInv_of_start rfl
  · have hst : s.stage ≠ .write := fun hw => by
      obtain ⟨hop', -⟩ := hs.blockTransferred hp hw
      exact absurd (hop.symm.trans hop') (by decide)
    exact he ▸ (hs.readsFrom hp (.inr hop) hst hu).readCurrent fun _ _ h => h.copyScratch

/-- Every command in `st.op` keeps the iterator on its range, whole and by core steps. -/
theorem command_iteratorInv {i : Instr} {s t : State} (h : exec i s = .next t ∨ execOne i s = .next t)
    (hp : s.phase = .busy) (hop : s.op = encode i) (hs : IteratorInv s) : IteratorInv t := by
  have key : IteratorInv t ∧ t.op = encode i := by
    refine command_keeps_while_busy (P := fun u => IteratorInv u ∧ u.op = encode i)
      (fun u hu => hu.1.stage_of_idle) h ?_ ?_ ?_ hp ⟨hs, hop⟩
    · rintro rfl u hp ⟨hu, hop⟩
      obtain ⟨hop', -⟩ := encWriteStep_outsideKept u
      exact ⟨hu.encWriteStep hp hop, hop'.trans hop⟩
    · rintro rfl u hp ⟨hu, hop⟩
      obtain ⟨hop', -⟩ := encReadStep_outsideKept u
      exact ⟨hu.encReadStep hp hop, hop'.trans hop⟩
    · intro hw hr he
      cases i with
      | encWrite => exact absurd rfl hw
      | encRead => exact absurd rfl hr
      | gfDbl | xexEnc | xexDec | setKey | getKey | clearKey | keyNz =>
        exact Host.Outcome.next.inj he ▸ ⟨iteratorInv_of_start rfl, hop⟩
  exact key.1

theorem CoreTurned.iteratorInv {s t : State} (h : CoreTurned s t) (hs : IteratorInv s) : IteratorInv t := by
  obtain ⟨-, rfl⟩ | ⟨hp, ⟨i, hi, h⟩ | ⟨-, rfl⟩⟩ := h
  · exact hs
  · exact command_iteratorInv h hp (eq_encode_of_decode hi) hs
  · exact iteratorInv_of_start rfl

/-- A host write to an idle core leaves no raw access pending. -/
theorem writeReg_stage (w : Word) (r : HostReg) {s : State} (h : s.stage = .start) :
    (s.writeReg w r).stage = .start := by
  unfold State.writeReg
  cases r with
  | cmd => rfl
  | status | rawstat | addr | len | seq | tweak | din | dout | keyio | databuf | unmapped => exact h

/-- Settles O55, by the kinds of step: each core step takes the iterator from one block of the range to the next. -/
theorem iteratorStaysOnTheRange : Obligations.IteratorStaysOnTheRange := by
  intro s t hs h
  exact step_keeps (fun _ _ h => h) (fun _ _ h => h)
    (fun r w _ hp h => iteratorInv_of_start (writeReg_stage w r (h.stage_of_idle hp))) (fun _ _ h => h)
    (fun _ _ => iteratorInv_of_start rfl) (fun _ _ ht h => ht.iteratorInv h) h hs

end Sys2Proof.Machine


/-! ## Operands (10_state.md R36, 30_encoding.md R94) and the register map (10_state.md R23, 20_memory.md R61, R62) -/

namespace Sys2Proof.Machine

/-! ### No command writes an operand register -/

theorem OperandsKept.refl (s : State) : OperandsKept s s := ⟨rfl, rfl, rfl, rfl, rfl⟩

theorem operandsKept_keptByTranslator (s : State) : KeptByTranslator (OperandsKept s) where
  raise _ _ _ h := h
  complete _ h := h
  iterate _ _ _ h := h
  read _ _ h := h
  write _ _ _ h := by simpa [OperandsKept] using h
  decrypt _ _ h := h
  overlay _ h := h
  copy _ _ _ h := h

theorem command_operandsKept {i : Instr} {s t : State} (h : exec i s = .next t ∨ execOne i s = .next t) :
    OperandsKept s t := by
  refine (operandsKept_keptByTranslator s).command h (fun hw hr he => ?_) (.refl s)
  cases i with
  | encWrite => exact absurd rfl hw
  | encRead => exact absurd rfl hr
  | gfDbl | xexEnc | xexDec | setKey | getKey | clearKey | keyNz =>
    exact Host.Outcome.next.inj he ▸ ⟨rfl, rfl, rfl, rfl, rfl⟩

theorem CoreTurned.operandsKept {s t : State} (h : CoreTurned s t) : OperandsKept s t := by
  obtain ⟨-, rfl⟩ | ⟨-, ⟨i, -, hi⟩ | ⟨-, rfl⟩⟩ := h
  · exact .refl t
  · exact command_operandsKept hi
  · exact ⟨rfl, rfl, rfl, rfl, rfl⟩

/-! ### The register at an offset -/

theorem toNat_wordIndex {off : Nat} (h : off < 0x200) : (wordIndex off).toNat = off / 4 := by
  rw [wordIndex, BitVec.extractLsb'_toNat, BitVec.toNat_ofNat, Nat.shiftRight_eq_div_pow]
  omega

theorem hostReg_cmd : hostReg (wordIndex 0x000) = .cmd := by decide
theorem hostReg_status : hostReg (wordIndex 0x004) = .status := by decide
theorem hostReg_rawstat : hostReg (wordIndex 0x008) = .rawstat := by decide
theorem hostReg_addr : hostReg (wordIndex 0x00C) = .addr := by decide
theorem hostReg_len : hostReg (wordIndex 0x010) = .len := by decide
theorem hostReg_seq : hostReg (wordIndex 0x014) = .seq := by decide
theorem hostReg_tweak : ∀ k : Fin 4, hostReg (wordIndex (0x020 + 4 * k)) = .tweak k := by decide
theorem hostReg_din : ∀ k : Fin 4, hostReg (wordIndex (0x030 + 4 * k)) = .din k := by decide
theorem hostReg_dout : ∀ k : Fin 4, hostReg (wordIndex (0x040 + 4 * k)) = .dout k := by decide
theorem hostReg_keyio : ∀ k : Fin 8, hostReg (wordIndex (0x060 + 4 * k)) = .keyio k := by decide
theorem hostReg_databuf : ∀ k : Fin 64, hostReg (wordIndex (0x100 + 4 * k)) = .databuf k := by decide

theorem hostReg_unmapped_of_toNat : ∀ idx : BitVec 7, idx.toNat = 6 ∨ idx.toNat = 7 ∨
    (20 ≤ idx.toNat ∧ idx.toNat ≤ 23) ∨ (32 ≤ idx.toNat ∧ idx.toNat ≤ 63) → hostReg idx = .unmapped := by decide

theorem hostReg_unmapped {off : Nat} (hoff : off % 4 = 0)
    (h : off = 0x018 ∨ off = 0x01C ∨ (0x050 ≤ off ∧ off ≤ 0x05C) ∨ (0x080 ≤ off ∧ off ≤ 0x0FC)) :
    hostReg (wordIndex off) = .unmapped :=
  hostReg_unmapped_of_toNat _ (by rw [toNat_wordIndex (by omega)]; omega)

/-- The registers the host writes for the core to read, `ADDR` to `DIN` (10_state.md R36). -/
def HostReg.isOperand : HostReg → Bool
  | .addr | .len | .seq | .tweak _ | .din _ => true
  | .cmd | .status | .rawstat | .dout _ | .keyio _ | .databuf _ | .unmapped => false

theorem toNat_of_isOperand : ∀ idx : BitVec 7, (hostReg idx).isOperand = true → 3 ≤ idx.toNat ∧ idx.toNat ≤ 15 := by
  decide

/-- The registers a host write while idle leaves as they are (10_state.md R27, R33, 20_memory.md R63). -/
def HostReg.isReadOnly : HostReg → Bool
  | .rawstat | .dout _ | .unmapped => true
  | .cmd | .status | .addr | .len | .seq | .tweak _ | .din _ | .keyio _ | .databuf _ => false

theorem isReadOnly_of_toNat : ∀ idx : BitVec 7, idx.toNat = 2 ∨ idx.toNat = 6 ∨ idx.toNat = 7 ∨
    (16 ≤ idx.toNat ∧ idx.toNat ≤ 23) ∨ (32 ≤ idx.toNat ∧ idx.toNat ≤ 63) → (hostReg idx).isReadOnly = true := by decide

theorem writeReg_of_isReadOnly {r : HostReg} (h : r.isReadOnly = true) (w : Word) (s : State) :
    s.writeReg w r = s := by
  cases r with
  | rawstat | dout | unmapped => rfl
  | cmd | status | addr | len | seq | tweak | din | keyio | databuf => exact absurd h (by simp [HostReg.isReadOnly])

theorem isOperand_of_not_operandsKept {w : Word} {r : HostReg} {s : State} (h : ¬OperandsKept s (s.writeReg w r)) :
    r.isOperand = true := by
  unfold State.writeReg at h
  cases r with
  | addr | len | seq | tweak | din => rfl
  | cmd | status | rawstat | dout | keyio | databuf | unmapped => exact absurd ⟨rfl, rfl, rfl, rfl, rfl⟩ h

/-- Settles O59: no command, no host read and no write to another register changes an operand. -/
theorem onlyIdleHostWritesAndResetChangeOperands : Obligations.OnlyIdleHostWritesAndResetChangeOperands := by
  intro s t h hne
  obtain ⟨off, w, rest, he, hoff, hlt, rfl⟩ | ⟨off, rest, -, -, -, rfl⟩ | ⟨f, rest, he, rfl⟩ | ⟨rest, ht⟩ := step_cases h
  · obtain ⟨-, h⟩ | ⟨hp, h⟩ := hostWrite_cases (hostReg (wordIndex off)) w { s with events := rest }
    · exact absurd (h ▸ ⟨rfl, rfl, rfl, rfl, rfl⟩) hne
    · obtain ⟨hlo, hhi⟩ := toNat_of_isOperand _ (isOperand_of_not_operandsKept (h ▸ hne))
      rw [toNat_wordIndex hlt] at hlo hhi
      exact .inr ⟨hp, off, w, rest, he, by omega, by omega⟩
  · exact absurd ⟨rfl, rfl, rfl, rfl, rfl⟩ hne
  · exact .inl ⟨f, rest, he⟩
  · exact absurd ht.operandsKept hne

/-! ### Words of byte arrays (20_memory.md R62) -/

theorem byteAt_wordAt {n : Nat} (x : BitVec n) (k : Nat) {i : Nat} (h : i < 4) :
    byteAt (wordAt x k) i = byteAt x (4 * k + i) := by
  apply BitVec.eq_of_getLsbD_eq
  intro j hj
  have hbit : 32 * k + (8 * i + j) = 8 * (4 * k + i) + j := by omega
  have hlt : 8 * i + j < 32 := by omega
  simp only [getLsbD_byteAt, getLsbD_wordAt, hlt, hbit, decide_true, Bool.true_and]

theorem byteAt_bufWord (v : Vector Byte 256) (k : Nat) {i : Nat} (h : i < 4) :
    byteAt (bufWord v k) i = bufByte v (4 * k + i) := byteAt_wordOf _ h

theorem bufByte_bufSetWord (v : Vector Byte 256) {k : Nat} (w : Word) (i : Nat) (hk : k < 64) :
    bufByte (bufSetWord v k w) i = if i / 4 = k then byteAt w (i % 4) else bufByte v i := by
  rw [bufSetWord, bufByte_bufSetByte _ _ _ _ (by omega), bufByte_bufSetByte _ _ _ _ (by omega),
    bufByte_bufSetByte _ _ _ _ (by omega), bufByte_bufSetByte _ _ _ _ (by omega)]
  by_cases h : i / 4 = k
  · have hi : i = 4 * k + i % 4 := by omega
    have hr : i % 4 < 4 := Nat.mod_lt _ (by decide)
    rw [if_pos h]
    generalize i % 4 = r at *
    subst hi
    interval_cases r <;> simp
  · rw [if_neg h, if_neg (by omega), if_neg (by omega), if_neg (by omega), if_neg (by omega)]

/-! ### Host accesses to an idle core -/

theorem regWord_events (r : HostReg) (s : State) (rest : List Event) :
    ({ s with events := rest } : State).regWord r = s.regWord r := by
  unfold State.regWord
  cases r <;> rfl

theorem hostRead_of_idle (r : HostReg) {s : State} (hp : s.phase = .idle) :
    hostRead r s = { s with hostReads := s.hostReads ++ [s.regWord r] } := by
  have hfree : s.readIsFree r = false := by simp [State.readIsFree, hp]
  simp [hostRead, State.readValue, hfree]

theorem step_idle_read {s : State} {off : Nat} {rest : List Event} (hp : s.phase = .idle) (hoff : off % 4 = 0)
    (hlt : off < 0x200) (he : s.events = .read off 4 :: rest) :
    step s = .next { s with events := rest, hostReads := s.hostReads ++ [s.regWord (hostReg (wordIndex off))] } := by
  have hok : Event.accessOk off 4 = true := (accessOk_iff off 4).mpr ⟨rfl, hoff, hlt⟩
  have hread := hostRead_of_idle (hostReg (wordIndex off)) (s := { s with events := rest }) hp
  rw [step_of_event he, handleEvent, hostAccess_of_accessOk hok, hread, regWord_events]

theorem step_idle_write {s : State} {off : Nat} {w : Word} {rest : List Event} (hp : s.phase = .idle)
    (hoff : off % 4 = 0) (hlt : off < 0x200) (he : s.events = .write off 4 w :: rest) :
    step s = .next (({ s with events := rest } : State).writeReg w (hostReg (wordIndex off))) := by
  have hok : Event.accessOk off 4 = true := (accessOk_iff off 4).mpr ⟨rfl, hoff, hlt⟩
  rw [step_of_event he, handleEvent, hostAccess_of_accessOk hok]
  simp only [hostWrite, hp]

/-- Settles O11, register by register (R23). -/
theorem idleHostReads : Obligations.IdleHostReads := by
  intro s off rest hp hoff hlt he
  refine ⟨_, step_idle_read hp hoff hlt he, ?cmd, ?status, ?rawstat, ?addr, ?len, ?seq, ?tweak, ?din, ?dout, ?keyio,
    ?databuf, fun h => ?unmapped⟩
  case cmd => rintro rfl; rw [hostReg_cmd, State.regWord]
  case status => rintro rfl; rw [hostReg_status, State.regWord]
  case rawstat => rintro rfl; rw [hostReg_rawstat, State.regWord]
  case addr => rintro rfl; rw [hostReg_addr, State.regWord]
  case len =>
    rintro rfl
    rw [hostReg_len, State.regWord]
    exact BitVec.toNat_setWidth_of_le (by decide)
  case seq => rintro rfl; rw [hostReg_seq, State.regWord]
  case tweak => rintro k hk rfl i hi; rw [hostReg_tweak ⟨k, hk⟩]; exact byteAt_wordAt s.tweak k hi
  case din => rintro k hk rfl i hi; rw [hostReg_din ⟨k, hk⟩]; exact byteAt_wordAt s.din k hi
  case dout => rintro k hk rfl i hi; rw [hostReg_dout ⟨k, hk⟩]; exact byteAt_wordAt s.dout k hi
  case keyio => rintro k hk rfl i hi; rw [hostReg_keyio ⟨k, hk⟩]; exact byteAt_wordAt s.keyio k hi
  case databuf => rintro k hk rfl i hi; rw [hostReg_databuf ⟨k, hk⟩]; exact byteAt_bufWord s.databuf k hi
  case unmapped => rw [hostReg_unmapped hoff h, State.regWord]

/-- Settles O12, register by register (R23). -/
theorem idleHostWrites : Obligations.IdleHostWrites := by
  intro s off w rest hp hoff hlt he
  have hstep := step_idle_write hp hoff hlt he
  refine ⟨?addr, ?len, ?seq, ?tweak, ?din, ?keyio, ?databuf, fun h => ?ignored⟩
  case addr => rintro rfl; rw [hstep, hostReg_addr, State.writeReg]
  case len =>
    rintro rfl
    exact ⟨w.setWidth 8, BitVec.toNat_setWidth 8 w, by rw [hstep, hostReg_len, State.writeReg]⟩
  case seq => rintro rfl; rw [hstep, hostReg_seq, State.writeReg]
  case tweak =>
    rintro k hk rfl
    exact ⟨_, by rw [hstep, hostReg_tweak ⟨k, hk⟩, State.writeReg], fun i hi => byteAt_setWord _ k i w hi⟩
  case din =>
    rintro k hk rfl
    exact ⟨_, by rw [hstep, hostReg_din ⟨k, hk⟩, State.writeReg], fun i hi => byteAt_setWord _ k i w hi⟩
  case keyio =>
    rintro k hk rfl
    exact ⟨_, by rw [hstep, hostReg_keyio ⟨k, hk⟩, State.writeReg], fun i hi => byteAt_setBlobWord _ k i w hi⟩
  case databuf =>
    rintro k hk rfl
    exact ⟨_, by rw [hstep, hostReg_databuf ⟨k, hk⟩, State.writeReg], fun i _ => bufByte_bufSetWord _ w i hk⟩
  case ignored =>
    rw [hstep, writeReg_of_isReadOnly (isReadOnly_of_toNat _ (by rw [toNat_wordIndex hlt]; omega))]

end Sys2Proof.Machine

/-! ## The word of `STATUS` (10_state.md R25, R26, 60_exceptions.md R221) -/

namespace Sys2Proof.Machine

/-- Bit `i` of `STATUS` (R25). -/
def State.statusBit (s : State) : Nat → Bool
  | 0 => decide (s.phase = .busy)
  | 1 => s.status.done
  | 2 => s.status.err
  | 3 => s.status.knz
  | 4 => s.status.ign
  | 5 | 6 | 7 => false
  | n + 8 => s.status.eclass.code.getLsbD n

theorem getLsbD_statusWord (s : State) (i : Nat) : s.statusWord.getLsbD i = s.statusBit i := by
  simp only [State.statusWord, BitVec.getLsbD_append]
  match i with
  | 0 | 1 | 2 | 3 | 4 | 5 | 6 | 7 => simp [State.statusBit]
  | n + 8 => simpa [State.statusBit] using BitVec.lt_of_getLsbD

theorem statusWord_reserved (s : State) : s.statusWord.toNat / 32 % 8 = 0 := by
  have h : s.statusWord.extractLsb' 5 3 = 0 := by
    apply BitVec.eq_of_getLsbD_eq
    intro i hi
    rw [BitVec.getLsbD_extractLsb', getLsbD_statusWord]
    interval_cases i <;> rfl
  simpa [BitVec.extractLsb'_toNat, Nat.shiftRight_eq_div_pow] using congrArg BitVec.toNat h

theorem statusWord_eclass (s : State) : s.statusWord.toNat / 256 = s.status.eclass.code.toNat := by
  have h : s.statusWord >>> 8 = s.status.eclass.code.setWidth 32 := by
    apply BitVec.eq_of_getLsbD_eq
    intro i hi
    rw [BitVec.getLsbD_ushiftRight, getLsbD_statusWord, Nat.add_comm, State.statusBit, BitVec.getLsbD_setWidth]
    simp [hi]
  calc s.statusWord.toNat / 256 = (s.statusWord >>> 8).toNat := by
        rw [BitVec.toNat_ushiftRight, Nat.shiftRight_eq_div_pow]
    _ = s.status.eclass.code.toNat := by rw [h, BitVec.toNat_setWidth_of_le (by decide)]

/-- Settles O14: bit by bit, and the error class as the word's upper bits. -/
theorem statusWordLayout : Obligations.StatusWordLayout := by
  intro s
  have hclass := statusWord_eclass s
  have hcode (c : ErrClass) (h : s.status.eclass = c) : s.statusWord.toNat / 256 = c.code.toNat := h ▸ hclass
  exact ⟨by rw [getLsbD_statusWord]; exact decide_eq_true_iff, getLsbD_statusWord s 1, getLsbD_statusWord s 2,
    getLsbD_statusWord s 3, getLsbD_statusWord s 4, statusWord_reserved s, hclass, hcode .none, hcode .illegalCmd,
    hcode .zeroLen, hcode .range, hcode .rawRead, hcode .rawWrite⟩

/-- The bits a write of `w` to `STATUS` clears. -/
theorem getLsbD_w1cMask (w : Word) (i : Nat) (hi : i < 32) :
    (~~~(w &&& 0x00000016)).getLsbD i = !(w.getLsbD i && decide (i = 1 ∨ i = 2 ∨ i = 4)) := by
  have hmask : ∀ i < 32, (0x00000016 : Word).getLsbD i = decide (i = 1 ∨ i = 2 ∨ i = 4) := by decide
  rw [BitVec.getLsbD_not, BitVec.getLsbD_and, hmask i hi, decide_eq_true hi, Bool.true_and]

/-- The word the host reads after it wrote `w` to `STATUS`. -/
theorem statusWord_writeOneToClear (s : State) (w : Word) :
    ({ s with status := s.status.writeOneToClear w } : State).statusWord = s.statusWord &&& ~~~(w &&& 0x00000016) := by
  apply BitVec.eq_of_getLsbD_eq
  intro i hi
  rw [BitVec.getLsbD_and, getLsbD_w1cMask w i hi, getLsbD_statusWord, getLsbD_statusWord]
  match i with
  | 0 | 1 | 2 | 3 | 4 | 5 | 6 | 7 => simp [State.statusBit, Status.writeOneToClear]
  | n + 8 => simp [State.statusBit, Status.writeOneToClear]

/-- Settles O13. -/
theorem statusBitsAreWriteOneToClear : Obligations.StatusBitsAreWriteOneToClear := by
  intro s w rest hp he
  refine ⟨s.status.writeOneToClear w, ?_, statusWord_writeOneToClear s w⟩
  rw [step_idle_write hp (by decide) (by decide) he, hostReg_status, State.writeReg]

end Sys2Proof.Machine

/-! ## Reset (10_state.md R50) -/

namespace Sys2Proof.Machine

/-- Settles O15: the reset state is a constant of the model. -/
theorem resetValues : Obligations.ResetValues := by
  refine ⟨rfl, rfl, rfl, rfl, rfl, rfl, rfl, rfl, rfl, rfl, rfl, rfl, rfl, fun j hj => ?_, rfl, rfl, rfl⟩
  simp [State.reset, State.resetOf, bufByte, Vector.getD, hj]

/-- R9 admits whatever `STORE_MAX` stands for: a multiple of 16, at most 2^32. -/
theorem config_params_wf : Config.params.wf = true := by
  rw [Params_wf_iff]
  show 16 * (Config.storeBlocks % (2 ^ 28 + 1)) % 16 = 0 ∧ 16 * (Config.storeBlocks % (2 ^ 28 + 1)) ≤ 2 ^ 32
  omega

theorem statusInv_reset : StatusInv State.reset :=
  ⟨by simp [State.reset, State.resetOf], nofun, fun _ _ => rfl, nofun, fun _ => ⟨rfl, rfl, rfl⟩⟩

/-- Settles O56. -/
theorem invariantsHoldAtReset : Obligations.InvariantsHoldAtReset :=
  ⟨⟨config_params_wf, rfl, rfl⟩, cacheInv_of_empty rfl, statusInv_reset, iteratorInv_of_start rfl⟩

end Sys2Proof.Machine

/-! ## No result depends on the key-schedule cache (10_state.md R45, 41_xex.md R145) -/

namespace Sys2Proof.Machine

/-- What two runs of the core steps `f` agree in, they agree in when no raw access is pending. -/
theorem untilDone_rel {R : State → State → Prop} {f : State → State} (hf : ∀ s t, R s t → R (f s) (f t))
    (hstage : ∀ s t, R s t → t.stage = s.stage) (n : Nat) {s t : State} (h : R s t) :
    R (untilDone f n s) (untilDone f n t) := by
  induction n generalizing s t with
  | zero => exact h
  | succ n ih =>
    rw [untilDone, untilDone, hstage s t h]
    cases s.stage with
    | start => exact h
    | read => exact ih (hf s t h)
    | write => exact ih (hf s t h)

/-- `t` is `s` but for what the cache holds. -/
def SameButCache (s t : State) : Prop := ∃ k, t = { s with ks := k }

theorem readCurrent_of_ok (use : State → State) {s : State} (h : s.answersOk s.iter.b = true) :
    readCurrent use s = use (decryptScratch (readBlock s.sm s.iter.b.toNat) (memRead s.iter.b s)) := if_pos h

theorem readCurrent_of_error (use : State → State) {s : State} (h : s.answersOk s.iter.b = false) :
    readCurrent use s = raiseError .rawRead (s.answerStatus s.iter.b) (memRead s.iter.b s) :=
  if_neg (by simp [h])

theorem writeCurrent_of_ok {s : State} (h : s.answersOk s.iter.b = true) :
    writeCurrent s = advance (memWrite s.iter.b s.scrC s) := if_pos h

theorem writeCurrent_of_error {s : State} (h : s.answersOk s.iter.b = false) :
    writeCurrent s = raiseError .rawWrite (s.answerStatus s.iter.b) (memWrite s.iter.b s.scrC s) :=
  if_neg (by simp [h])

theorem rangeError_ks (s : State) (k : Option KeySchedule) : ({ s with ks := k } : State).rangeError = s.rangeError :=
  rfl

theorem SameButCache.advance {s t : State} (h : SameButCache s t) : SameButCache (advance s) (advance t) := by
  obtain ⟨k, rfl⟩ := h
  unfold Machine.advance
  split_ifs
  · exact ⟨k, rfl⟩
  · exact ⟨k, rfl⟩

theorem SameButCache.decryptScratch {s t : State} (d : Block) (h : SameButCache s t) :
    SameButCache (decryptScratch d s) (decryptScratch d t) := by
  obtain ⟨k, rfl⟩ := h
  exact ⟨_, rfl⟩

theorem SameButCache.copyScratch {s t : State} (h : SameButCache s t) :
    SameButCache (copyScratch s) (copyScratch t) := by
  obtain ⟨k, rfl⟩ := h
  exact SameButCache.advance ⟨k, rfl⟩

theorem SameButCache.overlayScratch {s t : State} (h : SameButCache s t) :
    SameButCache (overlayScratch s) (overlayScratch t) := by
  obtain ⟨k, rfl⟩ := h
  exact ⟨k, rfl⟩

theorem SameButCache.readCurrent {use : State → State} (huse : ∀ {s t}, SameButCache s t → SameButCache (use s) (use t))
    {s t : State} (h : SameButCache s t) : SameButCache (readCurrent use s) (readCurrent use t) := by
  obtain ⟨k, rfl⟩ := h
  cases hok : s.answersOk s.iter.b with
  | true =>
    rw [readCurrent_of_ok use hok, readCurrent_of_ok use (s := { s with ks := k }) hok]
    exact huse (SameButCache.decryptScratch _ ⟨k, rfl⟩)
  | false =>
    rw [readCurrent_of_error use hok, readCurrent_of_error use (s := { s with ks := k }) hok]
    exact ⟨k, rfl⟩

theorem SameButCache.writeCurrent {s t : State} (h : SameButCache s t) :
    SameButCache (writeCurrent s) (writeCurrent t) := by
  obtain ⟨k, rfl⟩ := h
  cases hok : s.answersOk s.iter.b with
  | true =>
    rw [writeCurrent_of_ok hok, writeCurrent_of_ok (s := { s with ks := k }) hok]
    exact SameButCache.advance ⟨k, rfl⟩
  | false =>
    rw [writeCurrent_of_error hok, writeCurrent_of_error (s := { s with ks := k }) hok]
    exact ⟨k, rfl⟩

theorem SameButCache.startTranslation {use : State → State}
    (huse : ∀ {s t}, SameButCache s t → SameButCache (use s) (use t)) {s t : State} (h : SameButCache s t) :
    SameButCache (startTranslation use s) (startTranslation use t) := by
  obtain ⟨k, rfl⟩ := h
  simp only [Machine.startTranslation, rangeError_ks]
  cases s.rangeError with
  | some c => exact ⟨k, rfl⟩
  | none => exact SameButCache.readCurrent huse ⟨k, rfl⟩

theorem SameButCache.stage {s t : State} (h : SameButCache s t) : t.stage = s.stage := by
  obtain ⟨k, rfl⟩ := h
  rfl

theorem SameButCache.encWriteStep {s t : State} (h : SameButCache s t) :
    SameButCache (encWriteStep s) (encWriteStep t) := by
  unfold Machine.encWriteStep
  rw [h.stage]
  cases s.stage with
  | start => exact h.startTranslation overlayScratch
  | read => exact h.readCurrent overlayScratch
  | write => exact h.writeCurrent

theorem SameButCache.encReadStep {s t : State} (h : SameButCache s t) :
    SameButCache (encReadStep s) (encReadStep t) := by
  unfold Machine.encReadStep
  rw [h.stage]
  cases s.stage with
  | start => exact h.startTranslation copyScratch
  | read | write => exact h.readCurrent copyScratch

/-- Settles O27: no operation of a command reads the cache, so two runs stay the same but for it. -/
theorem resultsDoNotDependOnTheCache : Obligations.ResultsDoNotDependOnTheCache := by
  intro i s t k h
  have hsame : SameButCache s { s with ks := k } := ⟨k, rfl⟩
  have of_same {u : State} (hu : exec i { s with ks := k } = .next u) (hut : SameButCache t u) :
      ∃ k', exec i { s with ks := k } = .next { t with ks := k' } := by
    obtain ⟨k', rfl⟩ := hut
    exact ⟨k', hu⟩
  cases i with
  | encWrite =>
    exact of_same rfl (execEncWrite_eq h ▸ untilDone_rel (fun _ _ => SameButCache.encWriteStep)
      (fun _ _ => SameButCache.stage) _ hsame.encWriteStep)
  | encRead =>
    exact of_same rfl (execEncRead_eq h ▸ untilDone_rel (fun _ _ => SameButCache.encReadStep)
      (fun _ _ => SameButCache.stage) _ hsame.encReadStep)
  | gfDbl | xexEnc | xexDec | setKey | getKey | clearKey | keyNz =>
    exact of_same rfl (Host.Outcome.next.inj h ▸ ⟨_, rfl⟩)

end Sys2Proof.Machine

/-! ## The raw store's contents (20_memory.md R55, R67, R68, R76) -/

namespace Sys2Proof.Machine

/-! ### The raw store stays canonical and inside its size -/

/-- `StoreInv` speaks of the parameters and the contents alone. -/
theorem StoreInv.of_same_store {s t : State} (h : StoreInv s) (hp : t.params = s.params) (hm : t.sm = s.sm) :
    StoreInv t := by
  unfold StoreInv
  rw [hp, hm]
  exact h

/-- Whatever block is written, to whatever address (R68: also the residue of a write that fails). -/
theorem StoreInv.writeBlock {s t : State} (h : StoreInv s) (b : Nat) (d : Block) (hp : t.params = s.params)
    (hm : t.sm = writeBlock s.params.storeMax s.sm b d) : StoreInv t := by
  obtain ⟨hparams, hwf, hinside⟩ := h
  unfold StoreInv
  rw [hp, hm]
  exact ⟨hparams, wf_writeBlock b d hwf, inside_writeBlock b d hinside⟩

theorem storeInv_keptByTranslator : KeptByTranslator StoreInv where
  raise _ _ _ h := h
  complete _ h := h
  iterate _ _ _ h := h
  read _ _ h := h
  write b _ _ h := h.writeBlock b.toNat _ rfl rfl
  decrypt _ _ h := h
  overlay _ h := h
  copy _ _ _ h := h

/-- No command but the translator's changes the raw store (R67). -/
theorem exec_sm_of_not_translator {i : Instr} {s t : State} (hw : i ≠ .encWrite) (hr : i ≠ .encRead)
    (h : exec i s = .next t) : t.sm = s.sm := by
  cases i with
  | encWrite => exact absurd rfl hw
  | encRead => exact absurd rfl hr
  | gfDbl | xexEnc | xexDec | setKey | getKey | clearKey | keyNz => exact Host.Outcome.next.inj h ▸ rfl

theorem CoreTurned.storeInv {s t : State} (h : CoreTurned s t) (hs : StoreInv s) : StoreInv t := by
  obtain ⟨-, rfl⟩ | ⟨-, ⟨i, -, hi⟩ | ⟨-, rfl⟩⟩ := h
  · exact hs
  · obtain ⟨-, hp, -, -⟩ := command_outsideKept hi
    exact storeInv_keptByTranslator.command hi
      (fun hw hr he => hs.of_same_store hp (exec_sm_of_not_translator hw hr he)) hs
  · exact hs

@[simp] theorem writeReg_sm (w : Word) (r : HostReg) (s : State) : (s.writeReg w r).sm = s.sm := by
  cases r <;> rfl

@[simp] theorem hostWrite_sm (r : HostReg) (w : Word) (s : State) : (hostWrite r w s).sm = s.sm := by
  obtain ⟨-, h⟩ | ⟨-, h⟩ := hostWrite_cases r w s
  · rw [h]
  · rw [h, writeReg_sm]

/-- What a reset does to the raw store (70_reset_and_hazards.md R260, R261): nothing, or it abandons the write that is
due and leaves that block's bytes unspecified. -/
theorem resetEvent_sm (f : Bool) (s : State) :
    (resetEvent f s).sm = s.sm ∨
      s.writeDue = true ∧
        (resetEvent f s).sm = writeBlock s.params.storeMax s.sm s.iter.b.toNat s.nextAnswer.residue := by
  simp only [resetEvent, State.coreReset, State.abandonWrite]
  split_ifs with h
  · exact .inr ⟨(Bool.and_eq_true_iff.mp h).2, rfl⟩
  · exact .inl rfl

theorem StoreInv.resetEvent {s : State} (h : StoreInv s) (f : Bool) : StoreInv (resetEvent f s) := by
  obtain hsame | ⟨-, hwrite⟩ := resetEvent_sm f s
  · exact h.of_same_store (resetEvent_params f s) hsame
  · exact h.writeBlock _ _ (resetEvent_params f s) hwrite

/-- Settles O52, by the kinds of step: all that is ever written to the raw store is a block, by a raw write or by a
reset that abandons one. -/
theorem storeStaysWellFormed : Obligations.StoreStaysWellFormed := by
  intro s t hs h
  obtain ⟨off, w, rest, -, -, -, rfl⟩ | ⟨off, rest, -, -, -, rfl⟩ | ⟨f, rest, -, rfl⟩ | ⟨rest, ht⟩ := step_cases h
  · exact hs.of_same_store (hostWrite_params _ _ _) (hostWrite_sm _ _ _)
  · exact hs
  · exact StoreInv.resetEvent (s := { s with events := rest }) hs f
  · exact ht.storeInv hs

/-! ### Who changes the raw store -/

theorem advance_sm (s : State) : (advance s).sm = s.sm := by
  obtain ⟨-, h⟩ | ⟨-, h⟩ := advance_cases s
  · exact h ▸ rfl
  · exact h ▸ rfl

theorem ReadsFrom.sm {s u : State} (h : ReadsFrom s u) : u.sm = s.sm := by
  obtain ⟨-, rfl⟩ | ⟨-, -, rfl⟩ := h
  · rfl
  · rfl

/-- `ENC_READ` never writes the raw store (42_translator.md R172). -/
theorem encReadStep_sm (s : State) : (encReadStep s).sm = s.sm := by
  obtain ⟨c, -, -, h⟩ | ⟨u, hu, h⟩ := encReadStep_cases s
  · exact h ▸ rfl
  · rw [h, ← hu.sm]
    obtain ⟨-, hread⟩ | ⟨-, hread⟩ := readCurrent_cases copyScratch u
    · exact hread ▸ rfl
    · exact hread ▸ advance_sm _

theorem command_sm {i : Instr} {s t : State} (h : exec i s = .next t ∨ execOne i s = .next t) (hi : i ≠ .encWrite) :
    t.sm = s.sm :=
  command_keeps (P := fun u => u.sm = s.sm) h (fun hw => absurd hw hi) (fun _ u hu => (encReadStep_sm u).trans hu)
    exec_sm_of_not_translator rfl

theorem CoreTurned.sm {s t : State} (h : CoreTurned s t) :
    t.sm = s.sm ∨ s.phase = .busy ∧ s.op = encode .encWrite := by
  obtain ⟨-, rfl⟩ | ⟨hp, ⟨i, hi, h⟩ | ⟨-, rfl⟩⟩ := h
  · exact .inl rfl
  · by_cases hw : i = .encWrite
    · exact .inr ⟨hp, hw ▸ eq_encode_of_decode hi⟩
    · exact .inl (command_sm h hw)
  · exact .inl rfl

/-- A raw write is due only in an `ENC_WRITE`. -/
theorem IteratorInv.encWrite_of_writeDue {s : State} (h : IteratorInv s) (hdue : s.writeDue = true) :
    s.phase = .busy ∧ s.op = encode .encWrite := by
  obtain ⟨hp, hst⟩ : s.phase = .busy ∧ s.stage = .write := by simpa [State.writeDue] using hdue
  obtain ⟨hop, -⟩ := h.blockTransferred hp hst
  exact ⟨hp, hop⟩

/-- What a step does to the raw store's contents: nothing, unless an `ENC_WRITE` is in progress. -/
theorem step_sm {s t : State} (hs : IteratorInv s) (h : step s = .next t) :
    t.sm = s.sm ∨ s.phase = .busy ∧ s.op = encode .encWrite := by
  obtain ⟨off, w, rest, -, -, -, rfl⟩ | ⟨off, rest, -, -, -, rfl⟩ | ⟨f, rest, -, rfl⟩ | ⟨rest, ht⟩ := step_cases h
  · exact .inl (hostWrite_sm _ _ _)
  · exact .inl rfl
  · obtain hsame | ⟨hdue, -⟩ := resetEvent_sm f { s with events := rest }
    · exact .inl hsame
    · exact .inr (hs.encWrite_of_writeDue hdue)
  · exact ht.sm

/-- Settles O60, by `step_sm`. -/
theorem onlyEncWriteChangesTheStore : Obligations.OnlyEncWriteChangesTheStore := by
  rintro s t hs h ⟨a, ha⟩
  obtain hsame | hcause := step_sm hs h
  · exact absurd (by rw [hsame]) ha
  · exact hcause

/-! ### The raw store's answers (20_memory.md R68, R69) -/

/-- The status picked for a request beyond the store is an error, whatever value picks it. -/
theorem errorStatus_ne (rawOk x : Word) : errorStatus rawOk x ≠ rawOk := by
  have hx : (x % 0xFFFFFFFF).toNat < 0xFFFFFFFF := by
    rw [BitVec.toNat_umod]
    exact Nat.mod_lt _ (by decide)
  rw [errorStatus]
  generalize x % 0xFFFFFFFF = y at *
  bv_omega

theorem answerStatus_of_outOfStore {s : State} {b : Word} (h : outOfStore s.params b = true) :
    s.answerStatus b =
      if s.nextAnswer.status = s.params.rawOk then errorStatus s.params.rawOk (Config.freeWord s.draws)
      else s.nextAnswer.status := by
  simp [State.answerStatus, h]

theorem answerStatus_of_possible {s : State} {b : Word}
    (h : outOfStore s.params b = false ∨ s.nextAnswer.status ≠ s.params.rawOk) :
    s.answerStatus b = s.nextAnswer.status := by
  refine if_neg ?_
  simpa [Bool.and_eq_true, imp_iff_not_or] using h

/-- Settles O48: an error status replaces a success beyond the store, and no other answer is replaced. -/
theorem requestsBeyondTheStoreFail : Obligations.RequestsBeyondTheStoreFail := by
  refine ⟨fun s b hout => ?_, fun s b st h => ⟨{ status := st, residue := 0 }, ?_⟩⟩
  · rw [answerStatus_of_outOfStore (decide_eq_true hout)]
    split_ifs with hok
    · exact errorStatus_ne _ _
    · exact hok
  · refine answerStatus_of_possible (s := { s with answers := _ :: s.answers }) (h.imp_left fun hin => ?_)
    exact decide_eq_false (Nat.not_lt.mpr hin)

end Sys2Proof.Machine

/-! ## Which accesses the host port refuses (20_memory.md R60), and accesses while busy (R64, R65) -/

namespace Sys2Proof.Machine

/-! ### Refusal -/

theorem hostAccess_of_not_accessOk {off width : Nat} (h : ¬Event.accessOk off width = true)
    (effect : HostReg → State → State) (s : State) :
    hostAccess off width effect s = .refused (.accessOutsideInterface off width) := if_neg h

/-- Every command has a meaning in every state (30_encoding.md R97). -/
theorem exec_next (i : Instr) (s : State) : ∃ t, exec i s = .next t := by
  cases i <;> exact ⟨_, rfl⟩

theorem execOne_next (i : Instr) (s : State) : ∃ t, execOne i s = .next t := by
  cases i <;> exact ⟨_, rfl⟩

theorem coreTurn_next (s : State) : ∃ t, coreTurn s = .next t := by
  cases hp : s.phase with
  | idle => exact ⟨s, coreTurn_of_idle hp⟩
  | busy =>
    simp only [coreTurn, hp, dispatch]
    cases decode s.op with
    | command i => exact exec_next i s
    | illegal why => exact ⟨_, rfl⟩

theorem coreAccess_next (s : State) : ∃ t, coreAccess s = .next t := by
  cases hp : s.phase with
  | idle => exact ⟨s, coreAccess_of_idle hp⟩
  | busy =>
    simp only [coreAccess, hp, dispatchOne]
    cases decode s.op with
    | command i => exact execOne_next i s
    | illegal why => exact ⟨_, rfl⟩

/-- A step answers a next state, unless a host access that R60 does not allow is next. -/
theorem step_next_or_access_outside (s : State) : (∃ t, step s = .next t) ∨
    ∃ off width rest, ¬Event.accessOk off width = true ∧
      ((∃ w, s.events = .write off width w :: rest) ∨ s.events = .read off width :: rest) := by
  cases he : s.events with
  | nil => exact .inl (step_of_no_event he ▸ coreTurn_next s)
  | cons e rest =>
    rw [step_of_event he]
    cases e with
    | write off width w =>
      by_cases hok : Event.accessOk off width = true
      · exact .inl ⟨_, hostAccess_of_accessOk hok (fun r => hostWrite r w) _⟩
      · exact .inr ⟨off, width, rest, hok, .inl ⟨w, rfl⟩⟩
    | read off width =>
      by_cases hok : Event.accessOk off width = true
      · exact .inl ⟨_, hostAccess_of_accessOk hok hostRead _⟩
      · exact .inr ⟨off, width, rest, hok, .inr rfl⟩
    | turn => exact .inl (coreTurn_next _)
    | access => exact .inl (coreAccess_next _)
    | reset f => exact .inl ⟨_, rfl⟩

/-- Settles O7: the host port refuses what R60 does not allow, and nothing else refuses. -/
theorem onlyAccessesOutsideTheInterfaceAreRefused : Obligations.OnlyAccessesOutsideTheInterfaceAreRefused := by
  refine ⟨fun s rest off width w hbad => ?_, fun s => ?_⟩
  · rw [← accessOk_iff] at hbad
    exact ⟨fun he => (step_of_event he).trans (hostAccess_of_not_accessOk hbad (fun r => hostWrite r w) _),
      fun he => (step_of_event he).trans (hostAccess_of_not_accessOk hbad hostRead _)⟩
  · obtain ⟨t, ht⟩ | ⟨off, width, rest, hbad, he⟩ := step_next_or_access_outside s
    · exact .inl fun r hr => by simp [ht] at hr
    · exact .inr ⟨off, width, rest, by rwa [← accessOk_iff], he⟩

/-! ### Accesses while busy -/

/-- Settles O9. -/
theorem busyHostWritesAreIgnored : Obligations.BusyHostWritesAreIgnored := by
  intro s off w rest hp hoff hlt he
  have hok : Event.accessOk off 4 = true := (accessOk_iff off 4).mpr ⟨rfl, hoff, hlt⟩
  rw [step_of_event he, handleEvent, hostAccess_of_accessOk hok]
  simp only [hostWrite, hp]

theorem readValue_of_not_resultBuffer {r : HostReg} (h : r.resultBuffer = false) (s : State) :
    s.readValue r = s.regWord r := by
  simp [State.readValue, State.readIsFree, h]

theorem readValue_events (r : HostReg) (s : State) (rest : List Event) :
    ({ s with events := rest } : State).readValue r = s.readValue r := by
  rw [State.readValue, regWord_events]
  rfl

/-- A host read leaves the machine as it was, but for the record of the word read and the counter of free values. -/
theorem step_read {s : State} {off : Nat} {rest : List Event} (hoff : off % 4 = 0) (hlt : off < 0x200)
    (he : s.events = .read off 4 :: rest) :
    step s = .next { s with
      events := rest
      hostReads := s.hostReads ++ [s.readValue (hostReg (wordIndex off))]
      draws := if s.readIsFree (hostReg (wordIndex off)) then s.draws + 1 else s.draws } := by
  have hok : Event.accessOk off 4 = true := (accessOk_iff off 4).mpr ⟨rfl, hoff, hlt⟩
  rw [step_of_event he, handleEvent, hostAccess_of_accessOk hok, hostRead, readValue_events]
  rfl

/-- Settles O10, register by register (R23): a busy read of all but the result buffers returns the register's word. -/
theorem busyHostReads : Obligations.BusyHostReads := by
  intro s off rest hp hoff hlt he
  have value {r : HostReg} (hr : hostReg (wordIndex off) = r) (hbuf : r.resultBuffer = false) :
      s.readValue (hostReg (wordIndex off)) = s.regWord r := by
    rw [hr, readValue_of_not_resultBuffer hbuf]
  refine ⟨_, _, step_read hoff hlt he, ?cmd, ?status, ?rawstat, ?addr, ?len, ?seq, ?tweak, ?din, fun h => ?unmapped⟩
  case cmd => rintro rfl; exact value hostReg_cmd rfl
  case status =>
    rintro rfl
    have hword := value hostReg_status rfl
    exact ⟨hword, by rw [hword, State.regWord, getLsbD_statusWord]; exact decide_eq_true hp⟩
  case rawstat =>
    rintro rfl
    have hword := value hostReg_rawstat rfl
    refine ⟨hword, fun hinv => hword.trans ?_⟩
    obtain ⟨-, -, -, -, hraw⟩ := hinv.runningClear hp
    exact hraw
  case addr => rintro rfl; exact value hostReg_addr rfl
  case len => rintro rfl; exact value hostReg_len rfl
  case seq => rintro rfl; exact value hostReg_seq rfl
  case tweak => rintro k hk rfl; exact value (hostReg_tweak ⟨k, hk⟩) rfl
  case din => rintro k hk rfl; exact value (hostReg_din ⟨k, hk⟩) rfl
  case unmapped => exact value (hostReg_unmapped hoff h) rfl

end Sys2Proof.Machine

/-! ## The raw accesses of a translator command (20_memory.md R79, 42_translator.md R163, R166) -/

namespace Sys2Proof.Machine

/-! ### The plans, access by access -/

/-- `ENC_WRITE`'s plan by access number (42_translator.md R166, R170): the even ones read, the odd ones write. -/
theorem writePlan_eq_map (s : State) : s.writePlan = (List.range (2 * s.blockCount)).map fun n =>
    (decide (n % 2 = 1), s.address / 16 * 16 + 16 * (n / 2)) := by
  unfold State.writePlan
  generalize s.address / 16 * 16 = first
  induction s.blockCount with
  | zero => rfl
  | succ k ih =>
    have hodd : (2 * k + 1) / 2 = k := by omega
    simp [List.range_succ, List.flatMap_append, ih, Nat.mul_add, hodd]

theorem getElem?_writePlan {s : State} {n : Nat} {x : Bool × Nat} :
    s.writePlan[n]? = some x ↔
      n < 2 * s.blockCount ∧ (decide (n % 2 = 1), s.address / 16 * 16 + 16 * (n / 2)) = x := by
  simp [writePlan_eq_map, List.getElem?_eq_some_iff]

theorem getElem?_readPlan {s : State} {n : Nat} {x : Bool × Nat} :
    s.readPlan[n]? = some x ↔ n < s.blockCount ∧ (false, s.address / 16 * 16 + 16 * n) = x := by
  simp [State.readPlan, List.getElem?_eq_some_iff]

theorem length_writePlan (s : State) : s.writePlan.length = 2 * s.blockCount := by simp [writePlan_eq_map]

theorem length_readPlan (s : State) : s.readPlan.length = s.blockCount := by simp [State.readPlan]

/-- A range has at most 17 blocks (42_translator.md R162). -/
theorem blockCount_le (s : State) : s.blockCount ≤ 17 := by
  have := length_lt s
  unfold State.blockCount
  omega

/-- Block `k` of the range is the last one, or the block after it is block `k + 1` (42_translator.md R163). -/
theorem nextBlock_of_range {s : State} (hok : s.rangeOk) {b : Word} {k : Nat} (hk : k < s.blockCount)
    (hb : s.address / 16 * 16 + 16 * k = b.toNat) :
    b = s.lastBlock ∧ k + 1 = s.blockCount ∨
      b ≠ s.lastBlock ∧ k + 1 < s.blockCount ∧ s.address / 16 * 16 + 16 * (k + 1) = (b + 16).toNat := by
  have hlast := toNat_lastBlock hok
  obtain ⟨hlen, hrange⟩ := hok
  have hcount : s.blockCount = (s.address + s.length - 1) / 16 - s.address / 16 + 1 := rfl
  by_cases he : b = s.lastBlock
  · refine .inl ⟨he, ?_⟩
    rw [he] at hb
    omega
  · have hne : b.toNat ≠ s.lastBlock.toNat := fun h => he (BitVec.eq_of_toNat_eq h)
    have hnext : (b + 16).toNat = b.toNat + 16 := by
      rw [BitVec.toNat_add]
      exact Nat.mod_eq_of_lt (by show b.toNat + 16 < 2 ^ 32; omega)
    exact .inr ⟨he, by omega, by omega⟩

/-- The first `n` accesses of `plan` end with the last one on block `b`: the plan is at its end, or it goes on with a
read of the block after `b`. -/
def BlockEnd (plan : List (Bool × Nat)) (s : State) (n : Nat) (b : Word) : Prop :=
  b = s.lastBlock ∧ n = plan.length ∨ b ≠ s.lastBlock ∧ plan[n]? = some (false, (b + 16).toNat)

theorem blockEnd_writePlan {s : State} (hok : s.rangeOk) {n : Nat} {b : Word}
    (h : s.writePlan[n]? = some (true, b.toNat)) : BlockEnd s.writePlan s (n + 1) b := by
  obtain ⟨hn, hx⟩ := getElem?_writePlan.mp h
  obtain ⟨hodd, hb⟩ := Prod.mk.inj hx
  have hodd : n % 2 = 1 := of_decide_eq_true hodd
  obtain ⟨he, hk⟩ | ⟨he, hk, hb⟩ := nextBlock_of_range hok (by omega) hb
  · exact .inl ⟨he, by rw [length_writePlan]; omega⟩
  · refine .inr ⟨he, getElem?_writePlan.mpr ⟨by omega, Prod.ext (decide_eq_false (by omega)) ?_⟩⟩
    rw [show (n + 1) / 2 = n / 2 + 1 by omega]
    exact hb

theorem blockEnd_readPlan {s : State} (hok : s.rangeOk) {n : Nat} {b : Word}
    (h : s.readPlan[n]? = some (false, b.toNat)) : BlockEnd s.readPlan s (n + 1) b := by
  obtain ⟨hn, hx⟩ := getElem?_readPlan.mp h
  obtain ⟨-, hb⟩ := Prod.mk.inj hx
  obtain ⟨he, hk⟩ | ⟨he, hk, hb⟩ := nextBlock_of_range hok hn hb
  · exact .inl ⟨he, by rw [length_readPlan, hk]⟩
  · exact .inr ⟨he, getElem?_readPlan.mpr ⟨hk, Prod.ext rfl hb⟩⟩

/-- The read of a block is followed by its write. -/
theorem getElem?_writePlan_after_read {s : State} {n b : Nat} (h : s.writePlan[n]? = some (false, b)) :
    s.writePlan[n + 1]? = some (true, b) := by
  obtain ⟨hn, hx⟩ := getElem?_writePlan.mp h
  obtain ⟨heven, hb⟩ := Prod.mk.inj hx
  have heven : n % 2 ≠ 1 := of_decide_eq_false heven
  refine getElem?_writePlan.mpr ⟨by omega, Prod.ext (decide_eq_true (by omega)) ?_⟩
  rw [show (n + 1) / 2 = n / 2 by omega]
  exact hb

/-! ### A command in progress, and where on its plan it stands -/

theorem traffic_memRead (b : Word) (s : State) : (memRead b s).traffic = s.traffic ++ [(false, b.toNat)] := by
  simp [State.traffic]

theorem traffic_memWrite (b : Word) (d : Block) (s : State) :
    (memWrite b d s).traffic = s.traffic ++ [(true, b.toNat)] := by
  simp [State.traffic]

/-- The command begun in `s₀` has ended in `s` somewhere on its plan, and at the plan's end unless with an error. -/
def EndedOnPlan (plan : List (Bool × Nat)) (s₀ s : State) : Prop :=
  ∃ n ≤ plan.length, s.traffic = s₀.traffic ++ plan.take n ∧ (s.status.eclass = .none → n = plan.length)

/-- The command begun in `s₀` has made the first `n` accesses of its plan, and none besides. -/
def Followed (plan : List (Bool × Nat)) (s₀ : State) (n : Nat) (s : State) : Prop :=
  s.iter.last = s₀.lastBlock ∧ s.traffic = s₀.traffic ++ plan.take n

/-- The command begun in `s₀` is in progress, and access `n` of its plan is due. -/
def DueOnPlan (plan : List (Bool × Nat)) (s₀ : State) (n : Nat) (s : State) : Prop :=
  Followed plan s₀ n s ∧ s.stage ≠ .start ∧ plan[n]? = some (decide (s.stage = .write), s.iter.b.toNat)

/-- The command begun in `s₀` has ended on its plan, or its access `n` is due. -/
def OnPlan (plan : List (Bool × Nat)) (s₀ : State) (n : Nat) (s : State) : Prop :=
  s.stage = .start ∧ EndedOnPlan plan s₀ s ∨ DueOnPlan plan s₀ n s

section
variable {plan : List (Bool × Nat)} {s₀ s : State} {n : Nat}

theorem DueOnPlan.lt (h : DueOnPlan plan s₀ n s) : n < plan.length := by
  obtain ⟨-, -, hdue⟩ := h
  exact (List.getElem?_eq_some_iff.mp hdue).1

/-- An access is made, the one that was due. -/
theorem Followed.access {t : State} {x : Bool × Nat} (h : Followed plan s₀ n s) (hx : plan[n]? = some x)
    (hlast : t.iter.last = s.iter.last) (ht : t.traffic = s.traffic ++ [x]) : Followed plan s₀ (n + 1) t := by
  obtain ⟨hl, hs⟩ := h
  refine ⟨hlast.trans hl, ?_⟩
  rw [ht, hs, List.take_add_one, hx, List.append_assoc]
  rfl

theorem Followed.raiseError {c : ErrClass} {raw : Word} (h : Followed plan s₀ n s) (hn : n ≤ plan.length)
    (hc : c ≠ .none) (m : Nat) : OnPlan plan s₀ m (raiseError c raw s) := by
  obtain ⟨-, hs⟩ := h
  exact .inl ⟨rfl, n, hn, hs, fun he => absurd he hc⟩

theorem Followed.advance (h : Followed plan s₀ n s) (hend : BlockEnd plan s₀ n s.iter.b) :
    OnPlan plan s₀ n (advance s) := by
  obtain ⟨hlast, hs⟩ := h
  obtain ⟨hb, he⟩ | ⟨hb, he⟩ := advance_cases s
  · obtain ⟨-, hlen⟩ | ⟨hne, -⟩ := hend
    · exact he ▸ .inl ⟨rfl, n, hlen.le, hs, fun _ => hlen⟩
    · exact absurd (hb.trans hlast) hne
  · obtain ⟨hb', -⟩ | ⟨-, hnext⟩ := hend
    · exact absurd (hb'.trans hlast.symm) hb
    · exact he ▸ .inr ⟨⟨hlast, hs⟩, by simp, hnext⟩

/-- The read that is due: `use` goes on with the command if the raw store answers with success. -/
theorem DueOnPlan.readCurrent (h : DueOnPlan plan s₀ n s) (hst : s.stage ≠ .write) {use : State → State}
    (huse : ∀ u, u.iter = s.iter → Followed plan s₀ (n + 1) u → OnPlan plan s₀ (n + 1) (use u)) :
    OnPlan plan s₀ (n + 1) (readCurrent use s) := by
  have hlt := h.lt
  obtain ⟨hfollowed, -, hdue⟩ := h
  rw [decide_eq_false hst] at hdue
  have hread : Followed plan s₀ (n + 1) (memRead s.iter.b s) := hfollowed.access hdue rfl (traffic_memRead _ s)
  obtain ⟨-, he⟩ | ⟨-, he⟩ := readCurrent_cases use s
  · exact he ▸ hread.raiseError hlt (by simp) _
  · exact he ▸ huse _ rfl hread

/-- The write that is due. -/
theorem DueOnPlan.writeCurrent (h : DueOnPlan plan s₀ n s) (hst : s.stage = .write)
    (hend : BlockEnd plan s₀ (n + 1) s.iter.b) : OnPlan plan s₀ (n + 1) (writeCurrent s) := by
  have hlt := h.lt
  obtain ⟨hfollowed, -, hdue⟩ := h
  rw [decide_eq_true hst] at hdue
  have hwrite : Followed plan s₀ (n + 1) (memWrite s.iter.b s.scrC s) :=
    hfollowed.access hdue rfl (traffic_memWrite _ _ s)
  obtain ⟨-, he⟩ | ⟨-, he⟩ := writeCurrent_cases s
  · exact he ▸ hwrite.raiseError hlt (by simp) _
  · exact he ▸ hwrite.advance hend

theorem DueOnPlan.encWriteStep (h : DueOnPlan s₀.writePlan s₀ n s) (hok : s₀.rangeOk) :
    OnPlan s₀.writePlan s₀ (n + 1) (encWriteStep s) := by
  have ⟨_, hpending, hdue⟩ := h
  obtain ⟨c, hst, -⟩ | ⟨u, hst, ⟨-, rfl⟩ | ⟨hst', -⟩, he⟩ | ⟨hst, he⟩ := encWriteStep_cases s
  · exact absurd hst hpending
  · rw [decide_eq_false hst] at hdue
    refine he ▸ h.readCurrent hst fun v hv hfollowed => .inr ⟨hfollowed, by simp, ?_⟩
    simpa [hv] using getElem?_writePlan_after_read hdue
  · exact absurd hst' hpending
  · rw [decide_eq_true hst] at hdue
    exact he ▸ h.writeCurrent hst (blockEnd_writePlan hok hdue)

theorem DueOnPlan.encReadStep (h : DueOnPlan s₀.readPlan s₀ n s) (hok : s₀.rangeOk) :
    OnPlan s₀.readPlan s₀ (n + 1) (encReadStep s) := by
  have ⟨_, hpending, hdue⟩ := h
  have hst : s.stage ≠ .write := by
    obtain ⟨-, hx⟩ := getElem?_readPlan.mp hdue
    exact of_decide_eq_false (congrArg Prod.fst hx).symm
  rw [decide_eq_false hst] at hdue
  obtain ⟨c, hst', -⟩ | ⟨u, ⟨-, rfl⟩ | ⟨hst', -⟩, he⟩ := encReadStep_cases s
  · exact absurd hst' hpending
  · exact he ▸ h.readCurrent hst fun v hv hfollowed =>
      Followed.advance hfollowed (hv ▸ blockEnd_readPlan hok hdue :)
  · exact absurd hst' hpending

/-- Core steps that each make the access that is due run to the end of the command, if they are as many as the plan
has accesses left. -/
theorem OnPlan.untilDone {f : State → State} (hf : ∀ n s, DueOnPlan plan s₀ n s → OnPlan plan s₀ (n + 1) (f s))
    {m : Nat} (h : OnPlan plan s₀ n s) (hm : plan.length ≤ n + m) : EndedOnPlan plan s₀ (untilDone f m s) := by
  induction m generalizing n s with
  | zero =>
    obtain ⟨-, hend⟩ | hdue := h
    · exact hend
    · exact absurd hdue.lt (Nat.not_lt.mpr hm)
  | succ m ih =>
    obtain ⟨hst, hend⟩ | hdue := h
    · simpa only [Machine.untilDone, hst] using hend
    · have hrest : EndedOnPlan plan s₀ (Machine.untilDone f m (f s)) := ih (hf n s hdue) (by omega)
      obtain ⟨-, hpending, -⟩ := hdue
      cases hst : s.stage with
      | start => exact absurd hst hpending
      | read => simpa only [Machine.untilDone, hst] using hrest
      | write => simpa only [Machine.untilDone, hst] using hrest

end

/-! ### A command from its start -/

/-- The first access of a command whose checks pass is due once its iterator is set (42_translator.md R162). -/
theorem dueOnPlan_startIterator {plan : List (Bool × Nat)} {s : State}
    (hplan : plan[0]? = some (false, s.address / 16 * 16)) : DueOnPlan plan s 0 (startIterator s) := by
  refine ⟨⟨rfl, by simp [State.traffic]⟩, by simp, ?_⟩
  simpa [toNat_firstBlock] using hplan

theorem encWriteStep_of_start {s : State} (hst : s.stage = .start) (hok : s.rangeOk) :
    encWriteStep s = encWriteStep (startIterator s) := by
  simp only [encWriteStep, hst, startTranslation, (rangeError_eq_none s).mpr hok, startIterator_stage]

theorem encReadStep_of_start {s : State} (hst : s.stage = .start) (hok : s.rangeOk) :
    encReadStep s = encReadStep (startIterator s) := by
  simp only [encReadStep, hst, startTranslation, (rangeError_eq_none s).mpr hok, startIterator_stage]

theorem execEncWrite_endedOnPlan {s t : State} (hst : s.stage = .start) (hok : s.rangeOk)
    (h : execEncWrite s = .next t) : EndedOnPlan s.writePlan s t := by
  have hcount := blockCount_le s
  have hfirst : DueOnPlan s.writePlan s 0 (startIterator s) :=
    dueOnPlan_startIterator (getElem?_writePlan.mpr ⟨by simp [State.blockCount], rfl⟩)
  rw [execEncWrite_eq h, encWriteStep_of_start hst hok]
  exact (hfirst.encWriteStep hok).untilDone (fun _ _ hdue => hdue.encWriteStep hok)
    (by rw [length_writePlan, maxAccesses]; omega)

theorem execEncRead_endedOnPlan {s t : State} (hst : s.stage = .start) (hok : s.rangeOk)
    (h : execEncRead s = .next t) : EndedOnPlan s.readPlan s t := by
  have hcount := blockCount_le s
  have hfirst : DueOnPlan s.readPlan s 0 (startIterator s) :=
    dueOnPlan_startIterator (getElem?_readPlan.mpr ⟨by simp [State.blockCount], rfl⟩)
  rw [execEncRead_eq h, encReadStep_of_start hst hok]
  exact (hfirst.encReadStep hok).untilDone (fun _ _ hdue => hdue.encReadStep hok)
    (by rw [length_readPlan, maxAccesses]; omega)

/-- Settles O44: each core step makes the access of the plan that is due, and only the plan's end completes. -/
theorem rawAccessesFollowThePlan : Obligations.RawAccessesFollowThePlan :=
  fun _ _ hst hok => ⟨execEncWrite_endedOnPlan hst hok, execEncRead_endedOnPlan hst hok⟩

end Sys2Proof.Machine

/-! ## Command words (30_encoding.md R90, R92, R96, R97) -/

namespace Sys2Proof.Machine

/-- Settles O1, row by row of the table. -/
theorem commandWordsDecode : Obligations.CommandWordsDecode := by
  unfold Obligations.CommandWordsDecode
  decide

theorem decode_encode (i : Instr) : decode (encode i) = .command i := by cases i <;> rfl

/-- Settles O2: a legal word is its opcode, and the opcode map is injective. -/
theorem decodeIsTheInverseOfEncode : Obligations.DecodeIsTheInverseOfEncode :=
  fun _ i => ⟨eq_encode_of_decode, fun h => h ▸ decode_encode i⟩

theorem opcodeMap_eq_none_iff (n : Nat) : opcodeMap n = none ↔ n = 0 ∨ 10 ≤ n := by
  match n with
  | 0 | 1 | 2 | 3 | 4 | 5 | 6 | 7 | 8 | 9 => simp [opcodeMap]
  | n + 10 => simp [opcodeMap]

theorem toNat_opcField (w : Word) : (opcField w).toNat = w.toNat % 16 := by
  have := toNat_opcField_add w
  have := (opcField w).isLt
  omega

theorem rsvdField_eq_zero_iff (w : Word) : rsvdField w = 0 ↔ w.toNat / 16 = 0 := by
  have := toNat_opcField_add w
  have := (opcField w).isLt
  rw [← BitVec.toNat_inj, show (0 : BitVec 28).toNat = 0 from rfl]
  omega

/-- Which words are illegal, by the two reasons of R96. -/
theorem decode_illegal_iff (w : Word) :
    (∃ why, decode w = .illegal why) ↔ w.toNat % 16 = 0 ∨ 10 ≤ w.toNat % 16 ∨ w.toNat / 16 ≠ 0 := by
  rw [← or_assoc, ← opcodeMap_eq_none_iff, ← toNat_opcField, Ne, ← rsvdField_eq_zero_iff, decode]
  by_cases hr : rsvdField w = 0
  · rw [if_pos hr]
    cases opcodeMap (opcField w).toNat <;> simp [hr]
  · exact iff_of_true ⟨_, if_neg hr⟩ (.inr hr)

end Sys2Proof.Machine

/-! ## Acceptance, dispatch and completion (30_encoding.md R100 to R103) -/

namespace Sys2Proof.Machine

/-- Settles O8: the word index of offset 0 is `CMD`'s; a busy core's host write is O9's. -/
theorem acceptanceOfACommandWord : Obligations.AcceptanceOfACommandWord := by
  intro s w rest he
  refine ⟨fun hp => ?idle, fun hp => busyHostWritesAreIgnored s 0x000 w rest hp rfl (by decide) he⟩
  case idle =>
    rw [step_idle_write hp rfl (by decide) he, hostReg_cmd]
    rfl

theorem coreTurn_of_command {s : State} {i : Instr} (hp : s.phase = .busy) (hd : decode s.op = .command i) :
    coreTurn s = exec i s := by
  simp only [coreTurn, hp, dispatch, hd]

theorem coreAccess_of_command {s : State} {i : Instr} (hp : s.phase = .busy) (hd : decode s.op = .command i) :
    coreAccess s = execOne i s := by
  simp only [coreAccess, hp, dispatchOne, hd]

theorem coreTurn_of_illegal {s : State} {why : IllegalWord} (hp : s.phase = .busy) (hd : decode s.op = .illegal why) :
    coreTurn s = .next (raiseError .illegalCmd 0 s) := by
  simp only [coreTurn, hp, dispatch, hd, rejectWord]

theorem coreAccess_of_illegal {s : State} {why : IllegalWord} (hp : s.phase = .busy)
    (hd : decode s.op = .illegal why) : coreAccess s = .next (raiseError .illegalCmd 0 s) := by
  simp only [coreAccess, hp, dispatchOne, hd, rejectWord]

/-- Settles O4, by the event at the head of the queue and what `st.op` decodes to. -/
theorem stepRunsTheDecodedCommand : Obligations.StepRunsTheDecodedCommand := by
  refine ⟨fun s i hp hd => ⟨fun he => ?noEvent, fun rest he => ?turn, fun rest he => ?access⟩,
    fun s why hp hd => ⟨fun he => ?illegalNoEvent, fun e rest hturn he => ?illegalEvent⟩⟩
  case noEvent => exact (step_of_no_event he).trans (coreTurn_of_command hp hd)
  case turn => exact (step_of_event he).trans (coreTurn_of_command hp hd)
  case access => exact (step_of_event he).trans (coreAccess_of_command hp hd)
  case illegalNoEvent => exact (step_of_no_event he).trans (coreTurn_of_illegal hp hd)
  case illegalEvent =>
    obtain rfl | rfl := hturn
    · exact (step_of_event he).trans (coreTurn_of_illegal hp hd)
    · exact (step_of_event he).trans (coreAccess_of_illegal hp hd)

theorem withFetchWord_encode (i : Instr) (s : State) :
    s.withFetchWord 32 (encode i).toNat = acceptedNext (encode i) s := by
  rw [State.withFetchWord, Nat.mod_eq_of_lt (encode i).isLt, BitVec.ofNat_toNat, BitVec.setWidth_eq]

/-- Settles O6: the placed word is accepted, the core's turn is next, and the word decodes to the command. -/
theorem placedCommandRunsNext : Obligations.PlacedCommandRunsNext := by
  intro s i
  rw [withFetchWord_encode]
  have hturn : step (acceptedNext (encode i) s) = coreTurn { accept (encode i) s with events := s.events } :=
    step_of_event (e := .turn) rfl
  exact hturn.trans (coreTurn_of_command rfl (decode_encode i))

/-- Settles O18, field by field; `BUSY` is the phase (R26). -/
theorem successfulCompletion : Obligations.SuccessfulCompletion := by
  intro s
  have hbusy : (complete s).statusWord.getLsbD 0 = false := getLsbD_statusWord (complete s) 0
  exact ⟨rfl, rfl, rfl, rfl, rfl, rfl, hbusy, rfl, rfl, rfl, ⟨rfl, rfl⟩, ⟨rfl, rfl, rfl, rfl, rfl⟩, rfl, rfl, rfl, rfl,
    ⟨fun _ => rfl, rfl, rfl⟩, ⟨rfl, rfl, rfl, rfl⟩⟩

/-- Settles O3: an illegal word is accepted like any other, and the core's turn is its error completion. -/
theorem illegalWordsHaveNoOtherEffect : Obligations.IllegalWordsHaveNoOtherEffect := by
  refine ⟨decode_illegal_iff, fun s w rest _ hp he => ?accepted, fun s w rest hw hp hop he => ?rejected⟩
  case accepted => exact ⟨_, (acceptanceOfACommandWord s w rest he).1 hp, rfl, rfl, rfl⟩
  case rejected =>
    obtain ⟨-, hreject⟩ := stepRunsTheDecodedCommand
    obtain ⟨why, hd⟩ := hw
    obtain ⟨-, hturn⟩ := hreject s why hp (hop ▸ hd)
    exact ⟨_, hturn .turn rest (.inl rfl) he, ⟨rfl, rfl, rfl, rfl, rfl, rfl, rfl, rfl, rfl⟩, rfl, ⟨rfl, rfl⟩,
      ⟨rfl, rfl, rfl, rfl, rfl⟩, rfl, rfl, rfl, rfl, ⟨fun _ => rfl, rfl, rfl⟩, rfl, rfl, rfl, rfl⟩

end Sys2Proof.Machine

/-! ## What a translator command leaves alone (30_encoding.md R94, 42_translator.md R170, R172) -/

namespace Sys2Proof.Machine

/-- What no translator command writes besides the operands: `DOUT`, `KEYIO`, `KNZ` and `IGN`. -/
def ResultsKept (s t : State) : Prop :=
  t.dout = s.dout ∧ t.keyio = s.keyio ∧ t.status.knz = s.status.knz ∧ t.status.ign = s.status.ign

theorem resultsKept_keptByTranslator (s : State) : KeptByTranslator (ResultsKept s) where
  raise _ _ _ h := h
  complete _ h := h
  iterate _ _ _ h := h
  read _ _ h := h
  write _ _ _ h := by simpa [ResultsKept] using h
  decrypt _ _ h := h
  overlay _ h := h
  copy _ _ _ h := h

/-- The key, the operands, the other registers and the outside world, for both translator commands. -/
theorem translator_frame {i : Instr} {s t : State} (hi : i = .encWrite ∨ i = .encRead) (h : exec i s = .next t) :
    KeysKept s t ∧ OperandsKept s t ∧ ResultsKept s t ∧ OutsideKept s t := by
  have hone (hw : i ≠ .encWrite) (hr : i ≠ .encRead) {P : Prop} : P := (hi.elim hw hr).elim
  have hkey := (keyStateKept_keptByTranslator s).command (.inl h) (fun hw hr _ => hone hw hr) (.refl s)
  have hresults := (resultsKept_keptByTranslator s).command (.inl h) (fun hw hr _ => hone hw hr) ⟨rfl, rfl, rfl, rfl⟩
  exact ⟨hkey.1, command_operandsKept (.inl h), hresults, command_outsideKept (.inl h)⟩

/-! ### `DATABUF` -/

theorem advance_databuf (s : State) : (advance s).databuf = s.databuf := by
  obtain ⟨-, h⟩ | ⟨-, h⟩ := advance_cases s
  · exact h ▸ rfl
  · exact h ▸ rfl

theorem ReadsFrom.databuf {s u : State} (h : ReadsFrom s u) : u.databuf = s.databuf := by
  obtain ⟨-, rfl⟩ | ⟨-, -, rfl⟩ := h
  · rfl
  · rfl

/-- `ENC_WRITE` only reads the caller's bytes (42_translator.md R169). -/
theorem encWriteStep_databuf (s : State) : (encWriteStep s).databuf = s.databuf := by
  obtain ⟨c, -, -, h⟩ | ⟨u, -, hu, h⟩ | ⟨-, h⟩ := encWriteStep_cases s
  · exact h ▸ rfl
  · rw [h, ← hu.databuf]
    obtain ⟨-, hread⟩ | ⟨-, hread⟩ := readCurrent_cases overlayScratch u
    · rw [hread, raiseError_databuf, memRead_databuf]
    · rw [hread, overlayScratch_databuf, decryptScratch_databuf, memRead_databuf]
  · rw [h]
    obtain ⟨-, hwrite⟩ | ⟨-, hwrite⟩ := writeCurrent_cases s
    · rw [hwrite, raiseError_databuf, memWrite_databuf]
    · rw [hwrite, advance_databuf, memWrite_databuf]

/-- `LEN` is as before, and so is every caller byte from `LEN` on. -/
def BufferKeptPastLength (s t : State) : Prop :=
  t.len = s.len ∧ ∀ j, s.length ≤ j → bufByte t.databuf j = bufByte s.databuf j

theorem BufferKeptPastLength.refl (s : State) : BufferKeptPastLength s s := ⟨rfl, fun _ _ => rfl⟩

theorem BufferKeptPastLength.trans {s t u : State} (h : BufferKeptPastLength s t) (h' : BufferKeptPastLength t u) :
    BufferKeptPastLength s u := by
  obtain ⟨hlen, hbuf⟩ := h
  obtain ⟨hlen', hbuf'⟩ := h'
  exact ⟨hlen'.trans hlen, fun j hj =>
    (hbuf' j (by rw [State.length, hlen]; exact hj)).trans (hbuf j hj)⟩

theorem advance_len (s : State) : (advance s).len = s.len := by
  obtain ⟨-, h⟩ | ⟨-, h⟩ := advance_cases s
  · exact h ▸ rfl
  · exact h ▸ rfl

/-- R172's loop stops at position `LEN`. -/
theorem copyScratch_bufferKept (s : State) : BufferKeptPastLength s (copyScratch s) := by
  refine ⟨advance_len _, fun j hj => ?_⟩
  rw [copyScratch, advance_databuf]
  obtain ⟨-, hcopy⟩ := copyOut_spec s.scrS s.length 16 s.databuf s.iter.off.toNat s.iter.j.toNat (length_lt s).le
  exact (hcopy j).trans (if_neg (by omega))

theorem ReadsFrom.bufferKept {s u : State} (h : ReadsFrom s u) : BufferKeptPastLength s u := by
  obtain ⟨-, rfl⟩ | ⟨-, -, rfl⟩ := h
  · exact .refl u
  · exact .refl s

theorem decryptRead_bufferKept (b : Word) (d : Block) (s : State) :
    BufferKeptPastLength s (decryptScratch d (memRead b s)) := ⟨rfl, fun _ _ => rfl⟩

theorem encReadStep_bufferKept (s : State) : BufferKeptPastLength s (encReadStep s) := by
  obtain ⟨c, -, -, h⟩ | ⟨u, hu, h⟩ := encReadStep_cases s
  · exact h ▸ .refl s
  · rw [h]
    refine hu.bufferKept.trans ?_
    obtain ⟨-, hread⟩ | ⟨-, hread⟩ := readCurrent_cases copyScratch u
    · rw [hread]
      exact .refl u
    · rw [hread]
      exact (decryptRead_bufferKept _ _ u).trans (copyScratch_bufferKept _)

/-- Settles O45, by what every core step of `ENC_WRITE` keeps. -/
theorem encWriteFrame : Obligations.EncWriteFrame := by
  intro s t h
  obtain ⟨hkeys, hoperands, ⟨hdout, hkeyio, hknz, hign⟩, houtside⟩ := translator_frame (.inl rfl) h
  have hbuf : t.databuf = s.databuf :=
    execEncWrite_keeps (P := fun u => u.databuf = s.databuf) (fun u hu => (encWriteStep_databuf u).trans hu) rfl h
  exact ⟨hkeys, hoperands, hdout, hkeyio, hbuf, hknz, hign, houtside⟩

/-- Settles O46, by what every core step of `ENC_READ` keeps. -/
theorem encReadFrame : Obligations.EncReadFrame := by
  intro s t h
  obtain ⟨hkeys, hoperands, ⟨hdout, hkeyio, hknz, hign⟩, houtside⟩ := translator_frame (.inr rfl) h
  obtain ⟨-, hbuf⟩ := execEncRead_keeps (P := BufferKeptPastLength s)
    (fun u hu => hu.trans (encReadStep_bufferKept u)) (.refl s) h
  have hsm : t.sm = s.sm := command_sm (.inl h) (by simp)
  exact ⟨hkeys, hoperands, hdout, hkeyio, hknz, hign, houtside, fun _ => by rw [hsm], fun j _ hj => hbuf j hj⟩

end Sys2Proof.Machine

/-! ## Core steps and completion (30_encoding.md R102, R104) -/

namespace Sys2Proof.Machine

/-! ### A core step goes on with the command or ends it -/

/-- `t` is in the command in progress in `s`: a raw access is still due. -/
def GoesOn (s t : State) : Prop := t.stage ≠ .start ∧ t.phase = s.phase

/-- A command has ended in `t`, with `DONE` set. -/
def Ended (t : State) : Prop := t.stage = .start ∧ t.phase = .idle ∧ t.status.done = true

theorem advance_goesOn_or_ended (s : State) : GoesOn s (advance s) ∨ Ended (advance s) := by
  obtain ⟨-, h⟩ | ⟨-, h⟩ := advance_cases s
  · exact .inr (h ▸ ⟨rfl, rfl, rfl⟩)
  · exact .inl (h ▸ ⟨by simp, rfl⟩)

theorem overlayScratch_goesOn (s : State) : GoesOn s (overlayScratch s) := ⟨by simp, rfl⟩

theorem copyScratch_goesOn_or_ended (s : State) : GoesOn s (copyScratch s) ∨ Ended (copyScratch s) :=
  advance_goesOn_or_ended _

theorem ended_raiseError (c : ErrClass) (raw : Word) (s : State) : Ended (raiseError c raw s) := ⟨rfl, rfl, rfl⟩

theorem ReadsFrom.phase {s u : State} (h : ReadsFrom s u) : u.phase = s.phase := by
  obtain ⟨-, rfl⟩ | ⟨-, -, rfl⟩ := h
  · rfl
  · rfl

theorem readCurrent_goesOn_or_ended {use : State → State} (huse : ∀ u, GoesOn u (use u) ∨ Ended (use u)) (s : State) :
    GoesOn s (readCurrent use s) ∨ Ended (readCurrent use s) := by
  obtain ⟨-, h⟩ | ⟨-, h⟩ := readCurrent_cases use s
  · exact .inr (h ▸ ended_raiseError _ _ _)
  · have hnext := huse (decryptScratch (readBlock s.sm s.iter.b.toNat) (memRead s.iter.b s))
    rw [h]
    rwa [GoesOn, decryptScratch_phase, memRead_phase] at hnext

theorem writeCurrent_goesOn_or_ended (s : State) : GoesOn s (writeCurrent s) ∨ Ended (writeCurrent s) := by
  obtain ⟨-, h⟩ | ⟨-, h⟩ := writeCurrent_cases s
  · exact .inr (h ▸ ended_raiseError _ _ _)
  · have hnext := advance_goesOn_or_ended (memWrite s.iter.b s.scrC s)
    rw [h]
    rwa [GoesOn, memWrite_phase] at hnext

theorem encWriteStep_goesOn_or_ended (s : State) : GoesOn s (encWriteStep s) ∨ Ended (encWriteStep s) := by
  obtain ⟨c, -, -, h⟩ | ⟨u, -, hu, h⟩ | ⟨-, h⟩ := encWriteStep_cases s
  · exact .inr (h ▸ ended_raiseError c 0 s)
  · rw [h, GoesOn, ← hu.phase]
    exact readCurrent_goesOn_or_ended (fun v => .inl (overlayScratch_goesOn v)) u
  · exact h ▸ writeCurrent_goesOn_or_ended s

theorem encReadStep_goesOn_or_ended (s : State) : GoesOn s (encReadStep s) ∨ Ended (encReadStep s) := by
  obtain ⟨c, -, -, h⟩ | ⟨u, hu, h⟩ := encReadStep_cases s
  · exact .inr (h ▸ ended_raiseError c 0 s)
  · rw [h, GoesOn, ← hu.phase]
    exact readCurrent_goesOn_or_ended copyScratch_goesOn_or_ended u

/-! ### A core step makes one raw access or ends the command -/

/-- Between `s` and `t` there is one raw access, or none and the core is idle. -/
def AccessedOrIdle (s t : State) : Prop :=
  (∃ x, t.rawLog = s.rawLog ++ [x]) ∨ t.rawLog = s.rawLog ∧ t.phase = .idle

theorem advance_rawLog (s : State) : (advance s).rawLog = s.rawLog := by
  obtain ⟨-, h⟩ | ⟨-, h⟩ := advance_cases s
  · exact h ▸ rfl
  · exact h ▸ rfl

theorem copyScratch_rawLog (s : State) : (copyScratch s).rawLog = s.rawLog := advance_rawLog _

theorem ReadsFrom.rawLog {s u : State} (h : ReadsFrom s u) : u.rawLog = s.rawLog := by
  obtain ⟨-, rfl⟩ | ⟨-, -, rfl⟩ := h
  · rfl
  · rfl

theorem readCurrent_rawLog {use : State → State} (huse : ∀ u, (use u).rawLog = u.rawLog) (s : State) :
    ∃ x, (readCurrent use s).rawLog = s.rawLog ++ [x] := by
  obtain ⟨-, h⟩ | ⟨-, h⟩ := readCurrent_cases use s
  · exact ⟨_, by rw [h, raiseError_rawLog, memRead_rawLog]⟩
  · exact ⟨_, by rw [h, huse, decryptScratch_rawLog, memRead_rawLog]⟩

theorem writeCurrent_rawLog (s : State) : ∃ x, (writeCurrent s).rawLog = s.rawLog ++ [x] := by
  obtain ⟨-, h⟩ | ⟨-, h⟩ := writeCurrent_cases s
  · exact ⟨_, by rw [h, raiseError_rawLog, memWrite_rawLog]⟩
  · exact ⟨_, by rw [h, advance_rawLog, memWrite_rawLog]⟩

theorem encWriteStep_accessedOrIdle (s : State) : AccessedOrIdle s (encWriteStep s) := by
  obtain ⟨c, -, -, h⟩ | ⟨u, -, hu, h⟩ | ⟨-, h⟩ := encWriteStep_cases s
  · exact .inr (h ▸ ⟨rfl, rfl⟩)
  · exact .inl (by rw [h, ← hu.rawLog]; exact readCurrent_rawLog overlayScratch_rawLog u)
  · exact .inl (h ▸ writeCurrent_rawLog s)

theorem encReadStep_accessedOrIdle (s : State) : AccessedOrIdle s (encReadStep s) := by
  obtain ⟨c, -, -, h⟩ | ⟨u, hu, h⟩ := encReadStep_cases s
  · exact .inr (h ▸ ⟨rfl, rfl⟩)
  · exact .inl (by rw [h, ← hu.rawLog]; exact readCurrent_rawLog copyScratch_rawLog u)

/-- A command of one core step completes without a raw access (30_encoding.md R104). -/
theorem exec_of_not_translator {i : Instr} {s t : State} (hw : i ≠ .encWrite) (hr : i ≠ .encRead)
    (h : exec i s = .next t) : t.rawLog = s.rawLog ∧ Ended t := by
  cases i with
  | encWrite => exact absurd rfl hw
  | encRead => exact absurd rfl hr
  | gfDbl | xexEnc | xexDec | setKey | getKey | clearKey | keyNz =>
    exact Host.Outcome.next.inj h ▸ ⟨rfl, rfl, rfl, rfl⟩

theorem afterOne_eq {i : Instr} {s t : State} (h : execOne i s = .next t) : afterOne i s = t := by
  simp only [afterOne, h]

theorem afterOne_encWrite : afterOne .encWrite = encWriteStep := rfl

theorem afterOne_encRead : afterOne .encRead = encReadStep := rfl

theorem execOne_of_not_translator {i : Instr} (hw : i ≠ .encWrite) (hr : i ≠ .encRead) (s : State) :
    execOne i s = exec i s := by
  cases i with
  | encWrite => exact absurd rfl hw
  | encRead => exact absurd rfl hr
  | gfDbl | xexEnc | xexDec | setKey | getKey | clearKey | keyNz => rfl

theorem afterOne_accessedOrIdle (i : Instr) (s : State) : AccessedOrIdle s (afterOne i s) := by
  by_cases hw : i = .encWrite
  · exact hw ▸ encWriteStep_accessedOrIdle s
  by_cases hr : i = .encRead
  · exact hr ▸ encReadStep_accessedOrIdle s
  obtain ⟨t, ht⟩ := exec_next i s
  obtain ⟨hlog, -, hidle, -⟩ := exec_of_not_translator hw hr ht
  rw [afterOne_eq ((execOne_of_not_translator hw hr s).trans ht)]
  exact .inr ⟨hlog, hidle⟩

/-! ### A command is its core steps -/

/-- A first core step and then further ones are a run of core steps, and a busy core is busy before each. -/
theorem iterate_of_untilDone {f : State → State} (hf : ∀ s, GoesOn s (f s) ∨ Ended (f s)) (n : Nat) (s : State) :
    ∃ k ≤ n + 1, f^[k] s = untilDone f n (f s) ∧ (s.phase = .busy → ∀ m < k, (f^[m] s).phase = .busy) := by
  obtain ⟨k, hk, hrun, hpending⟩ := untilDone_iterate f n (f s)
  refine ⟨k + 1, by omega, hrun, fun hbusy m hm => ?_⟩
  induction m with
  | zero => exact hbusy
  | succ m ih =>
    have hstage : (f^[m + 1] s).stage ≠ .start := hpending m (by omega)
    rw [Function.iterate_succ_apply'] at hstage ⊢
    obtain ⟨-, hphase⟩ | ⟨hstart, -⟩ := hf (f^[m] s)
    · exact hphase.trans (ih (by omega))
    · exact absurd hstart hstage

/-- Settles O50: a command of one core step is that step; a translator command's run is `iterate_of_untilDone`'s. -/
theorem aCommandIsItsCoreSteps : Obligations.ACommandIsItsCoreSteps := by
  refine ⟨afterOne_accessedOrIdle, fun i s t h => ?_⟩
  by_cases hw : i = .encWrite
  · subst hw
    exact execEncWrite_eq h ▸ afterOne_encWrite ▸ iterate_of_untilDone encWriteStep_goesOn_or_ended maxAccesses s
  by_cases hr : i = .encRead
  · subst hr
    exact execEncRead_eq h ▸ afterOne_encRead ▸ iterate_of_untilDone encReadStep_goesOn_or_ended maxAccesses s
  refine ⟨1, by omega, afterOne_eq ((execOne_of_not_translator hw hr s).trans h), fun hbusy m hm => ?_⟩
  rw [Nat.lt_one_iff.mp hm]
  exact hbusy

/-! ### Every command completes -/

/-- The log of raw accesses only grows. -/
theorem rawLogGrows_keptByTranslator (s : State) : KeptByTranslator fun t => s.rawLog <+: t.rawLog where
  raise _ _ _ h := h
  complete _ h := h
  iterate _ _ _ h := h
  read b t h := h.trans (memRead_rawLog b t ▸ List.prefix_append _ _)
  write b d t h := h.trans (memWrite_rawLog b d t ▸ List.prefix_append _ _)
  decrypt _ _ h := h
  overlay _ h := h
  copy _ _ _ h := h

theorem length_traffic (s : State) : s.traffic.length = s.rawLog.length := List.length_map _

/-- A command that has ended on its plan made at most the plan's accesses. -/
theorem EndedOnPlan.length_rawLog {plan : List (Bool × Nat)} {s₀ s : State} (h : EndedOnPlan plan s₀ s) :
    s.rawLog.length ≤ s₀.rawLog.length + plan.length := by
  obtain ⟨n, hn, htraffic, -⟩ := h
  rw [← length_traffic, htraffic, List.length_append, List.length_take, length_traffic]
  omega

theorem DueOnPlan.length_rawLog {plan : List (Bool × Nat)} {s₀ s : State} {n : Nat} (h : DueOnPlan plan s₀ n s) :
    s.rawLog.length = s₀.rawLog.length + n := by
  have hlt := h.lt
  obtain ⟨⟨-, htraffic⟩, -⟩ := h
  rw [← length_traffic, htraffic, List.length_append, List.length_take, length_traffic, Nat.min_eq_left hlt.le]

/-- The accesses of the plan that are left fall by one at each core step, so more core steps than those end the
command. -/
theorem OnPlan.untilDone_stage {plan : List (Bool × Nat)} {s₀ s : State} {n m : Nat} {f : State → State}
    (hf : ∀ n s, DueOnPlan plan s₀ n s → OnPlan plan s₀ (n + 1) (f s)) (h : OnPlan plan s₀ n s)
    (hm : plan.length < n + m) : (Machine.untilDone f m s).stage = .start := by
  have due {k : Nat} {u : State} (hu : OnPlan plan s₀ k u) (hst : u.stage ≠ .start) : DueOnPlan plan s₀ k u :=
    hu.resolve_left fun hend => hst hend.1
  refine (untilDone_ends (P := fun u => ∃ k, OnPlan plan s₀ k u)
    (fun u => plan.length + s₀.rawLog.length - u.rawLog.length) (fun u hst hu => ?step) m ⟨n, h⟩ fun hst => ?start).2
  case step =>
    obtain ⟨k, hu⟩ := hu
    have hdue := due hu hst
    refine ⟨⟨k + 1, hf k u hdue⟩, fun hst' => ?_⟩
    have hdue' := due (hf k u hdue) hst'
    have := hdue.lt
    have := hdue.length_rawLog
    have := hdue'.length_rawLog
    omega
  case start =>
    have := (due h hst).lt
    have := (due h hst).length_rawLog
    omega

theorem untilDone_of_start (f : State → State) (n : Nat) {s : State} (h : s.stage = .start) : untilDone f n s = s := by
  cases n with
  | zero => rfl
  | succ n => simp only [untilDone, h]

/-- A translator command that goes by its plan ends, and made at most the plan's accesses. -/
theorem untilDone_ended_and_length {f : State → State} {plan : List (Bool × Nat)} {s : State}
    (hf : ∀ u, GoesOn u (f u) ∨ Ended (f u)) (hfail : ∀ c, s.rangeError = some c → f s = raiseError c 0 s)
    (hfirst : s.rangeOk → OnPlan plan s 1 (f s))
    (hstep : s.rangeOk → ∀ n u, DueOnPlan plan s n u → OnPlan plan s (n + 1) (f u)) (hlen : plan.length ≤ maxAccesses) :
    Ended (untilDone f maxAccesses (f s)) ∧
      (untilDone f maxAccesses (f s)).rawLog.length ≤ s.rawLog.length + plan.length := by
  have ended (u : State) (hst : (f u).stage = .start) : Ended (f u) := (hf u).resolve_left fun hgo => hgo.1 hst
  cases hr : s.rangeError with
  | some c =>
    rw [hfail c hr, untilDone_of_start f maxAccesses (raiseError_stage c 0 s)]
    exact ⟨ended_raiseError c 0 s, Nat.le_add_right _ _⟩
  | none =>
    have hok : s.rangeOk := (rangeError_eq_none s).mp hr
    have hstage := (hfirst hok).untilDone_stage (hstep hok) (m := maxAccesses) (by omega)
    have hended := (hfirst hok).untilDone (hstep hok) (m := maxAccesses) (by omega)
    exact ⟨untilDone_keeps (P := fun u => u.stage = .start → Ended u) (fun u _ => ended u) _ (ended s) hstage,
      hended.length_rawLog⟩

theorem execEncWrite_ended {s t : State} (hst : s.stage = .start) (h : execEncWrite s = .next t) :
    Ended t ∧ t.rawLog.length ≤ s.rawLog.length + 34 := by
  have hcount := blockCount_le s
  have hlen := length_writePlan s
  have hdue : DueOnPlan s.writePlan s 0 (startIterator s) :=
    dueOnPlan_startIterator (getElem?_writePlan.mpr ⟨by simp [State.blockCount], rfl⟩)
  obtain ⟨hended, hlog⟩ := untilDone_ended_and_length (s := s) (plan := s.writePlan) encWriteStep_goesOn_or_ended
    (fun c hr => by simp only [encWriteStep, hst, startTranslation, hr])
    (fun hok => encWriteStep_of_start hst hok ▸ hdue.encWriteStep hok)
    (fun hok _ _ hu => hu.encWriteStep hok) (by rw [maxAccesses]; omega)
  rw [execEncWrite_eq h]
  exact ⟨hended, by omega⟩

theorem execEncRead_ended {s t : State} (hst : s.stage = .start) (h : execEncRead s = .next t) :
    Ended t ∧ t.rawLog.length ≤ s.rawLog.length + 17 := by
  have hcount := blockCount_le s
  have hlen := length_readPlan s
  have hdue : DueOnPlan s.readPlan s 0 (startIterator s) :=
    dueOnPlan_startIterator (getElem?_readPlan.mpr ⟨by simp [State.blockCount], rfl⟩)
  obtain ⟨hended, hlog⟩ := untilDone_ended_and_length (s := s) (plan := s.readPlan) encReadStep_goesOn_or_ended
    (fun c hr => by simp only [encReadStep, hst, startTranslation, hr])
    (fun hok => encReadStep_of_start hst hok ▸ hdue.encReadStep hok)
    (fun hok _ _ hu => hu.encReadStep hok) (by rw [maxAccesses]; omega)
  rw [execEncRead_eq h]
  exact ⟨hended, by omega⟩

/-- The most raw accesses of a command (30_encoding.md R104). -/
def accessBound (i : Instr) : Nat := if i = .encWrite then 34 else if i = .encRead then 17 else 0

theorem exec_ended {i : Instr} {s t : State} (hst : s.stage = .start) (h : exec i s = .next t) :
    Ended t ∧ t.rawLog.length ≤ s.rawLog.length + accessBound i := by
  by_cases hw : i = .encWrite
  · subst hw
    exact execEncWrite_ended hst h
  by_cases hr : i = .encRead
  · subst hr
    exact execEncRead_ended hst h
  obtain ⟨hlog, hended⟩ := exec_of_not_translator hw hr h
  exact ⟨hended, by rw [hlog]; exact Nat.le_add_right _ _⟩

/-- Settles O49: the log of a command that has ended extends the one it started from, by at most the bound. -/
theorem everyCommandCompletes : Obligations.EveryCommandCompletes := by
  intro i s hst
  obtain ⟨t, ht⟩ := exec_next i s
  obtain ⟨⟨-, hidle, hdone⟩, hlen⟩ := exec_ended hst ht
  have hgrows : s.rawLog <+: t.rawLog := (rawLogGrows_keptByTranslator s).command (.inl ht)
    (fun hw hr h => (exec_of_not_translator hw hr h).1 ▸ List.prefix_rfl) List.prefix_rfl
  obtain ⟨l, hl⟩ := hgrows
  refine ⟨t, ht, hidle, hdone, l, hl.symm, Nat.le_of_add_le_add_left (a := s.rawLog.length) ?_⟩
  rw [← List.length_append, hl]
  exact hlen

end Sys2Proof.Machine

/-! ## The GF(2^128) doubler (40_gf_doubler.md R120 to R125) -/

namespace Sys2Proof.Machine

/-! ### A shift by one, bit by bit -/

theorem getLsbD_shiftLeft_one_succ {w : Nat} (x : BitVec w) {i : Nat} (h : i + 1 < w) :
    (x <<< 1).getLsbD (i + 1) = x.getLsbD i := by
  rw [BitVec.getLsbD_shiftLeft, decide_eq_true h, Bool.true_and, Nat.add_sub_cancel,
    decide_eq_false (by omega), Bool.not_false, Bool.true_and]

theorem getLsbD_shiftLeft_one_zero {w : Nat} (x : BitVec w) : (x <<< 1).getLsbD 0 = false := by
  simp only [BitVec.getLsbD_shiftLeft, Nat.zero_lt_one, decide_true, Bool.not_true, Bool.and_false, Bool.false_and]

/-! ### `dbl` by its carry, and as an integer (R120) -/

theorem dbl_of_carry {v : Block} (h : v.getLsbD 127 = true) : dbl v = v <<< 1 ^^^ 0x87 := by
  rw [dbl, if_pos h]

theorem dbl_of_no_carry {v : Block} (h : v.getLsbD 127 = false) : dbl v = v <<< 1 := by
  rw [dbl, h, if_neg Bool.false_ne_true]
  exact BitVec.xor_zero

/-- The carry is the bit the shift loses: the block is at least `2^127`. -/
theorem getLsbD_carry (v : Block) : v.getLsbD 127 = decide (2 ^ 127 ≤ v.toNat) :=
  BitVec.msb_eq_getLsbD_last v ▸ BitVec.msb_eq_decide v

theorem toNat_dbl (v : Block) :
    (dbl v).toNat = (2 * v.toNat % 2 ^ 128) ^^^ (if v.toNat < 2 ^ 127 then 0 else 0x87) := by
  have hshift : (v <<< 1).toNat = 2 * v.toNat % 2 ^ 128 := by
    rw [BitVec.toNat_shiftLeft, Nat.shiftLeft_eq, pow_one, Nat.mul_comm]
  have hcarry := getLsbD_carry v
  by_cases h : v.toNat < 2 ^ 127
  · rw [decide_eq_false (Nat.not_le.mpr h)] at hcarry
    rw [dbl_of_no_carry hcarry, hshift, if_pos h, Nat.xor_zero]
  · rw [decide_eq_true (Nat.not_lt.mp h)] at hcarry
    rw [dbl_of_carry hcarry, BitVec.toNat_xor, hshift, if_neg h]
    rfl

/-! ### The command (R124) -/

/-- Settles O20: the command leaves `dbl` of `DIN` in `DOUT`, and the rest is what completion leaves. -/
theorem gfDblDoublesDin : Obligations.GfDblDoublesDin := by
  intro s
  refine ⟨_, rfl, toNat_dbl s.din, ?completed, rfl, ⟨rfl, rfl⟩, ⟨rfl, rfl, rfl, rfl, rfl⟩, rfl, rfl, rfl,
    ⟨fun _ => rfl, rfl, rfl⟩, ⟨rfl, rfl, rfl, rfl⟩⟩
  case completed => exact ⟨rfl, rfl, rfl, rfl, rfl, rfl, rfl, rfl, rfl⟩

/-! ### The byte algorithm (R121) and its branch-free form (R122) -/

theorem getLsbD_carryIn (b : Bool) (k : Nat) : (if b then (1 : Byte) else 0).getLsbD k = (decide (k = 0) && b) := by
  cases b with
  | false => simp
  | true => simp [BitVec.getLsbD_one]

/-- A shift by one carries the top bit of each byte into the next. -/
theorem byteAt_shiftLeft_one (x : Block) {i : Nat} (h : i < 16) : byteAt (x <<< 1) i =
    if i = 0 then byteAt x 0 <<< 1
    else (byteAt x i <<< 1) ||| (if (byteAt x (i - 1)).getLsbD 7 then 1 else 0) := by
  apply BitVec.eq_of_getLsbD_eq
  intro k hk
  rw [getLsbD_byteAt, decide_eq_true hk, Bool.true_and, apply_ite (BitVec.getLsbD · k), BitVec.getLsbD_or,
    getLsbD_carryIn]
  obtain _ | k := k
  · obtain _ | i := i
    · exact (getLsbD_shiftLeft_one_zero x).trans (getLsbD_shiftLeft_one_zero (byteAt x 0)).symm
    · have hbelow : 8 * (i + 1) + 0 = 8 * i + 7 + 1 := by omega
      rw [hbelow, getLsbD_shiftLeft_one_succ x (by omega), if_neg (Nat.succ_ne_zero i),
        getLsbD_shiftLeft_one_zero, Nat.add_sub_cancel]
      exact (getLsbD_byteAt x i 7).symm
  · have hbit : (x <<< 1).getLsbD (8 * i + (k + 1)) = (byteAt x i <<< 1).getLsbD (k + 1) := by
      rw [← Nat.add_assoc, getLsbD_shiftLeft_one_succ x (by omega), getLsbD_shiftLeft_one_succ _ hk, getLsbD_byteAt,
        decide_eq_true (by omega), Bool.true_and]
    rw [hbit]
    split_ifs with hi
    · rw [hi]
    · simp

/-- The reduction is in byte 0 alone. -/
theorem byteAt_reduction {i : Nat} (h : i < 16) : byteAt (0x87 : Block) i = if i = 0 then 0x87 else 0 := by
  revert i
  decide

theorem byteAt_dbl (x : Block) {i : Nat} (h : i < 16) : byteAt (dbl x) i =
    if i = 0 then (byteAt x 0 <<< 1) ^^^ (if (byteAt x 15).getLsbD 7 then 0x87 else 0)
    else (byteAt x i <<< 1) ||| (if (byteAt x (i - 1)).getLsbD 7 then 1 else 0) := by
  have hcarry : (byteAt x 15).getLsbD 7 = x.getLsbD 127 := getLsbD_byteAt x 15 7
  rw [hcarry]
  cases hc : x.getLsbD 127 with
  | false =>
    rw [dbl_of_no_carry hc, byteAt_shiftLeft_one x h]
    simp
  | true =>
    rw [dbl_of_carry hc, byteAt_xor, byteAt_shiftLeft_one x h, byteAt_reduction h]
    cases i <;> simp

theorem and_fill_eq_ite (b : Bool) : (0x87 : Byte) &&& BitVec.fill 8 b = if b then 0x87 else 0 := by
  cases b <;> rfl

theorem zeroExtend_ofBool_eq_ite (b : Bool) : (BitVec.ofBool b).zeroExtend 8 = if b then 1 else 0 := by
  cases b <;> rfl

theorem dblBytes_eq_dbl (x : Block) : dblBytes x = dbl x :=
  block_ext fun i hi => by
    rw [dblBytes, byteAt_blockOf _ hi, byteAt_dbl x hi, and_fill_eq_ite, zeroExtend_ofBool_eq_ite]

/-- Settles O21, byte by byte. -/
theorem byteAlgorithmDoubles : Obligations.ByteAlgorithmDoubles :=
  fun x => ⟨fun _ hi => byteAt_dbl x hi, dblBytes_eq_dbl x⟩

/-! ### The laws of the doubling function (R125) -/

theorem dbl_zero : dbl 0 = 0 := rfl

theorem reduction_xor (p q : Bool) : (if (p ^^ q) then (0x87 : Block) else 0) =
    (if p then 0x87 else 0) ^^^ (if q then 0x87 else 0) := by
  cases p <;> cases q <;> rfl

theorem dbl_xor (a b : Block) : dbl (a ^^^ b) = dbl a ^^^ dbl b := by
  rw [dbl, dbl, dbl, BitVec.getLsbD_xor, reduction_xor, BitVec.shiftLeft_xor_distrib]
  ac_rfl

/-- Law 3: the shifted value has bit 0 clear, and 0x87 has it set. -/
theorem getLsbD_zero_dbl (a : Block) : (dbl a).getLsbD 0 = a.getLsbD 127 := by
  cases h : a.getLsbD 127 with
  | false => simp [dbl_of_no_carry h]
  | true => simp [dbl_of_carry h]

/-- Undoing the reduction gives the shifted block back. -/
theorem dbl_xor_reduction (a : Block) : dbl a ^^^ (if a.getLsbD 127 then (0x87 : Block) else 0) = a <<< 1 := by
  rw [dbl, BitVec.xor_assoc, BitVec.xor_self, BitVec.xor_zero]

/-- What `halve` puts back at the top. -/
theorem getLsbD_carryOut (b : Bool) (i : Nat) :
    (if b then (1 : Block) <<< 127 else 0).getLsbD i = (decide (127 = i) && b) := by
  cases b with
  | false => exact BitVec.getLsbD_zero.trans (Bool.and_false _).symm
  | true => exact (BitVec.getLsbD_twoPow 127 i).trans (Bool.and_comm _ _)

theorem shiftLeft_shiftRight_or_carry (a : Block) :
    (a <<< 1) >>> 1 ||| (if a.getLsbD 127 then (1 : Block) <<< 127 else 0) = a := by
  apply BitVec.eq_of_getLsbD_eq
  intro i hi
  rw [BitVec.getLsbD_or, BitVec.getLsbD_ushiftRight, getLsbD_carryOut, Nat.add_comm]
  obtain hlt | rfl : i < 127 ∨ 127 = i := by omega
  · rw [getLsbD_shiftLeft_one_succ a (by omega), decide_eq_false (by omega), Bool.false_and, Bool.or_false]
  · rw [BitVec.getLsbD_of_ge _ _ (Nat.le_refl 128), decide_eq_true rfl, Bool.true_and, Bool.false_or]

theorem halve_dbl (a : Block) : halve (dbl a) = a := by
  rw [halve, getLsbD_zero_dbl, dbl_xor_reduction, shiftLeft_shiftRight_or_carry]

/-- Blocks are finitely many, so the left inverse of `dbl` is its right inverse too. -/
theorem dbl_halve (a : Block) : dbl (halve a) = a := by
  have hf : Finite Block := Finite.of_injective (fun x : Block => x.toFin) BitVec.toFin_injective
  have hs : Function.Surjective dbl := Finite.injective_iff_surjective.mp (Function.LeftInverse.injective halve_dbl)
  exact Function.LeftInverse.rightInverse_of_surjective halve_dbl hs a

/-- Doubling 1 only shifts it, until its bit reaches the top. -/
theorem toNat_dblPow_one {k : Nat} (h : k ≤ 127) : (dblPow k 1).toNat = 2 ^ k := by
  induction k with
  | zero => rfl
  | succ k ih =>
    have hk : 2 ^ k < 2 ^ 127 := Nat.pow_lt_pow_right (by decide) h
    rw [dblPow, toNat_dbl, ih (by omega), if_pos hk, Nat.xor_zero, Nat.mod_eq_of_lt (by omega), Nat.pow_succ']

theorem dblPow_128_one : dblPow 128 1 = 0x87 := by
  apply BitVec.eq_of_toNat_eq
  rw [dblPow, toNat_dbl, toNat_dblPow_one (Nat.le_refl 127)]
  rfl

/-- Settles O22, law by law. -/
theorem doublingLaws : Obligations.DoublingLaws :=
  ⟨dbl_zero, dbl_xor, getLsbD_zero_dbl, halve_dbl, dbl_halve, dblPow_128_one, toNat_dblPow_one (Nat.le_refl 127)⟩

/-! ### Doubling is multiplication by `x` in the field (R120, R123) -/

section

open Polynomial

/-- A bit vector as a polynomial over GF(2): bit `i` is the coefficient of `x^i` (R120). -/
noncomputable def bitsPoly {w : Nat} (a : BitVec w) : (ZMod 2)[X] :=
  ∑ i ∈ Finset.range w, if a.getLsbD i then X ^ i else 0

/-- The field's modulus `P` (R120). Irreducible for Lean: a comparison by unfolding would multiply out
`X ^ 128`. -/
@[irreducible] noncomputable def fieldModulus : (ZMod 2)[X] := X ^ 128 + X ^ 7 + X ^ 2 + X + 1

theorem bitsPoly_xor {w : Nat} (a b : BitVec w) : bitsPoly (a ^^^ b) = bitsPoly a + bitsPoly b := by
  rw [bitsPoly, bitsPoly, bitsPoly, ← Finset.sum_add_distrib]
  refine Finset.sum_congr rfl fun i _ => ?_
  rw [BitVec.getLsbD_xor]
  cases a.getLsbD i <;> cases b.getLsbD i <;> simp [CharTwo.add_self_eq_zero]

theorem bitsPoly_twoPow {w k : Nat} (h : k < w) : bitsPoly (BitVec.twoPow w k) = X ^ k := by
  simp [bitsPoly, BitVec.getLsbD_twoPow, h]

/-- A shift by one multiplies by `x`, but for the coefficient of `x^w`, which the vector has no bit for. -/
theorem bitsPoly_shiftLeft_one {w : Nat} (hw : 0 < w) (a : BitVec w) :
    bitsPoly (a <<< 1) + (if a.getLsbD (w - 1) then X ^ w else 0) = X * bitsPoly a := by
  obtain ⟨n, rfl⟩ := Nat.exists_eq_add_of_lt hw
  have hbit : ∀ i, (X : (ZMod 2)[X]) * (if a.getLsbD i then X ^ i else 0) = if a.getLsbD i then X ^ (i + 1) else 0 :=
    fun i => by rw [mul_ite, mul_zero, pow_succ']
  rw [bitsPoly, bitsPoly, Finset.mul_sum, Finset.sum_range_succ', Finset.sum_range_succ _ (0 + n),
    getLsbD_shiftLeft_one_zero, if_neg Bool.false_ne_true, add_zero, hbit, Nat.add_sub_cancel]
  congr 1
  refine Finset.sum_congr rfl fun i hi => ?_
  rw [getLsbD_shiftLeft_one_succ a (Nat.succ_lt_succ (Finset.mem_range.mp hi)), hbit]

theorem bitsPoly_reduction : X ^ 128 + bitsPoly (0x87 : Block) = fieldModulus := by
  have hbits : (0x87 : Block) = BitVec.twoPow 128 7 ^^^ BitVec.twoPow 128 2 ^^^ BitVec.twoPow 128 1 ^^^
      BitVec.twoPow 128 0 := by decide
  rw [hbits, bitsPoly_xor, bitsPoly_xor, bitsPoly_xor, bitsPoly_twoPow (by decide), bitsPoly_twoPow (by decide),
    bitsPoly_twoPow (by decide), bitsPoly_twoPow (by decide)]
  unfold fieldModulus
  ring

/-- Doubling multiplies by `x`, and takes the modulus off a product of degree 128. -/
theorem bitsPoly_dbl (a : Block) :
    bitsPoly (dbl a) = X * bitsPoly a + (if a.getLsbD 127 then fieldModulus else 0) := by
  have hshift := bitsPoly_shiftLeft_one (w := 128) (by decide) a
  cases h : a.getLsbD 127 with
  | false =>
    rw [h, if_neg Bool.false_ne_true, add_zero] at hshift
    rw [dbl_of_no_carry h, hshift, if_neg Bool.false_ne_true, add_zero]
  | true =>
    rw [h, if_pos rfl] at hshift
    rw [dbl_of_carry h, bitsPoly_xor, ← hshift, if_pos rfl, ← bitsPoly_reduction, add_assoc,
      CharTwo.add_cancel_left]

theorem fieldModulus_dvd_dbl (a : Block) : fieldModulus ∣ bitsPoly (dbl a) - X * bitsPoly a := by
  rw [bitsPoly_dbl, add_sub_cancel_left]
  split_ifs
  · exact dvd_rfl
  · exact dvd_zero _

/-- One more doubling: its own difference, and `x` times the difference before it. -/
theorem fieldModulus_dvd_dblPow (k : Nat) (a : Block) :
    fieldModulus ∣ bitsPoly (dblPow k a) - X ^ k * bitsPoly a := by
  induction k with
  | zero => simp [dblPow]
  | succ k ih =>
    have hsplit : bitsPoly (dblPow (k + 1) a) - X ^ (k + 1) * bitsPoly a =
        (bitsPoly (dbl (dblPow k a)) - X * bitsPoly (dblPow k a)) +
          X * (bitsPoly (dblPow k a) - X ^ k * bitsPoly a) := by
      rw [dblPow]
      ring
    rw [hsplit]
    exact dvd_add (fieldModulus_dvd_dbl _) (dvd_mul_of_dvd_right ih X)

end

/-- Settles O23: the congruence, with the modulus and the polynomials written out. -/
theorem doublingIsFieldMultiplication : Obligations.DoublingIsFieldMultiplication := by
  intro k a
  have hdvd := fieldModulus_dvd_dblPow k a
  unfold fieldModulus bitsPoly at hdvd
  exact hdvd

end Sys2Proof.Machine

/-! ## The XEX engine (41_xex.md R140 to R148) -/

namespace Sys2Proof.Machine

/-! ### The mask (R140) and the two directions (R141, R142, R144) -/

theorem dblPow_eq_iterate (k : Nat) (v : Block) : dblPow k v = dbl^[k] v := by
  induction k with
  | zero => rfl
  | succ k ih => rw [dblPow, ih, Function.iterate_succ_apply']

theorem xexMask_eq_iterate (c : Cipher) (kt n : Block) (seq : Nat) : xexMask c kt n seq = dbl^[seq] (bcEnc c kt n) :=
  dblPow_eq_iterate seq (bcEnc c kt n)

/-- The mask over the primitive's output comes off, and the primitive's own law (R12) does the rest. -/
theorem xexDecrypt_xexEncrypt (c : Cipher) (ke kt n : Block) (seq : Nat) (p : Block) :
    xexDecrypt c ke kt n seq (xexEncrypt c ke kt n seq p) = p := by
  rw [xexDecrypt, xexEncrypt, xor_cancel_right, bcDec_bcEnc, xor_cancel_right]

/-- R147: the other order too, the primitive being a permutation. -/
theorem xexEncrypt_xexDecrypt (c : Cipher) (ke kt n : Block) (seq : Nat) (y : Block) :
    xexEncrypt c ke kt n seq (xexDecrypt c ke kt n seq y) = y := by
  rw [xexEncrypt, xexDecrypt, xor_cancel_right, bcEnc_bcDec, xor_cancel_right]

/-- Settles O26: the law of `xexDecrypt` after `xexEncrypt`. -/
theorem xexRoundTrip : Obligations.XexRoundTrip := xexDecrypt_xexEncrypt

/-! ### The commands (R146, R147) -/

/-- Where a one-block XEX command ends: `d` is in `DOUT`, and completion has emptied the scratch it came through. -/
def xexDone (d : Block) (s : State) : State := complete { keepSchedule s with dout := d }

theorem exec_xexEnc (s : State) : exec .xexEnc s =
    .next (xexDone (xexEncrypt s.params.cipher s.ke s.kt s.tweak s.tweakIndex s.din) s) := rfl

theorem exec_xexDec (s : State) : exec .xexDec s =
    .next (xexDone (xexDecrypt s.params.cipher s.ke s.kt s.tweak s.tweakIndex s.din) s) := rfl

@[simp] theorem xexDone_dout (d : Block) (s : State) : (xexDone d s).dout = d := rfl

/-- The frame of both commands: all but `DOUT`, the cache and what completion writes. -/
theorem xexDone_frame (d : Block) (s : State) :
    CompletedOk s (xexDone d s) ∧ (xexDone d s).status.knz = s.status.knz ∧ KeysKept s (xexDone d s) ∧
      OperandsKept s (xexDone d s) ∧ (xexDone d s).keyio = s.keyio ∧ (xexDone d s).databuf = s.databuf ∧
      StoreUntouched s (xexDone d s) ∧ OutsideKept s (xexDone d s) := by
  refine ⟨?completed, rfl, ⟨rfl, rfl⟩, ⟨rfl, rfl, rfl, rfl, rfl⟩, rfl, rfl, ⟨fun _ => rfl, rfl, rfl⟩,
    ⟨rfl, rfl, rfl, rfl⟩⟩
  case completed => exact ⟨rfl, rfl, rfl, rfl, rfl, rfl, rfl, rfl, rfl⟩

/-- Settles O24: the mask is R140's, and the rest is the commands' frame. -/
theorem xexEncEncryptsDin : Obligations.XexEncEncryptsDin := by
  intro s
  refine ⟨_, exec_xexEnc s, fun mask hmask => ?_, xexDone_frame _ s⟩
  rw [xexDone_dout, xexEncrypt, xexMask_eq_iterate, State.tweakIndex, hmask]

/-- Settles O25: `XEX_ENC` of the result finds the key, the tweak and the index `XEX_DEC` left, so it takes the
decryption back. -/
theorem xexDecDecryptsDin : Obligations.XexDecDecryptsDin := by
  intro s
  refine ⟨_, exec_xexDec s, fun mask hmask => ?result, fun u hu => ?back, xexDone_frame _ s⟩
  case result => rw [xexDone_dout, xexDecrypt, xexMask_eq_iterate, State.tweakIndex, hmask]
  case back =>
    obtain rfl := Host.Outcome.next.inj ((exec_xexEnc _).symm.trans hu)
    exact xexEncrypt_xexDecrypt s.params.cipher s.ke s.kt s.tweak s.tweakIndex s.din

end Sys2Proof.Machine

/-! ## The checks and the block range of a translator command (42_translator.md R161, R162) -/

namespace Sys2Proof.Machine

theorem rangeError_of_not_rangeOk {s : State} (h : ¬s.rangeOk) :
    s.rangeError = some (if s.len.toNat = 0 then .zeroLen else .range) := by
  cases hr : s.rangeError with
  | none => exact absurd ((rangeError_eq_none s).mp hr) h
  | some c => exact congrArg some (rangeError_eq_some hr).1

/-- A failing check ends a translator command in its first core step (R161). -/
theorem exec_of_rangeError {i : Instr} {s : State} {c : ErrClass} (hi : i = .encWrite ∨ i = .encRead)
    (hst : s.stage = .start) (hr : s.rangeError = some c) : exec i s = .next (raiseError c 0 s) := by
  have ended (f : State → State) : untilDone f maxAccesses (raiseError c 0 s) = raiseError c 0 s :=
    untilDone_of_start f maxAccesses rfl
  obtain rfl | rfl := hi
  · simp only [exec, execEncWrite, encWriteStep, hst, startTranslation, hr, ended]
  · simp only [exec, execEncRead, encReadStep, hst, startTranslation, hr, ended]

/-- Settles O34: the first core step raises the error of the failing check, and nothing else happens. -/
theorem rangeChecksComeFirst : Obligations.RangeChecksComeFirst := by
  intro s i hi hst hok
  refine ⟨_, exec_of_rangeError hi hst (rangeError_of_not_rangeOk hok), ?completed, rfl, ⟨rfl, rfl⟩,
    ⟨rfl, rfl, rfl, rfl, rfl⟩, rfl, rfl, rfl, rfl, ⟨fun _ => rfl, rfl, rfl⟩, ⟨rfl, rfl, rfl, rfl⟩⟩
  case completed => exact ⟨rfl, rfl, rfl, rfl, rfl, rfl, rfl, rfl, rfl⟩

/-- A translator command that ends in no error of R161 was one whose checks passed. -/
theorem rangeOk_of_exec {i : Instr} {s t : State} (hi : i = .encWrite ∨ i = .encRead) (hst : s.stage = .start)
    (h : exec i s = .next t) (hz : t.status.eclass ≠ .zeroLen) (hr : t.status.eclass ≠ .range) : s.rangeOk := by
  by_contra hok
  have hraised := exec_of_rangeError hi hst (rangeError_of_not_rangeOk hok)
  obtain rfl := Host.Outcome.next.inj (hraised.symm.trans h)
  by_cases hlen : s.len.toNat = 0
  · exact hz (if_pos hlen)
  · exact hr (if_neg hlen)

/-- Settles O35: the masks of R162 round down to 16, and the rest is arithmetic. -/
theorem blockRangeOfACommand : Obligations.BlockRangeOfACommand := by
  intro s hok
  have hlen := length_lt s
  have ⟨hpos, _⟩ := hok
  rw [toNat_firstBlock, toNat_firstOffset, toNat_lastBlock hok]
  refine ⟨rfl, rfl, rfl, ?_, ?_, fun h => ?_, fun hoff hmax => ?_⟩ <;> omega

/-! ## The tweak value of a block (42_translator.md R164, R165) -/

theorem byteAt_tweakOf (b : Word) {i : Nat} (h : i < 16) : byteAt (tweakOf b) i = if i < 4 then byteAt b i else 0 :=
  byteAt_blockOf _ h

/-- The twelve zero bytes of R164 extend the block address to 128 bits. -/
theorem tweakOf_eq_setWidth (b : Word) : tweakOf b = b.setWidth 128 := by
  refine block_ext fun i hi => ?_
  rw [byteAt_tweakOf b hi]
  apply BitVec.eq_of_getLsbD_eq
  intro k hk
  rw [getLsbD_byteAt, BitVec.getLsbD_setWidth, decide_eq_true hk, decide_eq_true (by omega : 8 * i + k < 128),
    Bool.true_and, Bool.true_and]
  split_ifs with h4
  · rw [getLsbD_byteAt, decide_eq_true hk, Bool.true_and]
  · rw [BitVec.getLsbD_of_ge b _ (by omega)]
    simp

theorem toNat_tweakOf (b : Word) : (tweakOf b).toNat = b.toNat := by
  rw [tweakOf_eq_setWidth, BitVec.toNat_setWidth_of_le (by decide)]

/-- R165: `seq` is 1, so the mask is one doubling. -/
theorem xexMask_xlateSeq (c : Cipher) (kt n : Block) : xexMask c kt n Config.xlateSeq = dbl (bcEnc c kt n) := rfl

/-- Settles O36: the tweak value is the block address at 128 bits, and the mask unfolds to its one doubling. -/
theorem tweakIsTheBlockAddress : Obligations.TweakIsTheBlockAddress := by
  refine ⟨fun b i hi => byteAt_tweakOf b hi, toNat_tweakOf, fun b b' h => BitVec.eq_of_toNat_eq ?_, ?_⟩
  · rw [← toNat_tweakOf b, h, toNat_tweakOf]
  · rintro s b mask rfl
    have hmask := xexMask_xlateSeq s.params.cipher s.kt (tweakOf b)
    refine ⟨hmask, fun p => ?_, fun d => ?_⟩
    · rw [blockEncrypt, xexEncrypt, hmask]
    · rw [blockDecrypt, xexDecrypt, hmask]

/-! ## The translator and the registers of the single-block commands (42_translator.md R164, R165) -/

section
variable (n : Block) (q : Word) (d o : Block)

/-- `s` with other values in `TWEAK`, `SEQ`, `DIN` and `DOUT`. -/
def State.withXex (s : State) : State := { s with tweak := n, seq := q, din := d, dout := o }

theorem advance_withXex (s : State) : advance (s.withXex n q d o) = (advance s).withXex n q d o := by
  simp only [advance, apply_ite (State.withXex n q d o)]
  rfl

theorem copyScratch_withXex (s : State) : copyScratch (s.withXex n q d o) = (copyScratch s).withXex n q d o := by
  rw [copyScratch, copyScratch, ← advance_withXex]
  rfl

theorem readCurrent_withXex {use : State → State}
    (huse : ∀ s : State, use (s.withXex n q d o) = (use s).withXex n q d o) (s : State) :
    readCurrent use (s.withXex n q d o) = (readCurrent use s).withXex n q d o := by
  cases hok : s.answersOk s.iter.b with
  | true =>
    rw [readCurrent_of_ok use hok, readCurrent_of_ok use (s := s.withXex n q d o) hok, ← huse]
    rfl
  | false =>
    rw [readCurrent_of_error use hok, readCurrent_of_error use (s := s.withXex n q d o) hok]
    rfl

theorem writeCurrent_withXex (s : State) : writeCurrent (s.withXex n q d o) = (writeCurrent s).withXex n q d o := by
  cases hok : s.answersOk s.iter.b with
  | true =>
    rw [writeCurrent_of_ok hok, writeCurrent_of_ok (s := s.withXex n q d o) hok, ← advance_withXex]
    rfl
  | false =>
    rw [writeCurrent_of_error hok, writeCurrent_of_error (s := s.withXex n q d o) hok]
    rfl

theorem startTranslation_withXex {use : State → State}
    (huse : ∀ s : State, use (s.withXex n q d o) = (use s).withXex n q d o) (s : State) :
    startTranslation use (s.withXex n q d o) = (startTranslation use s).withXex n q d o := by
  have hsame : (s.withXex n q d o).rangeError = s.rangeError := rfl
  unfold startTranslation
  rw [hsame]
  cases s.rangeError with
  | some c => rfl
  | none => exact readCurrent_withXex n q d o huse (startIterator s)

theorem encWriteStep_withXex (s : State) : encWriteStep (s.withXex n q d o) = (encWriteStep s).withXex n q d o := by
  have hstage : (s.withXex n q d o).stage = s.stage := rfl
  unfold encWriteStep
  rw [hstage]
  cases s.stage with
  | start => exact startTranslation_withXex n q d o (use := overlayScratch) (fun _ => rfl) s
  | read => exact readCurrent_withXex n q d o (use := overlayScratch) (fun _ => rfl) s
  | write => exact writeCurrent_withXex n q d o s

theorem encReadStep_withXex (s : State) : encReadStep (s.withXex n q d o) = (encReadStep s).withXex n q d o := by
  have hstage : (s.withXex n q d o).stage = s.stage := rfl
  unfold encReadStep
  rw [hstage]
  cases s.stage with
  | start => exact startTranslation_withXex n q d o (copyScratch_withXex n q d o) s
  | read | write => exact readCurrent_withXex n q d o (copyScratch_withXex n q d o) s

theorem untilDone_withXex {f : State → State} (hf : ∀ s : State, f (s.withXex n q d o) = (f s).withXex n q d o)
    (k : Nat) (s : State) : untilDone f k (s.withXex n q d o) = (untilDone f k s).withXex n q d o :=
  untilDone_rel (R := fun u v => v = u.withXex n q d o) (fun u _ hv => hv ▸ hf u) (fun _ _ hv => hv ▸ rfl) k rfl

end

/-- Settles O47: every operation of a core step commutes with other values in the four registers. -/
theorem translatorIgnoresTheXexRegisters : Obligations.TranslatorIgnoresTheXexRegisters := by
  intro s t i n q d o hi h
  show exec i (s.withXex n q d o) = .next (t.withXex n q d o)
  obtain rfl | rfl := hi
  · rw [execEncWrite_eq h, ← untilDone_withXex n q d o (encWriteStep_withXex n q d o), ← encWriteStep_withXex]
    rfl
  · rw [execEncRead_eq h, ← untilDone_withXex n q d o (encReadStep_withXex n q d o), ← encReadStep_withXex]
    rfl

end Sys2Proof.Machine

/-! ## A translator command in progress (42_translator.md R162, R163, R167) -/

namespace Sys2Proof.Machine

/-! ### Plaintext (20_memory.md R71, 42_translator.md R168) -/

theorem blockDecrypt_congr {s t : State} (hk : KeysKept s t) (hp : t.params = s.params) :
    blockDecrypt t = blockDecrypt s := by
  obtain ⟨hke, hkt⟩ := hk
  unfold blockDecrypt
  rw [hke, hkt, hp]

theorem blockEncrypt_congr {s t : State} (hk : KeysKept s t) (hp : t.params = s.params) :
    blockEncrypt t = blockEncrypt s := by
  obtain ⟨hke, hkt⟩ := hk
  unfold blockEncrypt
  rw [hke, hkt, hp]

theorem blockDecrypt_blockEncrypt (s : State) (b : Word) (p : Block) : blockDecrypt s b (blockEncrypt s b p) = p :=
  xexDecrypt_xexEncrypt ..

theorem plainByte_congr {s t : State} (hk : KeysKept s t) (hp : t.params = s.params) {a : Nat}
    (hblock : readBlock t.sm (a / 16 * 16) = readBlock s.sm (a / 16 * 16)) : t.plainByte a = s.plainByte a := by
  rw [State.plainByte, blockDecrypt_congr hk hp, hblock, State.plainByte]

/-- Byte `i` of the decryption of block `b` is the plaintext at `b + i`. -/
theorem plainByte_block (s : State) {b i : Nat} (hb : b % 16 = 0) (hi : i < 16) :
    s.plainByte (b + i) = byteAt (blockDecrypt s (BitVec.ofNat 32 b) (readBlock s.sm b)) i := by
  have hblock : (b + i) / 16 * 16 = b := by omega
  have hindex : (b + i) % 16 = i := by omega
  rw [State.plainByte, hblock, hindex]

/-! ### What every core step before the last one keeps -/

/-- The command begun in `s₀`, whose range passed the checks, is in progress in `s`: operands, key and status are as
they were, and the current block is one of the range. -/
def Underway (s₀ s : State) : Prop :=
  s₀.rangeOk ∧ KeysKept s₀ s ∧ (s.addr = s₀.addr ∧ s.len = s₀.len ∧ s.params = s₀.params) ∧
    (s.status = s₀.status ∧ s.rawstat = s₀.rawstat) ∧ s₀.rawLog <+: s.rawLog ∧ s.iter.last = s₀.lastBlock ∧
    s₀.touches s.iter.b.toNat

/-- The current block is to be read: the offset in it and the position in `DATABUF` are those of its first byte in the
range (R162, R163). -/
def AtBlockStart (s₀ s : State) : Prop :=
  s.iter.off.toNat = s₀.address - s.iter.b.toNat ∧ s.iter.j.toNat = s.iter.b.toNat - s₀.address

/-- The current block's bytes in the range have been transferred. -/
def AtBlockEnd (s₀ s : State) : Prop :=
  s.iter.j.toNat = min (s.iter.b.toNat + 16) (s₀.address + s₀.length) - s₀.address

/-- `t` is `s₀` after a raw error of class `c` at block `b` (R167, 60_exceptions.md R222): the access that failed is the
last of those made since `s₀`. -/
def RawErrorAt (s₀ t : State) (c : ErrClass) (b : Nat) : Prop :=
  c ≠ .none ∧ s₀.touches b ∧ CompletedErr c t.rawstat s₀ t ∧ t.rawstat ≠ s₀.params.rawOk ∧
    ∃ l, t.rawLog =
      s₀.rawLog ++ l ++ [{ isWrite := decide (c = .rawWrite), block := BitVec.ofNat 32 b, status := t.rawstat }]

section
variable {s₀ s : State}

theorem RawErrorAt.ne_none {c : ErrClass} {b : Nat} (h : RawErrorAt s₀ s c b) : c ≠ .none := by
  obtain ⟨hc, -⟩ := h
  exact hc

theorem RawErrorAt.eclass {c : ErrClass} {b : Nat} (h : RawErrorAt s₀ s c b) : s.status.eclass = c := by
  obtain ⟨-, -, ⟨-, -, -, -, -, -, hclass, -⟩, -⟩ := h
  exact hclass

theorem Underway.touches (h : Underway s₀ s) : s₀.touches s.iter.b.toNat := by
  obtain ⟨-, -, -, -, -, -, htouches⟩ := h
  exact htouches

theorem Underway.keys (h : Underway s₀ s) : KeysKept s₀ s ∧ s.params = s₀.params := by
  obtain ⟨-, hkeys, ⟨-, -, hparams⟩, -⟩ := h
  exact ⟨hkeys, hparams⟩

theorem Underway.length (h : Underway s₀ s) : s.length = s₀.length := by
  obtain ⟨-, -, ⟨-, hlen, -⟩, -⟩ := h
  exact congrArg BitVec.toNat hlen

/-- A raw read and the decryption of what it gave. -/
theorem Underway.decryptRead (h : Underway s₀ s) (b : Word) (d : Block) :
    Underway s₀ (decryptScratch d (memRead b s)) := by
  obtain ⟨hok, hkeys, hoperands, hstatus, hlog, hiter⟩ := h
  exact ⟨hok, by simpa [KeysKept] using hkeys, by simpa using hoperands, by simpa using hstatus,
    by simpa using hlog.trans (List.prefix_append _ _), by simpa using hiter⟩

/-- The plaintext of the block read is in scratch (R168). -/
theorem Underway.decryptRead_scrS (h : Underway s₀ s) (b : Word) (d : Block) :
    (decryptScratch d (memRead b s)).scrS = blockDecrypt s₀ s.iter.b d := by
  obtain ⟨hkeys, hparams⟩ := h.keys
  have hdecrypt : blockDecrypt (memRead b s) = blockDecrypt s₀ := blockDecrypt_congr hkeys hparams
  rw [decryptScratch_scrS, hdecrypt, memRead_iter]

theorem Underway.memWrite (h : Underway s₀ s) (b : Word) (d : Block) : Underway s₀ (memWrite b d s) := by
  obtain ⟨hok, hkeys, hoperands, hstatus, hlog, hiter⟩ := h
  exact ⟨hok, by simpa [KeysKept] using hkeys, by simpa using hoperands, by simpa using hstatus,
    by simpa using hlog.trans (List.prefix_append _ _), by simpa using hiter⟩

theorem Underway.overlayScratch (h : Underway s₀ s) : Underway s₀ (overlayScratch s) := by
  simpa [Underway, KeysKept] using h

theorem AtBlockStart.decryptRead (h : AtBlockStart s₀ s) (b : Word) (d : Block) :
    AtBlockStart s₀ (decryptScratch d (memRead b s)) := by
  simpa [AtBlockStart] using h

theorem underway_startIterator (hok : s.rangeOk) :
    Underway s (startIterator s) ∧ AtBlockStart s (startIterator s) := by
  have ⟨hlen, _⟩ := hok
  have hfirst := toNat_firstBlock s
  have hoff := toNat_firstOffset s
  have htouches : s.touches s.firstBlock.toNat := by
    rw [State.touches, hfirst]
    omega
  refine ⟨⟨hok, ⟨rfl, rfl⟩, ⟨rfl, rfl, rfl⟩, ⟨rfl, rfl⟩, List.prefix_rfl, rfl, htouches⟩, ?_, ?_⟩
  · show s.firstOffset.toNat = s.address - s.firstBlock.toNat
    omega
  · show 0 = s.firstBlock.toNat - s.address
    omega

/-- How far the loops of R169 and R172 come in block `b`. -/
theorem transferred_eq (hok : s₀.rangeOk) {b : Nat} (hb : s₀.touches b) :
    b - s₀.address + min 16 (min (16 - (s₀.address - b)) (s₀.length - (b - s₀.address))) =
      min (b + 16) (s₀.address + s₀.length) - s₀.address := by
  obtain ⟨hlen, -⟩ := hok
  obtain ⟨-, hfirst, hlast⟩ := hb
  omega

/-- Either loop, from the start of the current block, comes to its end. -/
theorem AtBlockStart.transfer (hstart : AtBlockStart s₀ s) (h : Underway s₀ s) {u : State} {j : Nat}
    (hb : u.iter.b = s.iter.b) (hu : u.iter.j = BitVec.ofNat 9 j)
    (hj : j = s.iter.j.toNat + min 16 (min (16 - s.iter.off.toNat) (s.length - s.iter.j.toNat))) :
    AtBlockEnd s₀ u := by
  have hlen := length_lt s₀
  have ⟨hok, _⟩ := h
  have hpos := transferred_eq hok h.touches
  obtain ⟨hoff, hj₀⟩ := hstart
  rw [hoff, hj₀, h.length, hpos] at hj
  rw [AtBlockEnd, hb, hu, hj, BitVec.toNat_ofNat, Nat.mod_eq_of_lt (by omega)]

/-- The raw access to the current block fails, and `u` is the state after it. -/
theorem Underway.raiseError (h : Underway s₀ s) {c : ErrClass} {u : State} (hc : c ≠ .none)
    (hstatus : u.status = s.status) (hlog : u.rawLog = s.rawLog ++
      [{ isWrite := decide (c = .rawWrite), block := s.iter.b, status := s.answerStatus s.iter.b }])
    (hbad : s.answerStatus s.iter.b ≠ s.params.rawOk) :
    RawErrorAt s₀ (raiseError c (s.answerStatus s.iter.b) u) c s.iter.b.toNat := by
  obtain ⟨-, -, ⟨-, -, hparams⟩, ⟨hstatus₀, -⟩, ⟨l, hl⟩, -, htouches⟩ := h
  have hign : u.status.ign = s₀.status.ign := congrArg Status.ign (hstatus.trans hstatus₀)
  refine ⟨hc, htouches, ⟨rfl, rfl, rfl, rfl, rfl, rfl, rfl, hign, rfl⟩, hparams ▸ hbad, l, ?_⟩
  rw [raiseError_rawLog, raiseError_rawstat, hlog, hl, BitVec.ofNat_toNat, BitVec.setWidth_eq]

/-- After the current block the command completes, if that was the last one, or goes on with the next (R163). -/
theorem Underway.advance (h : Underway s₀ s) (hend : AtBlockEnd s₀ s) :
    s.iter.b.toNat = (s₀.address + s₀.length - 1) / 16 * 16 ∧ CompletedOk s₀ (advance s) ∨
      (advance s).iter.b.toNat = s.iter.b.toNat + 16 ∧ (advance s).stage = .read ∧ Underway s₀ (advance s) ∧
        AtBlockStart s₀ (advance s) := by
  obtain ⟨hok, hkeys, hoperands, ⟨hstatus, hrawstat⟩, hlog, hlast, hblock, hfirst, hle⟩ := h
  have hlastNat := toNat_lastBlock hok
  obtain ⟨hb, he⟩ | ⟨hb, he⟩ := advance_cases s
  · have hign : s.status.ign = s₀.status.ign := congrArg Status.ign hstatus
    refine .inl ⟨by rw [hb, hlast, hlastNat], ?_⟩
    rw [he]
    exact ⟨rfl, rfl, rfl, rfl, rfl, rfl, rfl, hign, hrawstat⟩
  · have hne : s.iter.b.toNat ≠ s₀.lastBlock.toNat := fun heq => hb ((BitVec.eq_of_toNat_eq heq).trans hlast.symm)
    have ⟨_, hrange⟩ := hok
    have hnext : (s.iter.b + 16).toNat = s.iter.b.toNat + 16 := by
      rw [BitVec.toNat_add]
      exact Nat.mod_eq_of_lt (by show s.iter.b.toNat + 16 < 2 ^ 32; omega)
    have htouches : s₀.touches (s.iter.b + 16).toNat := by
      rw [State.touches, hnext]
      omega
    rw [he]
    refine .inr ⟨hnext, rfl, ⟨hok, hkeys, hoperands, ⟨hstatus, hrawstat⟩, hlog, hlast, htouches⟩, ?_, ?_⟩
    · show 0 = s₀.address - (s.iter.b + 16).toNat
      omega
    · show s.iter.j.toNat = (s.iter.b + 16).toNat - s₀.address
      rw [AtBlockEnd] at hend
      omega

end

/-! ## `ENC_WRITE` block by block (42_translator.md R169 to R171, R174) -/

/-- The raw store `m` when the command of `s₀` has come to address `b`: the touched blocks before it are rewritten, and
all outside them is as before. -/
def WroteBefore (s₀ : State) (b : Nat) (m : Memory) : Prop :=
  (∀ c < b, s₀.touches c → readBlock m c = s₀.rewritten c) ∧
    ∀ a, (a < s₀.address / 16 * 16 ∨ b ≤ a) → readByte m a = readByte s₀.sm a

/-- The `ENC_WRITE` begun in `s₀` is in progress, and has rewritten the blocks before the current one. -/
def Writing (s₀ s : State) : Prop :=
  Underway s₀ s ∧ s.databuf = s₀.databuf ∧ Memory.wf s.sm = true ∧ WroteBefore s₀ s.iter.b.toNat s.sm

/-- The `ENC_WRITE` begun in `s₀` has ended in `t`: with its whole effect, or with a raw error at one block (R174). -/
def WriteEnded (s₀ t : State) : Prop :=
  CompletedOk s₀ t ∧ WroteRange s₀ t ∨
    ∃ c b, RawErrorAt s₀ t c b ∧ (∀ d < b, s₀.touches d → readBlock t.sm d = s₀.rewritten d) ∧
      (∀ a, (a < s₀.address / 16 * 16 ∨ b + 16 ≤ a) → readByte t.sm a = readByte s₀.sm a) ∧
      (c = .rawRead → readBlock t.sm b = readBlock s₀.sm b)

/-- Where the `ENC_WRITE` begun in `s₀` stands: it has ended, or the read or the write of a block is due. -/
def WriteInv (s₀ s : State) : Prop :=
  s.stage = .start ∧ WriteEnded s₀ s ∨ s.stage = .read ∧ Writing s₀ s ∧ AtBlockStart s₀ s ∨
    s.stage = .write ∧ Writing s₀ s ∧ AtBlockEnd s₀ s ∧ s.scrC = s₀.rewritten s.iter.b.toNat

section
variable {s₀ s : State}

theorem wroteBefore_firstBlock (s : State) : WroteBefore s (s.address / 16 * 16) s.sm :=
  ⟨fun _ hc ⟨_, hfirst, _⟩ => absurd hc (Nat.not_lt.mpr hfirst), fun _ _ => rfl⟩

theorem WroteBefore.readBlock_eq {b c : Nat} {m : Memory} (h : WroteBefore s₀ b m) (hc : b ≤ c) :
    readBlock m c = readBlock s₀.sm c := by
  obtain ⟨-, hbytes⟩ := h
  exact readBlock_congr fun i _ => hbytes (c + i) (.inr (by omega))

/-- Whatever is written to block `b`, the rest of the raw store is as before it (20_memory.md R68, R76). -/
theorem WroteBefore.writeBlock {b : Nat} {m : Memory} (h : WroteBefore s₀ b m) (hwf : Memory.wf m) (hb : s₀.touches b)
    (size : Nat) (d : Block) : (∀ c < b, s₀.touches c → readBlock (writeBlock size m b d) c = s₀.rewritten c) ∧
      ∀ a, (a < s₀.address / 16 * 16 ∨ b + 16 ≤ a) → readByte (writeBlock size m b d) a = readByte s₀.sm a := by
  obtain ⟨hblocks, hbytes⟩ := h
  obtain ⟨hblock, hfirst, -⟩ := hb
  refine ⟨fun c hc hct => ?_, fun a ha => ?_⟩
  · have ⟨hcblock, _⟩ := hct
    rw [readBlock_writeBlock_other b c d hwf (.inl (by omega)), hblocks c hc hct]
  · rw [readByte_writeBlock b d a hwf, if_neg (by omega), hbytes a (by omega)]

/-- The write of block `b` takes the command to the block after it. -/
theorem WroteBefore.next {b size : Nat} {m : Memory} (h : WroteBefore s₀ b m) (hwf : Memory.wf m) (hb : s₀.touches b)
    (hsize : b + 16 ≤ size) : WroteBefore s₀ (b + 16) (Machine.writeBlock size m b (s₀.rewritten b)) := by
  obtain ⟨hblocks, hbytes⟩ := h.writeBlock hwf hb size (s₀.rewritten b)
  refine ⟨fun c hc hct => ?_, hbytes⟩
  obtain ⟨hblock, -⟩ := hb
  have ⟨hcblock, _⟩ := hct
  obtain hlt | rfl : c < b ∨ c = b := by omega
  · exact hblocks c hlt hct
  · exact readBlock_writeBlock_same c _ hwf hsize

theorem WroteBefore.wroteRange {t : State} (h : WroteBefore s₀ ((s₀.address + s₀.length - 1) / 16 * 16 + 16) t.sm) :
    WroteRange s₀ t := by
  obtain ⟨hblocks, hbytes⟩ := h
  exact ⟨fun b hb => hblocks b (by obtain ⟨-, -, hlast⟩ := hb; omega) hb, hbytes⟩

/-- R169's loop lays the caller's bytes of block `b` over its old plaintext. -/
theorem rewritten_eq_overlay (hok : s₀.rangeOk) {b : Nat} (hb : s₀.touches b) :
    s₀.rewritten b = blockEncrypt s₀ (BitVec.ofNat 32 b) (overlay s₀.databuf s₀.length 16
      (blockDecrypt s₀ (BitVec.ofNat 32 b) (readBlock s₀.sm b)) (s₀.address - b) (b - s₀.address)).1 := by
  have htransferred := transferred_eq hok hb
  obtain ⟨hlen, -⟩ := hok
  obtain ⟨hblock, hfirst, hlast⟩ := hb
  unfold State.rewritten
  congr 1
  refine block_ext fun i hi => ?_
  rw [byteAt_blockOf _ hi, (overlay_spec ..).2 i hi, plainByte_block s₀ hblock hi]
  by_cases hin : s₀.address ≤ b + i ∧ b + i < s₀.address + s₀.length
  · rw [if_pos hin, if_pos (by omega), State.callerByte]
    congr 1
    omega
  · rw [if_neg hin, if_neg (by omega)]

theorem inStore_of_answerStatus {b : Word} (h : s.answerStatus b = s.params.rawOk) : b.toNat + 16 ≤ s.params.storeMax :=
  Nat.not_lt.mp fun hout => requestsBeyondTheStoreFail.1 s b hout h

theorem Writing.decryptRead (h : Writing s₀ s) (b : Word) (d : Block) :
    Writing s₀ (decryptScratch d (memRead b s)) := by
  obtain ⟨hunderway, hwriting⟩ := h
  exact ⟨hunderway.decryptRead b d, by simpa using hwriting⟩

/-- The current block's old plaintext is in scratch: the caller's bytes are laid over it, and its write is due. -/
theorem Writing.overlayScratch (h : Writing s₀ s) (hstart : AtBlockStart s₀ s)
    (hscr : s.scrS = blockDecrypt s₀ s.iter.b (readBlock s₀.sm s.iter.b.toNat)) : WriteInv s₀ (overlayScratch s) := by
  obtain ⟨hunderway, hbuf, hwf, hwrote⟩ := h
  have ⟨hok, _⟩ := hunderway
  have ⟨hoff, hj⟩ := hstart
  obtain ⟨hkeys, hparams⟩ := hunderway.keys
  have hend : AtBlockEnd s₀ (Machine.overlayScratch s) := hstart.transfer hunderway rfl rfl (overlay_spec ..).1
  refine .inr (.inr ⟨rfl, ⟨hunderway.overlayScratch, hbuf, hwf, hwrote⟩, hend, ?_⟩)
  rw [overlayScratch_scrC, hscr, hunderway.length, hoff, hj, hbuf, blockEncrypt_congr hkeys hparams]
  refine .trans ?_ (rewritten_eq_overlay hok hunderway.touches).symm
  rw [BitVec.ofNat_toNat, BitVec.setWidth_eq]

/-- The read of the current block: the write of it is due, or the command ends. -/
theorem Writing.readCurrent (h : Writing s₀ s) (hstart : AtBlockStart s₀ s) :
    WriteInv s₀ (readCurrent Machine.overlayScratch s) := by
  have ⟨hunderway, _, _, hwrote⟩ := h
  obtain ⟨hbad, he⟩ | ⟨-, he⟩ := readCurrent_cases Machine.overlayScratch s
  · have ⟨hblocks, hbytes⟩ := hwrote
    rw [he]
    refine .inl ⟨rfl, .inr ⟨.rawRead, _, hunderway.raiseError (by simp) rfl rfl hbad, ?_⟩⟩
    rw [raiseError_sm, memRead_sm]
    exact ⟨hblocks, fun a ha => hbytes a (by omega), fun _ => hwrote.readBlock_eq le_rfl⟩
  · rw [he]
    refine (h.decryptRead _ _).overlayScratch (hstart.decryptRead _ _) ?_
    rw [hunderway.decryptRead_scrS, decryptScratch_iter, memRead_iter, hwrote.readBlock_eq le_rfl]

/-- The write of the current block: the read of the next one is due, or the command ends. -/
theorem Writing.writeCurrent (h : Writing s₀ s) (hend : AtBlockEnd s₀ s)
    (hscr : s.scrC = s₀.rewritten s.iter.b.toNat) : WriteInv s₀ (writeCurrent s) := by
  obtain ⟨hunderway, hbuf, hwf, hwrote⟩ := h
  have hb := hunderway.touches
  obtain ⟨hbad, he⟩ | ⟨hgood, he⟩ := writeCurrent_cases s
  · obtain ⟨hblocks, hbytes⟩ := hwrote.writeBlock hwf hb s.params.storeMax
      (if s.answersOk s.iter.b then s.scrC else s.nextAnswer.residue)
    rw [he]
    exact .inl ⟨rfl, .inr ⟨.rawWrite, _, hunderway.raiseError (by simp) rfl rfl hbad, hblocks, hbytes, by simp⟩⟩
  · have hanswers : s.answersOk s.iter.b = true := beq_iff_eq.mpr hgood
    have hsm : (memWrite s.iter.b s.scrC s).sm =
        writeBlock s.params.storeMax s.sm s.iter.b.toNat (s₀.rewritten s.iter.b.toNat) := by
      rw [memWrite_sm, if_pos hanswers, hscr]
    have hnext : WroteBefore s₀ (s.iter.b.toNat + 16) (memWrite s.iter.b s.scrC s).sm :=
      hsm ▸ hwrote.next hwf hb (inStore_of_answerStatus hgood)
    rw [he]
    obtain ⟨hlast, hdone⟩ | ⟨hblock, hst, hunderway', hstart⟩ := (hunderway.memWrite s.iter.b s.scrC).advance hend
    · refine .inl ⟨by have ⟨_, hst, _⟩ := hdone; exact hst, .inl ⟨hdone, WroteBefore.wroteRange ?_⟩⟩
      rw [advance_sm, ← hlast]
      exact hnext
    · refine .inr (.inl ⟨hst, ⟨hunderway', ?_, ?_, ?_⟩, hstart⟩)
      · rw [advance_databuf]
        exact hbuf
      · rw [advance_sm, hsm]
        exact wf_writeBlock _ _ hwf
      · rw [hblock, advance_sm]
        exact hnext

theorem WriteInv.encWriteStep (h : WriteInv s₀ s) (hpending : s.stage ≠ .start) : WriteInv s₀ (encWriteStep s) := by
  obtain ⟨hst, -⟩ | ⟨hst, hwriting, hstart⟩ | ⟨hst, hwriting, hend, hscr⟩ := h
  · exact absurd hst hpending
  · simpa only [Machine.encWriteStep, hst] using hwriting.readCurrent hstart
  · simpa only [Machine.encWriteStep, hst] using hwriting.writeCurrent hend hscr

end

theorem writeInv_startIterator {s : State} (hok : s.rangeOk) (hwf : Memory.wf s.sm = true) :
    WriteInv s (startIterator s) := by
  obtain ⟨hunderway, hstart⟩ := underway_startIterator hok
  refine .inr (.inl ⟨rfl, ⟨hunderway, rfl, hwf, ?_⟩, hstart⟩)
  show WroteBefore s s.firstBlock.toNat s.sm
  rw [toNat_firstBlock]
  exact wroteBefore_firstBlock s

/-- However the raw store answers, an `ENC_WRITE` whose checks pass ends with its whole effect or at one block. -/
theorem exec_encWrite_ended {s t : State} (hst : s.stage = .start) (hwf : Memory.wf s.sm = true) (hok : s.rangeOk)
    (h : exec .encWrite s = .next t) : WriteEnded s t := by
  obtain ⟨⟨hstage, -⟩, -⟩ := exec_ended hst h
  have hfirst : WriteInv s (encWriteStep s) :=
    encWriteStep_of_start hst hok ▸ (writeInv_startIterator hok hwf).encWriteStep (by simp)
  have hinv : WriteInv s t :=
    execEncWrite_eq h ▸ untilDone_keeps_while (fun u hu hinv => hinv.encWriteStep hu) _ hfirst
  obtain ⟨-, hended⟩ | ⟨hst', -⟩ | ⟨hst', -⟩ := hinv
  · exact hended
  · exact absurd (hstage.symm.trans hst') (by simp)
  · exact absurd (hstage.symm.trans hst') (by simp)

/-! ### The effect in plaintext -/

theorem touches_block {s : State} {a : Nat} (h : s.inRange a) : s.touches (a / 16 * 16) := by
  obtain ⟨hge, hlt⟩ := h
  unfold State.touches
  omega

/-- A touched block, decrypted after it was rewritten: the caller's bytes over its old plaintext. -/
theorem WroteRange.plainByte_of_touches {s t : State} (h : WroteRange s t) (hk : KeysKept s t)
    (hp : t.params = s.params) {a : Nat} (hb : s.touches (a / 16 * 16)) :
    t.plainByte a = if s.address ≤ a ∧ a < s.address + s.length then s.callerByte (a - s.address)
      else s.plainByte a := by
  obtain ⟨hblocks, -⟩ := h
  have haddr : a / 16 * 16 + a % 16 = a := Nat.div_add_mod' a 16
  rw [State.plainByte, hblocks _ hb, blockDecrypt_congr hk hp, State.rewritten, blockDecrypt_blockEncrypt,
    byteAt_blockOf _ (Nat.mod_lt a (by decide)), haddr]

theorem WroteRange.plainByte_of_not_touches {s t : State} (h : WroteRange s t) (hk : KeysKept s t)
    (hp : t.params = s.params) {a : Nat} (hb : ¬s.touches (a / 16 * 16)) : t.plainByte a = s.plainByte a := by
  obtain ⟨-, hbytes⟩ := h
  refine plainByte_congr hk hp (readBlock_congr fun i hi => hbytes _ ?_)
  unfold State.touches at hb
  omega

/-- R171 in plaintext: the range holds the caller's bytes, and every other address what it held. -/
theorem WroteRange.plainByte {s t : State} (h : WroteRange s t) (hk : KeysKept s t) (hp : t.params = s.params)
    (a : Nat) : (s.inRange a → t.plainByte a = s.callerByte (a - s.address)) ∧
      (¬s.inRange a → t.plainByte a = s.plainByte a) := by
  refine ⟨fun hin => ?_, fun hout => ?_⟩
  · exact (h.plainByte_of_touches hk hp (touches_block hin)).trans (if_pos hin)
  · by_cases hb : s.touches (a / 16 * 16)
    · exact (h.plainByte_of_touches hk hp hb).trans (if_neg hout)
    · exact h.plainByte_of_not_touches hk hp hb

/-- An `ENC_WRITE` that ends without an error has done all of it. -/
theorem exec_encWrite_wroteRange {s t : State} (hst : s.stage = .start) (hwf : Memory.wf s.sm = true)
    (h : exec .encWrite s = .next t) (hclass : t.status.eclass = .none) : WroteRange s t := by
  have hok : s.rangeOk := rangeOk_of_exec (.inl rfl) hst h (by simp [hclass]) (by simp [hclass])
  obtain ⟨-, hwrote⟩ | ⟨c, b, herror, -⟩ := exec_encWrite_ended hst hwf hok h
  · exact hwrote
  · exact absurd (herror.eclass.symm.trans hclass) herror.ne_none

/-- Settles O39: the invariant of the run gives the ciphertext, and deciphering a rewritten block the plaintext. -/
theorem encWriteNetEffect : Obligations.EncWriteNetEffect := by
  intro s t hst hwf h hclass
  obtain ⟨hkeys, -, -, -, hparams, -⟩ := translator_frame (.inl rfl) h
  have hwrote := exec_encWrite_wroteRange hst hwf h hclass
  exact ⟨hwrote, fun a _ => hwrote.plainByte hkeys hparams a⟩

/-- Settles O42: of the ends the invariant allows, only the raw error has its class. -/
theorem encWriteRawErrorIsPreciseAtABlock : Obligations.EncWriteRawErrorIsPreciseAtABlock := by
  intro s t hst hwf h hclass
  have hok : s.rangeOk := rangeOk_of_exec (.inl rfl) hst h
    (fun he => by simp [he] at hclass) (fun he => by simp [he] at hclass)
  obtain ⟨⟨-, -, -, -, -, -, hnone, -⟩, -⟩ | ⟨c, b, herror, hblocks, hbytes, hread⟩ :=
    exec_encWrite_ended hst hwf hok h
  · simp [hnone] at hclass
  · obtain rfl := herror.eclass
    obtain ⟨-, htouches, hcompleted, hraw, l, hlog⟩ := herror
    exact ⟨b, htouches, hcompleted, hraw, hblocks, hbytes, hread, by rw [hlog, List.getLast?_concat]⟩

/-! ## `ENC_READ` block by block (42_translator.md R172, R173) -/

/-- The caller's buffer `buf` when the command of `s₀` has transferred `k` bytes: the plaintext of the first `k`
addresses of the range, and the rest as before. -/
def CopiedBefore (s₀ : State) (k : Nat) (buf : Vector Byte 256) : Prop :=
  ∀ j < 256, bufByte buf j = if j < k then s₀.plainByte (s₀.address + j) else bufByte s₀.databuf j

/-- The `ENC_READ` begun in `s₀` is in progress, and has copied the bytes of the blocks before the current one. -/
def Reading (s₀ s : State) : Prop :=
  Underway s₀ s ∧ s.sm = s₀.sm ∧ CopiedBefore s₀ (s.iter.b.toNat - s₀.address) s.databuf

/-- The `ENC_READ` begun in `s₀` has ended in `t`: with its whole effect, or with a raw error at one block. -/
def ReadEnded (s₀ t : State) : Prop :=
  CompletedOk s₀ t ∧ ReadRange s₀ t ∨ ∃ b, RawErrorAt s₀ t .rawRead b ∧ CopiedBefore s₀ (b - s₀.address) t.databuf

/-- Where the `ENC_READ` begun in `s₀` stands: it has ended, or the read of a block is due. -/
def ReadInv (s₀ s : State) : Prop :=
  s.stage = .start ∧ ReadEnded s₀ s ∨ s.stage = .read ∧ Reading s₀ s ∧ AtBlockStart s₀ s

/-- `s` after R172's loop, before the command goes on to the next block. -/
def State.copiedOut (s : State) : State :=
  let r := copyOut s.scrS s.length 16 s.databuf s.iter.off.toNat s.iter.j.toNat
  { s with databuf := r.1, iter := { s.iter with j := BitVec.ofNat 9 r.2 } }

theorem copyScratch_eq (s : State) : copyScratch s = advance s.copiedOut := rfl

theorem copiedOut_block (s : State) : s.copiedOut.iter.b = s.iter.b := rfl

section
variable {s₀ s : State}

theorem Reading.decryptRead (h : Reading s₀ s) (b : Word) (d : Block) :
    Reading s₀ (decryptScratch d (memRead b s)) := by
  obtain ⟨hunderway, hreading⟩ := h
  exact ⟨hunderway.decryptRead b d, by simpa using hreading⟩

/-- R172's loop adds block `b`'s bytes of the range to those copied before it. -/
theorem CopiedBefore.copyOut (hok : s₀.rangeOk) {b : Nat} (hb : s₀.touches b) {buf : Vector Byte 256}
    (h : CopiedBefore s₀ (b - s₀.address) buf) :
    CopiedBefore s₀ (min (b + 16) (s₀.address + s₀.length) - s₀.address)
      (copyOut (blockDecrypt s₀ (BitVec.ofNat 32 b) (readBlock s₀.sm b)) s₀.length 16 buf (s₀.address - b)
        (b - s₀.address)).1 := by
  intro q hq
  rw [(copyOut_spec _ _ _ _ _ _ (length_lt s₀).le).2 q, transferred_eq hok hb]
  obtain ⟨hlen, -⟩ := hok
  obtain ⟨hblock, hfirst, hlast⟩ := hb
  by_cases hin : b - s₀.address ≤ q ∧ q < min (b + 16) (s₀.address + s₀.length) - s₀.address
  · have haddr : s₀.address + q = b + (s₀.address - b + (q - (b - s₀.address))) := by omega
    rw [if_pos hin, if_pos hin.2, haddr, plainByte_block s₀ hblock (by omega)]
  · rw [if_neg hin, h q hq]
    congr 1
    simp only [eq_iff_iff]
    omega

/-- The current block's plaintext is in scratch, and its bytes of the range are copied. -/
theorem Reading.copiedOut (h : Reading s₀ s) (hstart : AtBlockStart s₀ s)
    (hscr : s.scrS = blockDecrypt s₀ s.iter.b (readBlock s₀.sm s.iter.b.toNat)) :
    CopiedBefore s₀ (min (s.iter.b.toNat + 16) (s₀.address + s₀.length) - s₀.address) s.copiedOut.databuf := by
  obtain ⟨hunderway, -, hcopied⟩ := h
  have ⟨hok, _⟩ := hunderway
  obtain ⟨hoff, hj⟩ := hstart
  have hbuf := hcopied.copyOut hok hunderway.touches
  rw [BitVec.ofNat_toNat, BitVec.setWidth_eq, ← hscr, ← hunderway.length, ← hoff, ← hj] at hbuf
  rw [← hunderway.length]
  exact hbuf

/-- The read of the next block is due, or the command ends. -/
theorem Reading.copyScratch (h : Reading s₀ s) (hstart : AtBlockStart s₀ s)
    (hscr : s.scrS = blockDecrypt s₀ s.iter.b (readBlock s₀.sm s.iter.b.toNat)) : ReadInv s₀ (copyScratch s) := by
  have hcopied := h.copiedOut hstart hscr
  obtain ⟨hunderway, hsm, -⟩ := h
  have ⟨⟨hlen, _⟩, _⟩ := hunderway
  have hend : AtBlockEnd s₀ s.copiedOut :=
    hstart.transfer hunderway rfl rfl (copyOut_spec _ _ _ _ _ _ (length_lt s).le).1
  have hafter : Underway s₀ s.copiedOut := by simpa [Underway, KeysKept, State.copiedOut] using hunderway
  rw [copyScratch_eq]
  obtain ⟨hlast, hdone⟩ | ⟨hblock, hst, hunderway', hstart'⟩ := hafter.advance hend
  · have hall : min (s.iter.b.toNat + 16) (s₀.address + s₀.length) - s₀.address = s₀.length := by
      rw [copiedOut_block] at hlast
      omega
    have ⟨_, hst, _⟩ := hdone
    refine .inl ⟨hst, .inl ⟨hdone, ?_⟩⟩
    rw [hall] at hcopied
    unfold ReadRange
    rw [advance_databuf]
    exact hcopied
  · have hpart : min (s.iter.b.toNat + 16) (s₀.address + s₀.length) = s.iter.b.toNat + 16 := by
      obtain ⟨-, -, hle⟩ := hunderway'.touches
      rw [hblock, copiedOut_block] at hle
      omega
    refine .inr ⟨hst, ⟨hunderway', (advance_sm _).trans hsm, ?_⟩, hstart'⟩
    rw [hblock, advance_databuf]
    exact hpart ▸ hcopied

/-- The read of the current block: the read of the next one is due, or the command ends. -/
theorem Reading.readCurrent (h : Reading s₀ s) (hstart : AtBlockStart s₀ s) :
    ReadInv s₀ (readCurrent Machine.copyScratch s) := by
  have ⟨hunderway, hsm, hcopied⟩ := h
  obtain ⟨hbad, he⟩ | ⟨-, he⟩ := readCurrent_cases Machine.copyScratch s
  · rw [he]
    refine .inl ⟨rfl, .inr ⟨_, hunderway.raiseError (by simp) rfl rfl hbad, ?_⟩⟩
    rw [raiseError_databuf, memRead_databuf]
    exact hcopied
  · rw [he]
    refine (h.decryptRead _ _).copyScratch (hstart.decryptRead _ _) ?_
    rw [hunderway.decryptRead_scrS, decryptScratch_iter, memRead_iter, hsm]

theorem ReadInv.encReadStep (h : ReadInv s₀ s) (hpending : s.stage ≠ .start) : ReadInv s₀ (encReadStep s) := by
  obtain ⟨hst, -⟩ | ⟨hst, hreading, hstart⟩ := h
  · exact absurd hst hpending
  · simpa only [Machine.encReadStep, hst] using hreading.readCurrent hstart

end

theorem readInv_startIterator {s : State} (hok : s.rangeOk) : ReadInv s (startIterator s) := by
  obtain ⟨hunderway, hstart⟩ := underway_startIterator hok
  refine .inr ⟨rfl, ⟨hunderway, rfl, fun j _ => (if_neg ?_).symm⟩, hstart⟩
  show ¬j < s.firstBlock.toNat - s.address
  rw [toNat_firstBlock]
  omega

/-- However the raw store answers, an `ENC_READ` whose checks pass ends with its whole effect or at one block. -/
theorem exec_encRead_ended {s t : State} (hst : s.stage = .start) (hok : s.rangeOk) (h : exec .encRead s = .next t) :
    ReadEnded s t := by
  obtain ⟨⟨hstage, -⟩, -⟩ := exec_ended hst h
  have hfirst : ReadInv s (encReadStep s) :=
    encReadStep_of_start hst hok ▸ (readInv_startIterator hok).encReadStep (by simp)
  have hinv : ReadInv s t := execEncRead_eq h ▸ untilDone_keeps_while (fun u hu hinv => hinv.encReadStep hu) _ hfirst
  obtain ⟨-, hended⟩ | ⟨hst', -⟩ := hinv
  · exact hended
  · exact absurd (hstage.symm.trans hst') (by simp)

/-- Settles O40: the raw error the invariant also allows has another class. -/
theorem encReadNetEffect : Obligations.EncReadNetEffect := by
  intro s t hst h hclass
  have hok : s.rangeOk := rangeOk_of_exec (.inr rfl) hst h (by simp [hclass]) (by simp [hclass])
  obtain ⟨-, hread⟩ | ⟨b, herror, -⟩ := exec_encRead_ended hst hok h
  · exact hread
  · exact absurd (herror.eclass.symm.trans hclass) herror.ne_none

/-- Settles O43: a successful completion, which the invariant also allows, has no error class. -/
theorem encReadRawErrorKeepsWhatWasCopied : Obligations.EncReadRawErrorKeepsWhatWasCopied := by
  intro s t hst h hclass
  have hok : s.rangeOk := rangeOk_of_exec (.inr rfl) hst h (by simp [hclass]) (by simp [hclass])
  obtain ⟨⟨-, -, -, -, -, -, hnone, -⟩, -⟩ | ⟨b, ⟨-, htouches, hcompleted, hraw, l, hlog⟩, hcopied⟩ :=
    exec_encRead_ended hst hok h
  · exact absurd (hclass.symm.trans hnone) (by simp)
  · exact ⟨b, htouches, hcompleted, hraw, hcopied, by rw [hlog, List.getLast?_concat]; rfl⟩

/-- Settles O41: what the read finds is the plaintext of the store the write left, which holds the caller's bytes. -/
theorem readYourWrite : Obligations.ReadYourWrite := by
  intro s t u v hst hwf hw hwclass hust haddr hlen hke hkt hparams hsm hr hrclass j hj
  obtain ⟨hkeys, ⟨haddr', hlen', -⟩, -, -, hparams', -⟩ := translator_frame (.inl rfl) hw
  have haddress : u.address = s.address := congrArg BitVec.toNat (haddr.trans haddr')
  have hlength : u.length = s.length := congrArg BitVec.toNat (hlen.trans hlen')
  have hlt := length_lt s
  have hin : s.inRange (s.address + j) := by
    unfold State.inRange
    omega
  obtain ⟨hwrote, -⟩ := (exec_encWrite_wroteRange hst hwf hw hwclass).plainByte hkeys hparams' (s.address + j)
  calc bufByte v.databuf j = u.plainByte (u.address + j) :=
        (encReadNetEffect u v hust hr hrclass j (by omega)).trans (if_pos (hlength ▸ hj))
    _ = t.plainByte (s.address + j) := by
        rw [haddress]
        exact plainByte_congr ⟨hke, hkt⟩ hparams (by rw [hsm])
    _ = s.callerByte (s.address + j - s.address) := hwrote hin
    _ = bufByte s.databuf j := by rw [Nat.add_sub_cancel_left, State.callerByte]

/-! ## Completion when the raw store answers every request with success (20_memory.md R68) -/

/-- The accesses made since `s₀`, while no more than `n`: those inside the store succeeded, and the script answers the
rest of `n` with success. -/
def AnsweredByScript (n : Nat) (s₀ s : State) : Prop :=
  s.params = s₀.params ∧ ∃ l, s.rawLog = s₀.rawLog ++ l ∧ (l.length ≤ n → s.scriptedOk (n - l.length) ∧
    ∀ x ∈ l, x.block.toNat + 16 ≤ s₀.params.storeMax → x.status = s₀.params.rawOk)

theorem scriptedOk_succ {s : State} {n : Nat} (h : s.scriptedOk (n + 1)) :
    s.nextAnswer.status = s.params.rawOk ∧ s.afterAnswer.scriptedOk n := by
  obtain ⟨hlen, hok⟩ := h
  unfold State.nextAnswer
  cases ha : s.answers with
  | nil => simp [ha] at hlen
  | cons x rest =>
    rw [ha] at hlen hok
    refine ⟨hok x (by simp), ?_, fun y hy => hok y ?_⟩
    · rw [afterAnswer_answers, ha]
      exact Nat.le_of_succ_le_succ hlen
    · rw [afterAnswer_answers, ha] at hy
      exact List.mem_cons_of_mem x hy

/-- One more access, answered by the script's next answer. -/
theorem AnsweredByScript.access {n : Nat} {s₀ s u : State} (h : AnsweredByScript n s₀ s) {w : Bool} {b : Word}
    (hparams : u.params = s.params)
    (hlog : u.rawLog = s.rawLog ++ [{ isWrite := w, block := b, status := s.answerStatus b }])
    (hanswers : u.answers = s.answers.tail) : AnsweredByScript n s₀ u := by
  obtain ⟨hp, l, hl, hscript⟩ := h
  refine ⟨hparams.trans hp, l ++ [_], by rw [hlog, hl, List.append_assoc], fun hn => ?_⟩
  rw [List.length_append, List.length_singleton] at hn ⊢
  obtain ⟨hok, hall⟩ := hscript (by omega)
  rw [show n - l.length = n - (l.length + 1) + 1 by omega] at hok
  obtain ⟨hnext, hrest⟩ := scriptedOk_succ hok
  refine ⟨?_, fun x hx hin => ?_⟩
  · unfold State.scriptedOk at hrest ⊢
    rw [hanswers, hparams]
    exact hrest
  · obtain hx | hx := List.mem_append.mp hx
    · exact hall x hx hin
    · obtain rfl := List.mem_singleton.mp hx
      rw [← hp] at hin ⊢
      exact (answerStatus_of_possible (.inl (decide_eq_false (Nat.not_lt.mpr hin)))).trans hnext

theorem answeredByScript_keptByTranslator (n : Nat) (s : State) : KeptByTranslator (AnsweredByScript n s) where
  raise _ _ _ h := h
  complete _ h := h
  iterate _ _ _ h := h
  read _ _ h := h.access rfl rfl rfl
  write _ _ _ h := h.access rfl rfl rfl
  decrypt _ _ h := h
  overlay _ h := h
  copy _ _ _ h := h

/-- A raw error inside the store is none of the script's answers. -/
theorem AnsweredByScript.not_rawErrorAt {n : Nat} {s t : State} (h : AnsweredByScript n s t)
    (hin : (s.address + s.length - 1) / 16 * 16 + 16 ≤ s.params.storeMax)
    (hlen : t.rawLog.length ≤ s.rawLog.length + n) {c : ErrClass} {b : Nat} : ¬RawErrorAt s t c b := by
  rintro ⟨-, ⟨-, -, hlast⟩, -, hbad, l', hl'⟩
  obtain ⟨-, l, hl, hscript⟩ := h
  have hb : (BitVec.ofNat 32 b).toNat ≤ b := by
    rw [BitVec.toNat_ofNat]
    exact Nat.mod_le b _
  rw [hl, List.length_append] at hlen
  rw [hl, List.append_assoc] at hl'
  obtain rfl := List.append_cancel_left hl'
  obtain ⟨-, hall⟩ := hscript (by omega)
  refine hbad (hall _ List.mem_concat_self ?_)
  show (BitVec.ofNat 32 b).toNat + 16 ≤ s.params.storeMax
  omega

/-- A translator command that has ended on its plan, inside the store and with every answer of the plan scripted. -/
theorem exec_not_rawErrorAt {i : Instr} {s t : State} {plan : List (Bool × Nat)} {n : Nat}
    (hi : i = .encWrite ∨ i = .encRead) (h : exec i s = .next t) (hplan : EndedOnPlan plan s t) (hlen : plan.length = n)
    (hin : (s.address + s.length - 1) / 16 * 16 + 16 ≤ s.params.storeMax) (hscript : s.scriptedOk n) (c : ErrClass)
    (b : Nat) : ¬RawErrorAt s t c b := by
  have hfirst : AnsweredByScript n s s := ⟨rfl, [], by simp, fun _ => ⟨hscript, by simp⟩⟩
  have hended : AnsweredByScript n s t := (answeredByScript_keptByTranslator n s).command (.inl h)
    (fun hw hr _ => (hi.elim hw hr).elim) hfirst
  exact hended.not_rawErrorAt hin (hlen ▸ hplan.length_rawLog)

theorem EndedOnPlan.traffic_of_completedOk {plan : List (Bool × Nat)} {s₀ s : State} (h : EndedOnPlan plan s₀ s)
    (hdone : CompletedOk s₀ s) : s.traffic = s₀.traffic ++ plan := by
  obtain ⟨n, -, htraffic, hall⟩ := h
  obtain ⟨-, -, -, -, -, -, hnone, -⟩ := hdone
  rw [htraffic, hall hnone, List.take_length]

/-- Settles O37: the script excludes the raw error the invariant also allows. -/
theorem encWriteCompletes : Obligations.EncWriteCompletes := by
  intro s hst hok hwf hin hscript
  obtain ⟨t, ht⟩ := exec_next .encWrite s
  have hplan := execEncWrite_endedOnPlan hst hok ht
  obtain ⟨-, -, ⟨-, -, hknz, -⟩, -⟩ := translator_frame (.inl rfl) ht
  obtain ⟨hdone, hwrote⟩ | ⟨c, b, herror, -⟩ := exec_encWrite_ended hst hwf hok ht
  · exact ⟨t, ht, hdone, hwrote, hknz, hplan.traffic_of_completedOk hdone⟩
  · exact absurd herror (exec_not_rawErrorAt (.inl rfl) ht hplan (length_writePlan s) hin hscript c b)

/-- Settles O38: the script excludes the raw error the invariant also allows. -/
theorem encReadCompletes : Obligations.EncReadCompletes := by
  intro s hst hok hin hscript
  obtain ⟨t, ht⟩ := exec_next .encRead s
  have hplan := execEncRead_endedOnPlan hst hok ht
  obtain ⟨-, -, ⟨-, -, hknz, -⟩, -⟩ := translator_frame (.inr rfl) ht
  obtain ⟨hdone, hread⟩ | ⟨b, herror, -⟩ := exec_encRead_ended hst hok ht
  · exact ⟨t, ht, hdone, hread, hknz, hplan.traffic_of_completedOk hdone⟩
  · exact absurd herror (exec_not_rawErrorAt (.inr rfl) ht hplan (length_readPlan s) hin hscript _ b)

end Sys2Proof.Machine

/-! ## The key state commands (43_key_state.md R200 to R206) -/

namespace Sys2Proof.Machine

/-! ### The key blob and its two halves (10_state.md R34) -/

/-- Bytes `k` to `k + n - 1` of an array, as an array of their own. -/
theorem byteAt_extractLsb' {w : Nat} (x : BitVec w) (k n : Nat) {i : Nat} (h : i < n) :
    byteAt (x.extractLsb' (8 * k) (8 * n)) i = byteAt x (k + i) := by
  refine BitVec.eq_of_getLsbD_eq fun j hj => ?_
  rw [getLsbD_byteAt, getLsbD_byteAt, BitVec.getLsbD_extractLsb', decide_eq_true (by omega : 8 * i + j < 8 * n),
    Bool.true_and, (by omega : 8 * k + (8 * i + j) = 8 * (k + i) + j)]

theorem byteAt_encryptHalf (blob : KeyBlob) {i : Nat} (h : i < 16) : byteAt (encryptHalf blob) i = byteAt blob i :=
  (byteAt_extractLsb' blob 0 16 h).trans (by rw [Nat.zero_add])

theorem byteAt_tweakHalf (blob : KeyBlob) {i : Nat} (h : i < 16) :
    byteAt (tweakHalf blob) i = byteAt blob (16 + i) := byteAt_extractLsb' blob 16 16 h

@[simp] theorem encryptHalf_blobOfKeys (ke kt : Block) : encryptHalf (blobOfKeys ke kt) = ke :=
  BitVec.extractLsb'_append_eq_right

@[simp] theorem tweakHalf_blobOfKeys (ke kt : Block) : tweakHalf (blobOfKeys ke kt) = kt :=
  BitVec.extractLsb'_append_eq_left

/-- The two halves make up the whole blob. -/
@[simp] theorem blobOfKeys_halves (blob : KeyBlob) : blobOfKeys (encryptHalf blob) (tweakHalf blob) = blob :=
  (BitVec.extractLsb'_append_extractLsb'_eq_extractLsb' rfl).trans BitVec.extractLsb'_eq_self

theorem byteAt_blobOfKeys_encrypt (ke kt : Block) {i : Nat} (h : i < 16) :
    byteAt (blobOfKeys ke kt) i = byteAt ke i := by
  rw [← byteAt_encryptHalf _ h, encryptHalf_blobOfKeys]

theorem byteAt_blobOfKeys_tweak (ke kt : Block) {i : Nat} (h : i < 16) :
    byteAt (blobOfKeys ke kt) (16 + i) = byteAt kt i := by
  rw [← byteAt_tweakHalf _ h, tweakHalf_blobOfKeys]

/-! ### The commands that move the key (R200, R202, R204) -/

/-- Where `SET_KEY`, `GET_KEY` and `CLEAR_KEY` end: the keys, `KEYIO` and the cache as given, and completion. -/
def keyCommandDone (ke kt : Block) (blob : KeyBlob) (ks : Option KeySchedule) (s : State) : State :=
  complete { s with ke := ke, kt := kt, keyio := blob, ks := ks }

theorem exec_setKey (s : State) :
    exec .setKey s = .next (keyCommandDone (encryptHalf s.keyio) (tweakHalf s.keyio) s.keyio none s) := rfl

theorem exec_getKey (s : State) :
    exec .getKey s = .next (keyCommandDone s.ke s.kt (blobOfKeys s.ke s.kt) s.ks s) := rfl

/-- The pass of zeros writes over all that the pass of ones wrote. -/
theorem exec_clearKey (s : State) : exec .clearKey s = .next (keyCommandDone 0 0 0 none s) := rfl

section
variable (ke kt : Block) (blob : KeyBlob) (ks : Option KeySchedule) (s : State)

@[simp] theorem keyCommandDone_ke : (keyCommandDone ke kt blob ks s).ke = ke := rfl
@[simp] theorem keyCommandDone_kt : (keyCommandDone ke kt blob ks s).kt = kt := rfl
@[simp] theorem keyCommandDone_keyio : (keyCommandDone ke kt blob ks s).keyio = blob := rfl
@[simp] theorem keyCommandDone_ks : (keyCommandDone ke kt blob ks s).ks = ks := rfl

/-- The frame of the three commands: all but the four fields above and what completion writes. -/
theorem keyCommandDone_frame :
    CompletedOk s (keyCommandDone ke kt blob ks s) ∧ (keyCommandDone ke kt blob ks s).status.knz = s.status.knz ∧
      OperandsKept s (keyCommandDone ke kt blob ks s) ∧ (keyCommandDone ke kt blob ks s).dout = s.dout ∧
      (keyCommandDone ke kt blob ks s).databuf = s.databuf ∧ StoreUntouched s (keyCommandDone ke kt blob ks s) ∧
      OutsideKept s (keyCommandDone ke kt blob ks s) := by
  refine ⟨?completed, rfl, ⟨rfl, rfl, rfl, rfl, rfl⟩, rfl, rfl, ⟨fun _ => rfl, rfl, rfl⟩, ⟨rfl, rfl, rfl, rfl⟩⟩
  case completed => exact ⟨rfl, rfl, rfl, rfl, rfl, rfl, rfl, rfl, rfl⟩

end

/-- Settles O28: the key is the two halves of the blob, and the rest is the commands' frame. -/
theorem setKeyInstallsTheBlob : Obligations.SetKeyInstallsTheBlob := fun s =>
  ⟨_, exec_setKey s, fun _ hi => byteAt_encryptHalf s.keyio hi, fun _ hi => byteAt_tweakHalf s.keyio hi,
    keyCommandDone_ks .., keyCommandDone_keyio .., keyCommandDone_frame _ _ _ _ s⟩

/-- Settles O29: the blob is made of the two keys, and the rest is the commands' frame. -/
theorem getKeyCopiesTheKeyOut : Obligations.GetKeyCopiesTheKeyOut := fun s =>
  ⟨_, exec_getKey s, fun _ hi => byteAt_blobOfKeys_encrypt s.ke s.kt hi,
    fun _ hi => byteAt_blobOfKeys_tweak s.ke s.kt hi, ⟨keyCommandDone_ke .., keyCommandDone_kt ..⟩,
    keyCommandDone_ks .., keyCommandDone_frame _ _ _ _ s⟩

/-- Settles O30: the pass of zeros comes last, and the rest is the commands' frame. -/
theorem clearKeyZeroizes : Obligations.ClearKeyZeroizes := fun s =>
  ⟨_, exec_clearKey s, ⟨_, _, rfl, rfl, rfl⟩, keyCommandDone_ke .., keyCommandDone_kt .., keyCommandDone_keyio ..,
    keyCommandDone_ks .., keyCommandDone_frame _ _ _ _ s⟩

/-- Settles O32: the blob of a blob's two halves is that blob, and the halves of two keys' blob are those keys. -/
theorem setKeyAndGetKeyAreInverse : Obligations.SetKeyAndGetKeyAreInverse := by
  refine ⟨fun s t u v hset hke hkt hget => ?blob, fun s t u v hget hkeyio hset => ?key⟩
  all_goals
    obtain rfl := Host.Outcome.next.inj ((exec_setKey _).symm.trans hset)
    obtain rfl := Host.Outcome.next.inj ((exec_getKey _).symm.trans hget)
  case blob =>
    rw [keyCommandDone_keyio, hke, hkt, keyCommandDone_ke, keyCommandDone_kt, blobOfKeys_halves]
  case key =>
    rw [keyCommandDone_ke, keyCommandDone_kt, hkeyio, keyCommandDone_keyio, encryptHalf_blobOfKeys,
      tweakHalf_blobOfKeys]
    exact ⟨rfl, rfl⟩

/-! ### The key-nonzero test (R206) -/

/-- R206's loop ends with 0 exactly when it starts with 0 and every byte it takes in is 0. -/
theorem orBytes_eq_zero_iff (x : Block) (n : Nat) (acc : Byte) :
    orBytes x n acc = 0 ↔ acc = 0 ∧ ∀ i < n, byteAt x i = 0 := by
  induction n with
  | zero => simp [orBytes]
  | succ n ih =>
    calc orBytes x n acc ||| byteAt x n = 0
      _ ↔ orBytes x n acc = 0 ∧ byteAt x n = 0 := BitVec.or_eq_zero_iff
      _ ↔ acc = 0 ∧ ∀ i < n + 1, byteAt x i = 0 := by rw [ih, Nat.forall_lt_succ_right, and_assoc]

theorem keyNonzero_iff (ke kt : Block) :
    keyNonzero ke kt = true ↔ ∃ i < 16, byteAt ke i ≠ 0 ∨ byteAt kt i ≠ 0 := by
  rw [keyNonzero, bne_iff_ne, ne_eq, orBytes_eq_zero_iff, orBytes_eq_zero_iff]
  simp only [true_and, ← forall₂_and, not_forall, exists_prop, not_and_or, ne_eq]

theorem keyNonzero_zero : keyNonzero 0 0 = false := by
  refine Bool.eq_false_iff.mpr fun h => ?_
  obtain ⟨i, -, hi⟩ := (keyNonzero_iff 0 0).mp h
  exact hi.elim (absurd (byteAt_zero i)) (absurd (byteAt_zero i))

theorem exec_keyNz (s : State) : exec .keyNz s =
    .next (complete { s with status := { s.status with knz := keyNonzero s.ke s.kt } }) := rfl

theorem exec_keyNz_knz {s t : State} (h : exec .keyNz s = .next t) : t.status.knz = keyNonzero s.ke s.kt :=
  Host.Outcome.next.inj ((exec_keyNz s).symm.trans h) ▸ rfl

/-- No command but `KEY_NZ` writes `KNZ` (10_state.md R25). -/
theorem exec_knz {i : Instr} {s t : State} (hi : i ≠ .keyNz) (h : exec i s = .next t) :
    t.status.knz = s.status.knz := by
  cases i with
  | keyNz => exact absurd rfl hi
  | encWrite | encRead =>
    obtain ⟨-, -, ⟨-, -, hknz, -⟩, -⟩ := translator_frame (by simp) h
    exact hknz
  | gfDbl | xexEnc | xexDec | setKey | getKey | clearKey => exact Host.Outcome.next.inj h ▸ rfl

/-- Settles O31: `KNZ` is the test of every key byte, and the rest is what completion leaves. -/
theorem keyNzTestsEveryKeyByte : Obligations.KeyNzTestsEveryKeyByte := by
  refine ⟨fun i s t hi h => exec_knz hi h, fun s => ⟨_, exec_keyNz s, keyNonzero_iff s.ke s.kt, ?completed,
    ⟨rfl, rfl⟩, ⟨rfl, rfl, rfl, rfl, rfl⟩, rfl, rfl, rfl, rfl, ⟨fun _ => rfl, rfl, rfl⟩, ⟨rfl, rfl, rfl, rfl⟩⟩⟩
  case completed => exact ⟨rfl, rfl, rfl, rfl, rfl, rfl, rfl, rfl, rfl⟩

/-- Settles O33: `CLEAR_KEY` ends in the zero key and blob from every state, and the test of the zero key is 0. -/
theorem clearKeyIsIdempotent : Obligations.ClearKeyIsIdempotent := by
  intro s t u v hfirst hsecond htest
  obtain rfl := Host.Outcome.next.inj ((exec_clearKey s).symm.trans hfirst)
  obtain rfl := Host.Outcome.next.inj ((exec_clearKey _).symm.trans hsecond)
  exact ⟨rfl, rfl, rfl, rfl, rfl, rfl, (exec_keyNz_knz htest).trans keyNonzero_zero⟩

end Sys2Proof.Machine

/-! ## Error completion and the error classes of each command (60_exceptions.md R221, R223, R225) -/

namespace Sys2Proof.Machine

/-- Settles O19: what `raiseError` writes, and bit 0 of the idle core's `STATUS`. -/
theorem errorCompletion : Obligations.ErrorCompletion := by
  rintro c raw s _ rfl
  have hbusy : (raiseError c raw s).statusWord.getLsbD 0 = false := getLsbD_statusWord (raiseError c raw s) 0
  exact ⟨rfl, rfl, rfl, rfl, rfl, rfl, rfl, hbusy, rfl, rfl, ⟨rfl, rfl⟩, ⟨rfl, rfl, rfl, rfl, rfl⟩, rfl, rfl, rfl, rfl,
    ⟨fun _ => rfl, rfl, rfl⟩, raiseError_outsideKept c raw s⟩

/-! ### How a command may end -/

/-- Command `i` may report class `c` (R221, R225): a translator command reports a failed check or a raw error, and
`ENC_READ` never writes the raw store. -/
def MayReport (i : Instr) (c : ErrClass) : Prop :=
  (i = .encWrite ∨ i = .encRead) ∧ c ≠ .none ∧ c ≠ .illegalCmd ∧ (i = .encRead → c ≠ .rawWrite)

/-- Command `i` has ended in `t` without an error, or with one it may report. -/
def EndsAsAllowed (i : Instr) (t : State) : Prop :=
  t.status.eclass = .none ∧ t.status.err = false ∨ t.status.err = true ∧ MayReport i t.status.eclass

/-- Command `i` has a raw access due in `t`, or has ended as it may. -/
def DueOrEndsAsAllowed (i : Instr) (t : State) : Prop := t.stage ≠ .start ∨ EndsAsAllowed i t

theorem endsAsAllowed_complete (i : Instr) (s : State) : EndsAsAllowed i (complete s) := .inl ⟨rfl, rfl⟩

theorem MayReport.raiseError {i : Instr} {c : ErrClass} (h : MayReport i c) (raw : Word) (s : State) :
    DueOrEndsAsAllowed i (raiseError c raw s) := .inr (.inr ⟨rfl, h⟩)

theorem mayReport_rawRead {i : Instr} (hi : i = .encWrite ∨ i = .encRead) : MayReport i .rawRead :=
  ⟨hi, by simp, by simp, by simp⟩

theorem mayReport_rawWrite : MayReport .encWrite .rawWrite := ⟨.inl rfl, by simp, by simp, by simp⟩

theorem mayReport_of_rangeError {i : Instr} (hi : i = .encWrite ∨ i = .encRead) {s : State} {c : ErrClass}
    (h : s.rangeError = some c) : MayReport i c := by
  obtain ⟨rfl, -⟩ := rangeError_eq_some h
  split_ifs <;> exact ⟨hi, by simp, by simp, by simp⟩

/-! ### Every core step goes on or ends as it may -/

theorem advance_dueOrEndsAsAllowed (i : Instr) (s : State) : DueOrEndsAsAllowed i (advance s) := by
  obtain ⟨-, h⟩ | ⟨-, h⟩ := advance_cases s
  · exact h ▸ .inr (endsAsAllowed_complete i _)
  · exact h ▸ .inl (by simp)

theorem copyScratch_dueOrEndsAsAllowed (i : Instr) (s : State) : DueOrEndsAsAllowed i (copyScratch s) :=
  advance_dueOrEndsAsAllowed i _

theorem readCurrent_dueOrEndsAsAllowed {i : Instr} (hi : i = .encWrite ∨ i = .encRead) {use : State → State}
    (huse : ∀ u, DueOrEndsAsAllowed i (use u)) (s : State) : DueOrEndsAsAllowed i (readCurrent use s) := by
  obtain ⟨-, h⟩ | ⟨-, h⟩ := readCurrent_cases use s
  · exact h ▸ (mayReport_rawRead hi).raiseError _ _
  · exact h ▸ huse _

theorem writeCurrent_dueOrEndsAsAllowed (s : State) : DueOrEndsAsAllowed .encWrite (writeCurrent s) := by
  obtain ⟨-, h⟩ | ⟨-, h⟩ := writeCurrent_cases s
  · exact h ▸ mayReport_rawWrite.raiseError _ _
  · exact h ▸ advance_dueOrEndsAsAllowed _ _

theorem encWriteStep_dueOrEndsAsAllowed (s : State) : DueOrEndsAsAllowed .encWrite (encWriteStep s) := by
  obtain ⟨c, -, hr, h⟩ | ⟨u, -, -, h⟩ | ⟨-, h⟩ := encWriteStep_cases s
  · exact h ▸ (mayReport_of_rangeError (.inl rfl) hr).raiseError 0 s
  · exact h ▸ readCurrent_dueOrEndsAsAllowed (.inl rfl) (fun v => .inl (overlayScratch_goesOn v).1) u
  · exact h ▸ writeCurrent_dueOrEndsAsAllowed s

theorem encReadStep_dueOrEndsAsAllowed (s : State) : DueOrEndsAsAllowed .encRead (encReadStep s) := by
  obtain ⟨c, -, hr, h⟩ | ⟨u, -, h⟩ := encReadStep_cases s
  · exact h ▸ (mayReport_of_rangeError (.inr rfl) hr).raiseError 0 s
  · exact h ▸ readCurrent_dueOrEndsAsAllowed (.inr rfl) (copyScratch_dueOrEndsAsAllowed _) u

/-- The single-step commands complete; a translator command is its core steps. -/
theorem exec_dueOrEndsAsAllowed {i : Instr} {s t : State} (h : exec i s = .next t) : DueOrEndsAsAllowed i t := by
  cases i with
  | encWrite =>
    exact execEncWrite_eq h ▸ untilDone_keeps (fun u _ => encWriteStep_dueOrEndsAsAllowed u) _
      (encWriteStep_dueOrEndsAsAllowed s)
  | encRead =>
    exact execEncRead_eq h ▸ untilDone_keeps (fun u _ => encReadStep_dueOrEndsAsAllowed u) _
      (encReadStep_dueOrEndsAsAllowed s)
  | gfDbl | xexEnc | xexDec | setKey | getKey | clearKey | keyNz =>
    exact Host.Outcome.next.inj h ▸ .inr (endsAsAllowed_complete _ _)

/-- Settles O51: a command from its start ends, so that no access is due, and then it ended as it may. -/
theorem errorClassesOfEachCommand : Obligations.ErrorClassesOfEachCommand := by
  intro i s t hst h
  obtain ⟨⟨hended, -⟩, -⟩ := exec_ended hst h
  obtain hok | ⟨herr, hi, hnone, hillegal, hwrite⟩ := (exec_dueOrEndsAsAllowed h).resolve_left (absurd hended)
  · exact .inl hok
  · exact .inr ⟨hi, herr, hnone, hillegal, hwrite⟩

end Sys2Proof.Machine

/-! ## The reset event (70_reset_and_hazards.md R260, R261) -/

namespace Sys2Proof.Machine

@[simp] theorem coreReset_events (s : State) : s.coreReset.events = s.events := rfl

@[simp] theorem abandonWrite_events (f : Bool) (s : State) : (s.abandonWrite f).events = s.events := by
  rw [State.abandonWrite]
  split_ifs
  · rfl
  · rfl

@[simp] theorem resetEvent_events (f : Bool) (s : State) : (resetEvent f s).events = s.events := by
  rw [resetEvent, coreReset_events, abandonWrite_events]

/-- The word reads `STATUS` and `phase` alone (R25, R26), which are those of the reset state. -/
@[simp] theorem resetEvent_statusWord (f : Bool) (s : State) : (resetEvent f s).statusWord = 0 :=
  show State.reset.statusWord = 0 from rfl

/-- `DATABUF` is the one of the reset state (10_state.md R50), whatever it held. -/
theorem bufByte_resetEvent (f : Bool) (s : State) {j : Nat} (hj : j < 256) :
    bufByte (resetEvent f s).databuf j = 0 := by
  obtain ⟨-, -, -, -, -, -, -, -, -, -, -, -, -, hbuf, -⟩ := resetValues
  exact hbuf j hj

theorem writeDue_eq_false {s : State} (h : s.phase = .idle ∨ s.stage ≠ .write) : s.writeDue = false := by
  obtain hidle | hstage := h
  · simp [State.writeDue, hidle]
  · simp [State.writeDue, hstage]

theorem abandonWrite_of_no_write_in_flight {f : Bool} {s : State} (h : f = false ∨ s.writeDue = false) :
    s.abandonWrite f = s := by
  refine if_neg ?_
  rwa [Bool.not_eq_true, Bool.and_eq_false_iff]

/-- A reset with no raw write in flight (R260) does not access the raw store. -/
theorem resetEvent_storeUntouched {f : Bool} {s : State} (h : f = false ∨ s.writeDue = false) :
    StoreUntouched s (resetEvent f s) := by
  rw [resetEvent, abandonWrite_of_no_write_in_flight h]
  exact ⟨fun _ => rfl, rfl, rfl⟩

/-- R261: an abandoned write reaches no byte outside its block. -/
theorem readByte_resetEvent_of_outside (f : Bool) {s : State} (hwf : Memory.wf s.sm = true) {a : Nat}
    (ha : a < s.iter.b.toNat ∨ s.iter.b.toNat + 16 ≤ a) : readByte (resetEvent f s).sm a = readByte s.sm a := by
  obtain hsame | ⟨-, hwrite⟩ := resetEvent_sm f s
  · rw [hsame]
  · rw [hwrite, readByte_writeBlock _ _ _ hwf, if_neg (by omega)]

/-- Settles O17: no write is due in a command other than `ENC_WRITE` (`IteratorInv.encWrite_of_writeDue`), and one that
is due reaches its own block alone. -/
theorem resetDuringACommandKeepsTheOtherBlocks : Obligations.ResetDuringACommandKeepsTheOtherBlocks := by
  intro s rest f he hwf
  have untouched (h : f = false ∨ s.writeDue = false) :=
    (resetEvent_storeUntouched (s := { s with events := rest }) h).1
  refine ⟨resetEvent f { s with events := rest }, step_of_event he, rfl, resetEvent_statusWord f _, rfl,
    fun a ha => ?outside, fun h => ?noWrite, fun hs hop => ?notEncWrite⟩
  case outside => exact readByte_resetEvent_of_outside f (s := { s with events := rest }) hwf ha
  case noWrite => exact untouched (h.imp_right writeDue_eq_false)
  case notEncWrite =>
    refine untouched (.inr (Bool.eq_false_iff.mpr fun hdue => ?_))
    obtain ⟨-, hencWrite⟩ := hs.encWrite_of_writeDue hdue
    exact hop hencWrite

/-- Settles O16: whatever the write in flight left, `coreReset` takes no core state from before the reset. -/
theorem resetEventResetsTheCore : Obligations.ResetEventResetsTheCore := by
  intro s rest f he
  refine ⟨resetEvent f { s with events := rest }, step_of_event he, rfl, rfl, rfl, rfl, resetEvent_statusWord f _,
    rfl, rfl, rfl, rfl, rfl, rfl, rfl, rfl, fun j hj => bufByte_resetEvent f _ hj, rfl, rfl, rfl, fun hf => ?_,
    resetEvent_params f _, resetEvent_events f _⟩
  exact resetEvent_storeUntouched (.inl hf)

end Sys2Proof.Machine
